-- ==== Sys2Proof/Word.lean ====
section
/-!
DEFINITION. Words of BBSPI: a bit (a pin level or one sample), a byte, and the 32-bit word of the register
window (00_scope.md section 5 and R28; 10_state.md R67).
-/
namespace Sys2Proof

/-- A pin level or one sampled bit (00_scope.md, "Bits and bytes"). -/
abbrev Bit := BitVec 1

/-- Eight bits, bit 7 the most significant (00_scope.md, "Bits and bytes"). -/
abbrev Byte := BitVec 8

/-- The 16 used bits of SIZE_UNITS (R28, R66). -/
abbrev Half := BitVec 16

/-- A register of the window, a command word, a half period (R28, R67, R132). -/
abbrev Word := BitVec 32

end Sys2Proof
end

