-- ==== Sys2Proof/Config.lean ====
section
/-!
DEFINITION. What an implementation of BBSPI fixes (00_scope.md R13 to R28; 92_eei_decisions.md, parameter
summary), the event alphabet (R158), and the free values: opaque constants of which nothing can be proved.
-/
namespace Sys2Proof

/-- One event at the pins or in time (R10, R120, R158). -/
inductive Event where
  /-- chip-select driven to a level by SETCS (R151) -/
  | cs (l : Bit)
  /-- clock driven to a level by SETSCK (R152) -/
  | sck (l : Bit)
  /-- data-out driven to a level by SETMOSI (R153) -/
  | mosi (l : Bit)
  /-- data-in sampled by GETMISO (R154) -/
  | miso (b : Bit)
  /-- a busy wait of that many microseconds at least (R155) -/
  | delay (d : Word)
  deriving DecidableEq, Repr

/-- The parameters of 00_scope.md section 4, each under its name there. `pollLimit = none` is infinity (R24).
`MAX_CHUNK` is here and `CHUNK_DATA_MAX` is derived from it (R26). -/
structure Params where
  ceiling : Nat
  floor : Nat
  page : Nat
  maxChunk : Nat
  sizeScale : Nat
  filler : Byte
  sentinel : Byte
  csAssert : Bit
  validBackends : List Byte
  bufMax : Nat
  pollLimit : Option Nat
  rdsrOpcode : Byte
  rdsrReadLen : Nat
  wipMask : Byte
  wrenOpcode : Byte
  progWren : Bool
  ppOpcode : Byte
  readOpcode : Byte
  addrBytes : Nat
  backendFallible : Bool
  deriving DecidableEq, Repr

/-- Every parameter at the default the spec gives it (R13 to R19, R21 to R25, R27). -/
def Params.default : Params where
  ceiling := 65536
  floor := 260
  page := 256
  maxChunk := 65536
  sizeScale := 1024
  filler := 0x00
  sentinel := 0xFF
  csAssert := 0
  validBackends := [1]
  bufMax := 65536
  pollLimit := none
  rdsrOpcode := 0x05
  rdsrReadLen := 1
  wipMask := 0x01
  wrenOpcode := 0x06
  progWren := true
  ppOpcode := 0x02
  readOpcode := 0x03
  addrBytes := 3
  backendFallible := false

/-- `CS_DEASSERT_LEVEL = 1 - CS_ASSERT_LEVEL` (R21). -/
def Params.csDeassert (p : Params) : Bit := ~~~p.csAssert

/-- `CHUNK_DATA_MAX = MAX_CHUNK - (1 + ADDR_BYTES)` (R26). -/
def Params.chunkDataMax (p : Params) : Nat := p.maxChunk - (1 + p.addrBytes)

/-- The constraints between parameters (92_eei_decisions.md, last paragraph), with `0` unset (R22, R41) and a
page of at least one byte. -/
def Params.wf (p : Params) : Bool :=
  decide (p.floor ≤ p.bufMax) && decide (1 + p.addrBytes + p.page ≤ p.ceiling) && decide (1 ≤ p.page)
    && decide (1 + p.rdsrReadLen ≤ p.ceiling) && decide (1 ≤ p.rdsrReadLen) && decide (1 ≤ p.chunkDataMax)
    && decide (1 + p.addrBytes + p.chunkDataMax ≤ min p.ceiling p.maxChunk)
    && (match p.pollLimit with | none => true | some l => decide (1 ≤ l))
    && !p.validBackends.contains 0

/-- The byte spaces whose unwritten bytes have no stated value (R49, R90; U1, U8). -/
inductive Space where
  | outBuf
  | inBuf
  | hw
  | hr
  deriving DecidableEq, Repr

/-- FREE VALUE. The level data-in presents when the script of State is used up: any function of the outside world
and of the trace so far (R154, U4; log 4). -/
opaque Config.oracle (world : Nat) (sofar : List Event) : Bit

/-- FREE VALUE. Whether the next pin-driver call fails when `backendFallible` is set and the script of State is used
up (R248, U5; log 6). -/
opaque Config.pinFails (world : Nat) (sofar : List Event) : Bool

/-- FREE VALUE. What a byte holds that nothing has written: in world `world`, space `space`, generation `gen` of that
space, at an index (R49, R172, U1, U8; log 9). -/
opaque Config.memByte (world : Nat) (space : Space) (gen index : Nat) : Byte

/-- FREE VALUE. Which moment of the running operation a read of a register of U15 shows: a fresh value for each read
(U15; log 14). -/
opaque Config.busyMoment (fresh : Nat) : Nat

end Sys2Proof
end

