-- ==== Sys2Proof/Syntax.lean ====
section
/-!
DEFINITION. The instructions of BBSPI, one constructor for each row of opcode_table.json: the six host operations of
format CMD (R130, R132) and the four frames of format WIRE, which host software issues as the pseudo-operations of
R138. A command word carries no operand (R132): operands are in the registers. A pseudo-operation carries the
operands of R138's table; its offset is a number, since a build has as many offset bytes as its ADDR_BYTES (R25, R125).
-/
namespace Sys2Proof

/-- The six host-issued operations (R60, R132). -/
inductive Op where
  | init
  | xbit
  | xbyte
  | exec
  | read
  | prog
  deriving DecidableEq, Repr

/-- One constructor per row of opcode_table.json. -/
inductive Instr where
  /-- INIT (R230) -/
  | init
  /-- XBIT (R160) -/
  | xbit
  /-- XBYTE (R162) -/
  | xbyte
  /-- EXEC (R182) -/
  | exec
  /-- READ (R190) -/
  | read
  /-- PROG (R200) -/
  | prog
  /-- RDSR -> sr (R138, frame of R125 and R204) -/
  | rdsr
  /-- WREN (R138, frame of R125 and R203) -/
  | wren
  /-- PP a, data (R138, frame of R125 and R203) -/
  | pp (addr : Nat) (data : List Byte)
  /-- RD a, n (R138, frame of R125 and R192) -/
  | rd (addr : Nat) (n : Nat)
  deriving DecidableEq, Repr

/-- The instruction a host operation is. -/
def Op.instr : Op → Instr
  | .init => .init
  | .xbit => .xbit
  | .xbyte => .xbyte
  | .exec => .exec
  | .read => .read
  | .prog => .prog

end Sys2Proof
end

