-- ==== Sys2Proof/Machine/State.lean ====
section
/-!
DEFINITION. The state of BBSPI as plain data (10_state.md), its outside world as plain data (R12), the reasons a step
can stop, and the state right after reset (R74).
-/
namespace Sys2Proof.Machine

/-- A byte space as cells in strictly rising index order. An index that is not listed holds a byte nothing has written
(log 9). -/
abbrev Memory := List Host.Cell

/-- TOP, the top-level sequencer state (R60). -/
inductive Top where
  | idle
  | run (op : Op)
  | fatal
  deriving DecidableEq, Repr

/-- TXS, the phases of a transaction in their order (R61). -/
inductive TxPhase where
  | check
  | alloc
  | fill
  | assert
  | bytes
  | tailWait1
  | deassert
  | tailWait2
  | copy
  | done
  deriving DecidableEq, Repr

/-- BITPH, the phases of a bit cell in their order (R62). -/
inductive BitPhase where
  | drive
  | wait1
  | rise
  | sample
  | wait2
  | fall
  deriving DecidableEq, Repr

/-- PPS, the states of the Page Programmer (R64, R210). -/
inductive PpState where
  | next
  | program
  | poll
  | test
  | advance
  | ok
  | fail
  | timeout
  deriving DecidableEq, Repr

/-- Whose transaction runs: the caller of `Exec` (R170, R182, R190, R203, R204); `subst` is a ProgramPage or ReadStatus
that replaces the default; `none` when no transaction runs. -/
inductive Job where
  | none
  | exec
  | chunk
  | wren
  | pp
  | rdsr
  | subst
  deriving DecidableEq, Repr

/-- INIT's place in its pseudocode (R230). -/
inductive InitPhase where
  | latch
  | chipSelect
  | clock
  deriving DecidableEq, Repr

/-- Sequencing state of the running transaction and of its byte and bit (R61, R62, R63). -/
structure TxSeq where
  job : Job
  txs : TxPhase
  bitpos : BitVec 3
  bitph : BitPhase
  wcnt : Nat
  rcnt : Nat
  pos : Nat
  outb : Byte
  deriving DecidableEq, Repr

/-- Sequencing state of the Page Programmer (R64), and what is left to do for a replaced ProgramPage or ReadStatus: its
transactions, the running one first, and its result (R203, R204; log 7). -/
structure PpSeq where
  pps : PpState
  total : Nat
  plen : Nat
  npoll : Nat
  todo : List (List Byte × Nat)
  result : Word
  deriving DecidableEq, Repr

/-- What READ's pseudocode keeps for the call (R190). -/
structure ReadSeq where
  done : Nat
  n : Nat
  deriving DecidableEq, Repr

/-- No transaction runs (R61: meaningful only while one does; log 11). -/
def TxSeq.rest : TxSeq where
  job := .none
  txs := .check
  bitpos := 7
  bitph := .drive
  wcnt := 0
  rcnt := 0
  pos := 0
  outb := 0

/-- No PROG runs (R64; log 11). -/
def PpSeq.rest : PpSeq where
  pps := .next
  total := 0
  plen := 0
  npoll := 0
  todo := []
  result := 0

/-- No READ runs (R190; log 11). -/
def ReadSeq.rest : ReadSeq where
  done := 0
  n := 0

/-- The operand registers (R66), each as wide as its used bits: the others are written as zero and read as zero
(log 13). -/
structure OperandRegs where
  cfgBackend : Byte
  cfgHalfPeriod : Word
  wcount : Word
  rcount : Word
  start : Word
  length : Word
  sizeUnits : Half
  arg : Byte
  deriving DecidableEq, Repr

/-- The levels of the three output pins (R43 to R45). -/
structure Pins where
  cs : Bit
  sck : Bit
  mosi : Bit
  deriving DecidableEq, Repr

/-- What the registers of U15 have shown since the running operation was accepted, the present values included, no
value twice: CAP, SR and OFF; PINS at acceptance, with the length the trace had then, from which its later values
follow. A read while BUSY may return any of them (log 14). -/
structure Span where
  caps : List Nat
  srs : List Byte
  offs : List Nat
  pins : Pins
  mark : Nat
  deriving DecidableEq, Repr

/-- No operation runs. -/
def Span.rest : Span where
  caps := []
  srs := []
  offs := []
  pins := { cs := 0, sck := 0, mosi := 0 }
  mark := 0

/-- One action of the host (R12, R130, R131; log 2). -/
inductive HostAct where
  /-- the abstract form of R130: issue a command word; the operation runs to its end in this step (PROG: or to a busy
  poll at which it may wait, log 8) -/
  | call (w : Word)
  /-- a line `EXEC wbytes, r` of R137, for any bytes and any count; where it is a frame of R125 in the build it is that
  pseudo-operation of R138 -/
  | frame (wbytes : List Byte) (r : Nat)
  /-- the register form of R131 and R67: write a register, offset 0x00 being CMD -/
  | write (off v : Word)
  /-- read a register (R67) -/
  | read (off : Word)
  /-- place a byte in HW (R93) -/
  | putHw (addr : Word) (b : Byte)
  /-- take a byte from HR (R94) -/
  | getHr (addr : Word)
  /-- let the block advance by one sequencer phase -/
  | wait
  /-- read STATUS until BUSY is 0 (R137, R255) -/
  | poll
  /-- assert the reset input (R280) -/
  | reset
  deriving DecidableEq, Repr

/-- One call of ProgramPage or of ReadStatus, both of which a model takes as arguments (R203, R204; log 7). -/
inductive PrimCall where
  /-- the spec's default transactions run -/
  | default
  /-- a replaced primitive: the transactions `Exec(wbytes, r)` it makes, in order, and the result it returns (ReadStatus:
  its low 8 bits) -/
  | custom (txs : List (List Byte × Nat)) (result : Word)
  deriving DecidableEq, Repr

/-- The outside world (R12): what the host will do, what data-in will present, what the external primitives and
the pin driver will do, and what the host has read. Not state of the block. -/
structure Env where
  /-- the host's coming actions, next first -/
  host : List HostAct
  /-- the levels data-in will present at the coming samples, next first (R154; log 4) -/
  dataIn : List Bit
  /-- what ProgramPage does at its coming calls, next first; the default beyond the list (R203, U12; log 7) -/
  pageCalls : List PrimCall
  /-- what ReadStatus does at its coming calls, next first; the default beyond the list (R204; log 7) -/
  statusCalls : List PrimCall
  /-- whether the coming pin-driver calls fail, next first; read only when `backendFallible` is set (R248; log 6) -/
  pinFaults : List Bool
  /-- the value the last host read returned -/
  hostRead : Word
  /-- which outside world this is: index of the free values, advanced by reset -/
  world : Nat
  /-- index of the free moments of reads while busy, advanced by each -/
  fresh : Nat
  deriving DecidableEq, Repr

/-- The machine. The fields are those of 10_state.md under the spec's names; the model's own are `params`, `trace`,
`initph`, `rd`, `span` and `env` (INVENTORY.md, State). BUSY and FATAL are views of `top` (R54, R55, R60; log 12). -/
structure State where
  /-- the build's parameters; no step writes them (log 5) -/
  params : Params
  /-- BACKEND_SEL (R41) -/
  backendSel : Byte
  /-- HALF_PERIOD (R42) -/
  halfPeriod : Word
  /-- CS (R43) -/
  cs : Bit
  /-- SCK (R44) -/
  sck : Bit
  /-- MOSI (R45) -/
  mosi : Bit
  /-- ACC (R47) -/
  acc : Byte
  /-- CAP (R48) -/
  cap : Nat
  /-- OUT (R49, R91) -/
  outBuf : Memory
  /-- IN (R49, R92) -/
  inBuf : Memory
  /-- RESULT (R50) -/
  result : Byte
  /-- PRES (R51) -/
  pres : Word
  /-- SR (R52) -/
  sr : Byte
  /-- OFF (R53) -/
  off : Nat
  /-- OVR (R56) -/
  ovr : Bit
  /-- ERR (R57) -/
  err : Byte
  /-- the operand registers (R66) -/
  ops : OperandRegs
  /-- HW (R93) -/
  hw : Memory
  /-- HR (R94) -/
  hr : Memory
  /-- TOP (R60) -/
  top : Top
  /-- INIT's place in its pseudocode (R230) -/
  initph : InitPhase
  /-- TXS, BITPOS, BITPH, WCNT, RCNT, POS, OUTB (R61 to R63) -/
  tx : TxSeq
  /-- done and n of READ (R190) -/
  rd : ReadSeq
  /-- PPS, TOTAL, PLEN, NPOLL (R64) -/
  pp : PpSeq
  /-- what the registers of U15 have shown in the running operation (log 14) -/
  span : Span
  /-- the event trace, newest first (R65, R158) -/
  trace : List Event
  /-- the outside world (R12) -/
  env : Env
  deriving DecidableEq, Repr

/-- Why the machine stops. No error of the spec is here: those end an operation in a next state (R250, R251). -/
inductive Fault where
  /-- A sequencer phase would access OUT or IN at an index that is not below CAP, which R49 says does not happen; only
  a state no run reaches gets here (log 20). Raised by `txTick`. Safe. -/
  | scratchIndex
  /-- A parameter is outside the constraints of 92_eei_decisions.md and the pseudocode then names a byte that does not
  exist (R204, `rb[0]` of an empty response) or makes no progress (R190 with CHUNK_DATA_MAX = 0, R200 with PAGE = 0).
  Raised by `readStatus`, `readLoop`, `pageLoop` and their sequencer phases. Safe. -/
  | parameters
  deriving DecidableEq, Repr

/-- What the model gives no meaning. -/
inductive Refusal where
  /-- An instruction without a meaning yet, by its mnemonic. Raised by no arm. Safe. -/
  | notModelled (mnemonic : String)
  /-- A register access that is not an aligned word (R67, R102, U10 `refuse`). Raised by `hostWrite` and
  `hostReadReg`. Safe. -/
  | unalignedRegister
  /-- The host touches HW or HR while BUSY is 1 (R93, R290, U9 `refuse`). Raised by `hostPutHw` and `hostGetHr`.
  Safe. -/
  | hostDataWhileBusy
  /-- PROG with more bytes to program than HW has (R200, U8 `refuse`): TOTAL above 2^32, which needs a SIZE_SCALE above
  65536. Raised by `execProg` and `startOp`. Safe. -/
  | dataShorterThanTotal
  deriving DecidableEq, Repr

/-- No host action, no scripted level, no scripted result (log 29). -/
def Env.reset : Env where
  host := []
  dataIn := []
  pageCalls := []
  statusCalls := []
  pinFaults := []
  hostRead := 0
  world := 0
  fresh := 0

/-- The operand registers after reset: 0 (R66, R74). -/
def OperandRegs.reset : OperandRegs where
  cfgBackend := 0
  cfgHalfPeriod := 0
  wcount := 0
  rcount := 0
  start := 0
  length := 0
  sizeUnits := 0
  arg := 0

/-- The block at a reset of a build with parameters `p` in the outside world `e`: the table of R74, no event (R281).
HW and HR, which the table does not name, hold bytes of no known value (log 21). -/
def State.resetOf (p : Params) (e : Env) : State where
  params := p
  backendSel := 0
  halfPeriod := 0
  cs := p.csDeassert
  sck := 0
  mosi := 0
  acc := 0
  cap := 0
  outBuf := []
  inBuf := []
  result := 0
  pres := 0
  sr := 0
  off := 0
  ovr := 0
  err := 0
  ops := OperandRegs.reset
  hw := []
  hr := []
  top := .idle
  initph := .latch
  tx := TxSeq.rest
  rd := ReadSeq.rest
  pp := PpSeq.rest
  span := Span.rest
  trace := []
  env := e

/-- The machine right after reset, with the default parameters (R74, R280, R283). -/
def State.reset : State := State.resetOf Params.default Env.reset

end Sys2Proof.Machine
end

