-- ==== Sys2Proof/Machine/Ops.lean ====
section
/-!
DEFINITION. The named operations: byte spaces (20_memory.md), a run of pseudocode that may end early, how an operation
ends (R250, R251), and the five primitives of the Backend Binding (40_backend_primitives.md).
-/
namespace Sys2Proof.Machine

/-! ## Byte spaces -/

/-- The byte a cell list holds at an index, `none` where nothing has written it. -/
def memRead (m : Memory) (a : Nat) : Option Byte :=
  match m with
  | [] => none
  | c :: rest => if c.1 = a then some c.2 else memRead rest a

/-- A sequence of bytes as cells from an index on. -/
def memCells (a : Nat) : List Byte → Memory
  | [] => []
  | b :: bs => (a, b) :: memCells (a + 1) bs

/-- `MemWrite(S, a, len bs, bs)` (00_scope.md, "Memory"). -/
def memWriteRange (m : Memory) (a : Nat) (bs : List Byte) : Memory :=
  m.takeWhile (fun c => decide (c.1 < a)) ++ memCells a bs
    ++ m.dropWhile (fun c => decide (c.1 < a + bs.length))

/-- One byte written (00_scope.md, "Memory"). -/
def memWrite (m : Memory) (a : Nat) (b : Byte) : Memory := memWriteRange m a [b]

/-- The canonical form: indices strictly rising. -/
def memWf : Memory → Bool
  | [] => true
  | [_] => true
  | c :: d :: rest => decide (c.1 < d.1) && memWf (d :: rest)

/-- OUT at an index (R91); the generation of OUT and IN is CAP, which growth changes (R172; log 10). -/
def State.outAt (s : State) (i : Nat) : Byte :=
  (memRead s.outBuf i).getD (Config.memByte s.env.world .outBuf s.cap i)

/-- IN at an index (R92). -/
def State.inAt (s : State) (i : Nat) : Byte :=
  (memRead s.inBuf i).getD (Config.memByte s.env.world .inBuf s.cap i)

/-- HW at an index (R93); a byte the host did not set is any value (U8). -/
def State.hwAt (s : State) (i : Nat) : Byte :=
  (memRead s.hw i).getD (Config.memByte s.env.world .hw 0 i)

/-- HR at an index (R94). -/
def State.hrAt (s : State) (i : Nat) : Byte :=
  (memRead s.hr i).getD (Config.memByte s.env.world .hr 0 i)

/-- `MemRead(IN, a, n)`. -/
def State.inBytes (s : State) (a n : Nat) : List Byte := (List.range' a n).map s.inAt

/-- `MemRead(HW, a, n)`. -/
def State.hwBytes (s : State) (a n : Nat) : List Byte := (List.range' a n).map s.hwAt

/-- `MemWrite(HR, a, len bs, bs)`. -/
def State.writeHr (s : State) (a : Nat) (bs : List Byte) : State :=
  { s with hr := memWriteRange s.hr a bs }

/-! ## Runs of pseudocode -/

/-- Where pseudocode got to: on with a value and a state, or the operation has stopped in a state (a fatal error, or a
poll that still waits), or a fault of the model. -/
inductive Run (α : Type) where
  | ok (a : α) (s : State)
  | halt (s : State)
  | fault (f : Fault)

/-- Statements run in the order written; nothing after a `raise` is executed (00_scope.md, "Faults", "Sequencer"). -/
def Run.bind {α β : Type} (r : Run α) (k : α → State → Run β) : Run β :=
  match r with
  | .ok a s => k a s
  | .halt s => .halt s
  | .fault f => .fault f

/-! ## Errors and how an operation ends -/

/-- Status and error codes (R240). -/
def codeOk : Byte := 0x00
def codeInvalidLength : Byte := 0x01
def codeAllocationFailure : Byte := 0x02
def codeProgramFailure : Byte := 0x03
def codeNoBackend : Byte := 0x04
def codeTimeout : Byte := 0x05
def codeIllegalCommand : Byte := 0x06
def codeInvalidBackend : Byte := 0x07
def codeBackendFault : Byte := 0x08

/-- Sequencing state, and the record of what an operation has shown, have a meaning only while one runs (R40, R61 to
R64; logs 11, 14). -/
def State.atRest (s : State) : State :=
  { s with initph := .latch, tx := TxSeq.rest, rd := ReadSeq.rest, pp := PpSeq.rest, span := Span.rest }

/-- An operation ends normally or with a recoverable error: ERR the code, BUSY 0, TOP IDLE (R57, R60, R250). -/
def State.endOp (s : State) (code : Byte) : State :=
  { s.atRest with err := code, top := .idle }

/-- A fatal error, the block's one way of taking an exception it cannot return from: ERR the code, FATAL 1, BUSY 0,
TOP FATAL, everything else as it is (R251). Only reset leaves it (R282). -/
def State.raiseFatal (s : State) (code : Byte) : State :=
  { s.atRest with err := code, top := .fatal }

/-- A hardware reset: every piece of state at the value of R74, no event, the outside world goes on (R280 to R282). -/
def State.hardReset (s : State) : State :=
  State.resetOf s.params { s.env with world := s.env.world + 1 }

/-- The end of an operation's pseudocode: a status ends it (R250), a stop keeps the state it stopped in. -/
def finish (r : Run Byte) : Host.Outcome State Fault Refusal :=
  match r with
  | .ok status s => .next (s.endOp status)
  | .halt s => .next s
  | .fault f => .fault f

/-- The levels of the output pins (R43 to R45). -/
def State.pins (s : State) : Pins where
  cs := s.cs
  sck := s.sck
  mosi := s.mosi

/-- Acceptance of an operation: BUSY rises (R54, R131), and what the registers of U15 show from here on is recorded
(log 14). -/
def State.accept (s : State) (op : Op) : State :=
  { s with
    top := .run op
    span := { caps := [s.cap], srs := [s.sr], offs := [s.off], pins := s.pins, mark := s.trace.length } }

/-- CAP is written (R172). -/
def State.setCap (s : State) (cap : Nat) : State := { s with cap := cap, span.caps := s.span.caps.insert cap }

/-- SR is written (R52). -/
def State.setSr (s : State) (sr : Byte) : State := { s with sr := sr, span.srs := s.span.srs.insert sr }

/-- OFF is written while PROG runs (R53). -/
def State.setOff (s : State) (off : Nat) : State := { s with off := off, span.offs := s.span.offs.insert off }

/-- Issue of an operation: accepted when BUSY = 0 and FATAL = 0 (BUSY rises: R54, R131); otherwise discarded whole, and
OVR is set (R56, R262). -/
def issue (op : Op) (body : State → Host.Outcome State Fault Refusal) (s : State) :
    Host.Outcome State Fault Refusal :=
  if s.top = .idle then body (s.accept op) else .next { s with ovr := 1 }

/-! ## Primitives -/

/-- `emit e` (R10). -/
def State.emit (s : State) (e : Event) : State := { s with trace := e :: s.trace }

/-- The trace in the order of time (R158). -/
def State.events (s : State) : List Event := s.trace.reverse

/-- Selector resolution (R150), and the fallible pin driver when `backendFallible` is set (R248): the failing primitive
emits no event and changes no latch. -/
def resolve (s : State) : Run Unit :=
  if s.backendSel ∈ s.params.validBackends then
    if s.params.backendFallible then
      match s.env.pinFaults with
      | true :: rest => .halt ({ s with env.pinFaults := rest }.raiseFatal codeBackendFault)
      | false :: rest => .ok () { s with env.pinFaults := rest }
      | [] => if Config.pinFails s.env.world s.trace then .halt (s.raiseFatal codeBackendFault) else .ok () s
    else .ok () s
  else .halt (s.raiseFatal codeNoBackend)

/-- SETCS (R151). -/
def setCs (l : Bit) (s : State) : Run Unit :=
  (resolve s).bind fun _ s => .ok () ({ s with cs := l }.emit (.cs l))

/-- SETSCK (R152). -/
def setSck (l : Bit) (s : State) : Run Unit :=
  (resolve s).bind fun _ s => .ok () ({ s with sck := l }.emit (.sck l))

/-- SETMOSI (R153). -/
def setMosi (l : Bit) (s : State) : Run Unit :=
  (resolve s).bind fun _ s => .ok () ({ s with mosi := l }.emit (.mosi l))

/-- What data-in presents now: the script's next level, and the oracle of R154 when the script is used up (log 4). -/
def State.dataInNow (s : State) : Bit :=
  match s.env.dataIn with
  | b :: _ => b
  | [] => Config.oracle s.env.world s.trace

/-- GETMISO (R154): it changes no state of the block. -/
def getMiso (s : State) : Run Bit :=
  (resolve s).bind fun _ s =>
    .ok s.dataInNow ({ s with env.dataIn := s.env.dataIn.tail }.emit (.miso s.dataInNow))

/-- DELAY with the one argument the block uses, HALF_PERIOD (R155): it does not resolve through the selector. -/
def delay (s : State) : State := s.emit (.delay s.halfPeriod)

end Sys2Proof.Machine
end

