-- ==== Sys2Proof/Machine/BusInit.lean ====
section
/-!
DEFINITION. Bus initialisation, operation INIT (45_bus_init.md).
-/
namespace Sys2Proof.Machine

/-- INIT latches its two operands, also when the backend is invalid (R230, R231). -/
def initLatch (s : State) : State :=
  { s with backendSel := s.ops.cfgBackend, halfPeriod := s.ops.cfgHalfPeriod }

/-- `INIT(backend, half_period)` (R230). -/
def runInit (s : State) : Run Byte :=
  if s.ops.cfgBackend ∉ s.params.validBackends then .ok codeInvalidBackend (initLatch s)
  else
    (setCs s.params.csDeassert (initLatch s)).bind fun _ s =>
    (setSck 0 s).bind fun _ s =>
    .ok codeOk s

/-- The instruction INIT. -/
def execInit (s : State) : Host.Outcome State Fault Refusal := issue .init (fun s => finish (runInit s)) s

end Sys2Proof.Machine
end

