-- ==== Sys2Proof/Decode.lean ====
section
/-!
DEFINITION. Decoding and encoding: the 32-bit command word (R132, R134, R139) and the two fields of a frame the block
composes (R123, R125). Both decoders are total and reject by name.
-/
namespace Sys2Proof

/-- Why a command word or a frame is no instruction. -/
inductive Reject where
  /-- a nonzero bit in 31:8 of the command word (R134) -/
  | upperBits
  /-- an operation code 0x00 or 0x07 to 0xFF (R134) -/
  | reservedOp (op : Byte)
  /-- a frame with no byte has no first byte to tell it by (R125) -/
  | emptyFrame
  /-- a first byte that is none of the four of R125 -/
  | unknownOpcode (op : Byte)
  /-- a write field or a read field whose length is none the row has (R125) -/
  | frameLength
  deriving DecidableEq, Repr

/-- A word to be decoded: a command word, or a frame as R125's table gives it, the bytes of its write field and the
length of its read field (R122, R123). -/
inductive Code where
  | cmd (w : Word)
  | frame (wbytes : List Byte) (r : Nat)
  deriving DecidableEq, Repr

/-- The operation code of each host operation (R132). -/
def opCode : Op → Byte
  | .init => 0x01
  | .xbit => 0x02
  | .xbyte => 0x03
  | .exec => 0x04
  | .read => 0x05
  | .prog => 0x06

/-- The host operation of a command word: bits 31:8 zero, bits 7:0 the operation code (R132, R134). -/
def decodeOp (w : Word) : Except Reject Op :=
  if w.extractLsb' 8 24 ≠ 0 then .error .upperBits
  else
    match (w.extractLsb' 0 8).toNat with
    | 1 => .ok .init
    | 2 => .ok .xbit
    | 3 => .ok .xbyte
    | 4 => .ok .exec
    | 5 => .ok .read
    | 6 => .ok .prog
    | _ => .error (.reservedOp (w.extractLsb' 0 8))

/-- The instruction of a command word (R139). -/
def decodeCmd (w : Word) : Except Reject Instr :=
  match decodeOp w with
  | .ok op => .ok op.instr
  | .error e => .error e

/-- The command word of a host operation (R132). -/
def encodeOp (op : Op) : Word := (opCode op).setWidth 32

/-- A number as `n` bytes, most significant first, reduced modulo 256^n (R100, R96). -/
def offsetBytes : Nat → Nat → List Byte
  | 0, _ => []
  | n + 1, a => BitVec.ofNat 8 (a >>> (8 * n)) :: offsetBytes n a

/-- The flash offset of some bytes, most significant first (R100, R125). -/
def offsetOf (bytes : List Byte) : Nat := bytes.foldl (fun a b => 256 * a + b.toNat) 0

/-- The row of R125 a frame is in a build with parameters `p` (opcode_table.json, format WIRE; the codes and lengths are
the build's, R25, R138). DESIGN CHOICE (log 22): where two of a build's codes coincide the first row that has the code
is asked, in the order RDSR, WREN, PP, RD. Any other frame is no row, but still an EXEC (`step`). -/
def decodeFrame (p : Params) (wbytes : List Byte) (r : Nat) : Except Reject Instr :=
  match wbytes with
  | [] => .error .emptyFrame
  | op :: rest =>
    if op = p.rdsrOpcode then
      if rest = [] ∧ r = p.rdsrReadLen then .ok .rdsr else .error .frameLength
    else if op = p.wrenOpcode then
      if rest = [] ∧ r = 0 then .ok .wren else .error .frameLength
    else if op = p.ppOpcode then
      if p.addrBytes < rest.length ∧ rest.length ≤ p.addrBytes + p.page ∧ r = 0 then
        .ok (.pp (offsetOf (rest.take p.addrBytes)) (rest.drop p.addrBytes))
      else .error .frameLength
    else if op = p.readOpcode then
      if rest.length = p.addrBytes ∧ 1 ≤ r ∧ r ≤ p.chunkDataMax then .ok (.rd (offsetOf rest) r)
      else .error .frameLength
    else .error (.unknownOpcode op)

/-- Decoding of either form; a command word means the same in every build (R132). -/
def decode (p : Params) : Code → Except Reject Instr
  | .cmd w => decodeCmd w
  | .frame wbytes r => decodeFrame p wbytes r

/-- The word of an instruction: a command word (R132) or a frame of the build (R125). -/
def encode (p : Params) : Instr → Code
  | .init => .cmd (encodeOp .init)
  | .xbit => .cmd (encodeOp .xbit)
  | .xbyte => .cmd (encodeOp .xbyte)
  | .exec => .cmd (encodeOp .exec)
  | .read => .cmd (encodeOp .read)
  | .prog => .cmd (encodeOp .prog)
  | .rdsr => .frame [p.rdsrOpcode] p.rdsrReadLen
  | .wren => .frame [p.wrenOpcode] 0
  | .pp addr data => .frame (p.ppOpcode :: offsetBytes p.addrBytes addr ++ data) 0
  | .rd addr n => .frame (p.readOpcode :: offsetBytes p.addrBytes addr) n

/-- The shortest frame that begins with a byte and is zero above it: the opcode, a zero offset where the row has one,
one zero data byte where the row needs one, and the shortest read field (R125). -/
def shortestFrame (p : Params) (op : Byte) : Code :=
  if op = p.rdsrOpcode then .frame [op] p.rdsrReadLen
  else if op = p.wrenOpcode then .frame [op] 0
  else if op = p.ppOpcode then .frame (op :: List.replicate (p.addrBytes + 1) 0) 0
  else if op = p.readOpcode then .frame (op :: List.replicate p.addrBytes 0) 1
  else .frame [op] 0

/-- The word of `nbits` table bits as the decoder takes it: a row of 8 bits is the first byte of a frame, any other
is a command word (opcode_table.json). -/
def tableCode (p : Params) (nbits w : Nat) : Code :=
  if nbits = 8 then shortestFrame p (BitVec.ofNat 8 w) else .cmd (BitVec.ofNat 32 w)

/-- The instruction the decoder of a build reads from a table word, `none` where it rejects. -/
def decodeTableWordIn (p : Params) (nbits w : Nat) : Option Instr :=
  match decode p (tableCode p nbits w) with
  | .ok i => some i
  | .error _ => none

/-- The same in the default build, whose codes opcode_table.json gives. -/
def decodeTableWord (nbits w : Nat) : Option Instr := decodeTableWordIn Params.default nbits w

end Sys2Proof
end

