-- ==== Sys2Proof/Machine/Operands.lean ====
section
/-!
DEFINITION. Operand assembly (R133), the frames the block composes (R125), and the bit-level helpers of the Bit and
Byte Engines (R163).
-/
namespace Sys2Proof.Machine

/-! ## Operands, each the content of a register at the moment of issue (R110, R133) -/

/-- XBIT: `o = ARG[0]`. -/
def State.argBit (s : State) : Bit := s.ops.arg.extractLsb' 0 1

/-- EXEC: `w = WCOUNT`. -/
def State.wLen (s : State) : Nat := s.ops.wcount.toNat

/-- EXEC: `r = RCOUNT`. -/
def State.rLen (s : State) : Nat := s.ops.rcount.toNat

/-- READ: `start = START`. -/
def State.startOff (s : State) : Nat := s.ops.start.toNat

/-- READ: `length = LENGTH`. -/
def State.readLen (s : State) : Nat := s.ops.length.toNat

/-- PROG: `TOTAL = SIZE_SCALE * units` (R201), the one scaled operand. -/
def State.progTotal (s : State) : Nat := s.params.sizeScale * s.ops.sizeUnits.toNat

/-- A count as the host writes it to WCOUNT or RCOUNT (R66, R137). One that has no 32 bits, which no register can hold, is
written as the greatest, so that it is beyond CEILING as R171 has it without wrap (log 22). -/
def countReg (n : Nat) : Word := BitVec.ofNat 32 (min n 4294967295)

/-- How many bytes HW has (R90). -/
def hostSpaceSize : Nat := 4294967296

/-! ## Bits of a byte -/

/-- `v[i]` (00_scope.md, "Bits and bytes"). -/
def bitAt (v : Byte) (i : Nat) : Bit := v.extractLsb' i 1

/-- `((ACC << 1) | b)[7:0]` (R163). -/
def shiftIn (acc : Byte) (b : Bit) : Byte := (acc <<< 1) ||| b.setWidth 8

/-! ## Frames the block composes (R125) -/

/-- The flash offset in a frame: reduced modulo 2^(8*ADDR_BYTES), most significant byte first (R96, R100). -/
def flashOffset (p : Params) (a : Nat) : List Byte := offsetBytes p.addrBytes (a % 2 ^ (8 * p.addrBytes))

/-- Write field of RDSR (R204). -/
def rdsrBytes (p : Params) : List Byte := [p.rdsrOpcode]

/-- Write field of WREN (R203). -/
def wrenBytes (p : Params) : List Byte := [p.wrenOpcode]

/-- Write field of PP (R203). -/
def ppBytes (p : Params) (a : Nat) (data : List Byte) : List Byte := p.ppOpcode :: flashOffset p a ++ data

/-- Write field of RD (R192). -/
def rdBytes (p : Params) (a : Nat) : List Byte := p.readOpcode :: flashOffset p a

/-- The page at OFF (R202): `data[OFF .. OFF+PLEN-1]` from HW. -/
def State.pageData (s : State) (plen : Nat) : List Byte := s.hwBytes s.off plen

end Sys2Proof.Machine
end

