-- ==== Sys2Proof/Machine/Engine.lean ====
section
/-!
DEFINITION. Bit Engine and Byte Engine (41_bit_byte_engine.md), and the host operations XBIT and XBYTE.
-/
namespace Sys2Proof.Machine

/-- `XBIT(o)` (R160): six events, ACC shifts the sampled bit in, the result is that bit. -/
def xbit (o : Bit) (s : State) : Run Bit :=
  (setMosi o s).bind fun _ s =>
  (setSck 1 (delay s)).bind fun _ s =>
  (getMiso s).bind fun b s =>
  (setSck 0 (delay { s with acc := shiftIn s.acc b })).bind fun _ s =>
  .ok b s

/-- The cells of `XBYTE(v)` for bit positions `k-1` down to 0 (R162). -/
def xbyteCells (v : Byte) : Nat → State → Run Unit
  | 0, s => .ok () s
  | k + 1, s => (xbit (bitAt v k) s).bind fun _ s => xbyteCells v k s

/-- `XBYTE(v)` (R162): ACC cleared, eight cells from bit 7 down, the result is ACC. -/
def xbyte (v : Byte) (s : State) : Run Byte :=
  (xbyteCells v 8 { s with acc := 0 }).bind fun _ s => .ok s.acc s

/-- XBIT, host-issued (R160): `RESULT <- zext_8(b)`. -/
def runXbit (s : State) : Run Byte :=
  (xbit s.argBit s).bind fun b s => .ok codeOk { s with result := b.setWidth 8 }

/-- XBYTE, host-issued (R162): `RESULT <- ACC`. -/
def runXbyte (s : State) : Run Byte :=
  (xbyte s.ops.arg s).bind fun u s => .ok codeOk { s with result := u }

/-- The instruction XBIT. -/
def execXbit (s : State) : Host.Outcome State Fault Refusal := issue .xbit (fun s => finish (runXbit s)) s

/-- The instruction XBYTE. -/
def execXbyte (s : State) : Host.Outcome State Fault Refusal := issue .xbyte (fun s => finish (runXbyte s)) s

end Sys2Proof.Machine
end

