-- ==== Sys2Proof/Machine/Transaction.lean ====
section
/-!
DEFINITION. The Transaction Engine (42_transaction_controller.md): `Exec` and the host operation EXEC.
-/
namespace Sys2Proof.Machine

/-- Step 1 (R172, R173): the buffers grow iff `req > CAP`, to exactly `req`; beyond BUF_MAX allocation fails. Growth
forgets their content (R172; log 10). -/
def grow (req : Nat) (s : State) : Run Unit :=
  if s.cap < req then
    if s.params.bufMax < req then .halt (s.raiseFatal codeAllocationFailure)
    else .ok () { s.setCap req with outBuf := [], inBuf := [] }
  else .ok () s

/-- Step 2 (R174): the write bytes and the filler into OUT, the sentinel into IN. -/
def fillScratch (wbytes : List Byte) (r : Nat) (s : State) : State :=
  { s with
    outBuf := memWriteRange (memWriteRange s.outBuf 0 wbytes) wbytes.length (List.replicate r s.params.filler)
    inBuf := memWriteRange s.inBuf wbytes.length (List.replicate r s.params.sentinel) }

/-- `IN[p] <- u`. -/
def storeIn (p : Nat) (u : Byte) (s : State) : State := { s with inBuf := memWrite s.inBuf p u }

/-- Step 4 (R170, R175): `k` bytes from position `p` on, in strictly increasing order. -/
def bytesLoop : Nat → Nat → State → Run Unit
  | 0, _, s => .ok () s
  | k + 1, p, s => (xbyte (s.outAt p) s).bind fun u s => bytesLoop k (p + 1) (storeIn p u s)

/-- Steps 3 to 5 (R175): the frame of `n` bytes between chip-select assert and deassert, with its tail delays. -/
def frameRun (n : Nat) (s : State) : Run Unit :=
  (setCs s.params.csAssert s).bind fun _ s =>
  (bytesLoop n 0 s).bind fun _ s =>
  (setCs s.params.csDeassert (delay s)).bind fun _ s =>
  .ok () (delay s)

/-- `Exec(wbytes, r) -> (status, rbytes)` (R170). -/
def transaction (wbytes : List Byte) (r : Nat) (s : State) : Run (Byte × List Byte) :=
  if s.params.ceiling < wbytes.length + r then .ok (codeInvalidLength, []) s
  else
    (grow (max (wbytes.length + r) s.params.floor) s).bind fun _ s =>
    (frameRun (wbytes.length + r) (fillScratch wbytes r s)).bind fun _ s =>
    .ok (codeOk, s.inBytes wbytes.length r) s

/-- EXEC (R182): the length check before HW is read; the response to `HR[0 .. r-1]`. -/
def runExec (s : State) : Run Byte :=
  if s.params.ceiling < s.wLen + s.rLen then .ok codeInvalidLength s
  else
    (transaction (s.hwBytes 0 s.wLen) s.rLen s).bind fun res s =>
    .ok res.1 (s.writeHr 0 res.2)

/-- The instruction EXEC. -/
def execExec (s : State) : Host.Outcome State Fault Refusal := issue .exec (fun s => finish (runExec s)) s

end Sys2Proof.Machine
end

