-- ==== Sys2Proof/Machine/ChunkedReader.lean ====
section
/-!
DEFINITION. The Chunked Reader, operation READ (43_chunked_reader.md).
-/
namespace Sys2Proof.Machine

/-- How many bytes the chunk at `done` reads: `min(length - done, CHUNK_DATA_MAX)` (R191). -/
def chunkLen (p : Params) (length done : Nat) : Nat := min (length - done) p.chunkDataMax

/-- READ's loop from `done` on (R190). Each chunk reads at least one byte, so `length` chunks are enough (`fuel`); with
CHUNK_DATA_MAX = 0 the pseudocode would make no progress (log 19). -/
def readLoop (start length : Nat) : Nat → Nat → State → Run Byte
  | 0, _, s => .ok codeOk s
  | fuel + 1, done, s =>
    if done < length then
      if chunkLen s.params length done = 0 then .fault .parameters
      else
        (transaction (rdBytes s.params (start + done)) (chunkLen s.params length done) s).bind fun res s =>
        if res.1 ≠ codeOk then .ok res.1 s
        else readLoop start length fuel (done + chunkLen s.params length done) (s.writeHr done res.2)
    else .ok codeOk s

/-- `READ(start, length)` (R190). -/
def runRead (s : State) : Run Byte := readLoop s.startOff s.readLen s.readLen 0 s

/-- The instruction READ. -/
def execRead (s : State) : Host.Outcome State Fault Refusal := issue .read (fun s => finish (runRead s)) s

end Sys2Proof.Machine
end

