-- ==== Sys2Proof/Machine/Flags.lean ====
section
/-!
DEFINITION. The flags and the read-only registers made of them: BUSY, FATAL, INITED, STATUS and PINS
(R54 to R58, R67).
-/
namespace Sys2Proof.Machine

/-- BUSY (R54): 1 from acceptance to end, which is TOP = RUN(op) (R60). -/
def State.busyBit (s : State) : Bit :=
  match s.top with
  | .run _ => 1
  | .idle => 0
  | .fatal => 0

/-- FATAL (R55), which is TOP = FATAL (R60). -/
def State.fatalBit (s : State) : Bit :=
  match s.top with
  | .fatal => 1
  | .idle => 0
  | .run _ => 0

/-- INITED = 1 iff BACKEND_SEL ∈ VALID_BACKENDS (R67). -/
def State.initedBit (s : State) : Bit := if s.backendSel ∈ s.params.validBackends then 1 else 0

/-- STATUS (R67): bits 31:16 zero, 15:8 ERR, 7:4 zero, 3 INITED, 2 OVR, 1 FATAL, 0 BUSY. -/
def State.statusWord (s : State) : Word :=
  0#16 ++ s.err ++ 0#4 ++ s.initedBit ++ s.ovr ++ s.fatalBit ++ s.busyBit

/-- PINS (R67) for levels of the pins: bit 0 CS, bit 1 SCK, bit 2 MOSI, other bits zero. -/
def pinsWord (p : Pins) : Word := 0#29 ++ p.mosi ++ p.sck ++ p.cs

/-- The levels after an event (R151 to R155). -/
def drivePins (p : Pins) : Event → Pins
  | .cs l => { p with cs := l }
  | .sck l => { p with sck := l }
  | .mosi l => { p with mosi := l }
  | .miso _ => p
  | .delay _ => p

/-- The levels the pins have in turn, from `p` on, through some events in the order of time. -/
def pinsThrough (p : Pins) : List Event → List Pins
  | [] => [p]
  | e :: evs => p :: pinsThrough (drivePins p e) evs

/-- The busy bit of a status byte: `(sr & WIP_MASK) != 0` (R204). -/
def wipSet (p : Params) (sr : Byte) : Bool := sr &&& p.wipMask != 0

/-- Whether that many polls of a page reach POLL_LIMIT; never when it is infinite (R200, R207). -/
def pollsOut (p : Params) (npoll : Nat) : Bool :=
  match p.pollLimit with
  | none => false
  | some l => decide (l ≤ npoll)

end Sys2Proof.Machine
end

