-- ==== Sys2Proof/Machine/PageProgrammer.lean ====
section
/-!
DEFINITION. The Page Programmer with busy-poll, operation PROG (44_page_programmer.md).
-/
namespace Sys2Proof.Machine

/-- The default ProgramPage (R203): an optional WREN frame, then the PP frame; the result is the transactions' status. -/
def programDefault (off : Nat) (bytes : List Byte) (s : State) : Run Word :=
  if s.params.progWren then
    (transaction (wrenBytes s.params) 0 s).bind fun res s =>
    if res.1 ≠ codeOk then .ok (res.1.setWidth 32) s
    else
      (transaction (ppBytes s.params off bytes) 0 s).bind fun res s =>
      .ok (res.1.setWidth 32) s
  else
    (transaction (ppBytes s.params off bytes) 0 s).bind fun res s =>
    .ok (res.1.setWidth 32) s

/-- The default ReadStatus (R204): `rb[0]` of the RDSR transaction. -/
def statusDefault (s : State) : Run Byte :=
  (transaction (rdsrBytes s.params) s.params.rdsrReadLen s).bind fun res s =>
  match res.2 with
  | sr :: _ => .ok sr s
  | [] => .fault .parameters

/-- The transactions of a replaced primitive, in order; what it makes of their answers is in its list and its result
(log 7). -/
def runSubst : List (List Byte × Nat) → State → Run Unit
  | [], s => .ok () s
  | (wbytes, r) :: rest, s => (transaction wbytes r s).bind fun _ s => runSubst rest s

/-- What this call of ProgramPage does (log 7). -/
def State.pageCall (s : State) : PrimCall := s.env.pageCalls.headD .default

/-- What this call of ReadStatus does (log 7). -/
def State.statusCall (s : State) : PrimCall := s.env.statusCalls.headD .default

/-- One call of ProgramPage used up. -/
def State.dropPageCall (s : State) : State := { s with env.pageCalls := s.env.pageCalls.tail }

/-- One call of ReadStatus used up. -/
def State.dropStatusCall (s : State) : State := { s with env.statusCalls := s.env.statusCalls.tail }

/-- ProgramPage (R203, U12). -/
def programPage (off : Nat) (bytes : List Byte) (s : State) : Run Word :=
  match s.pageCall with
  | .default => programDefault off bytes s.dropPageCall
  | .custom txs r => (runSubst txs s.dropPageCall).bind fun _ s => .ok r s

/-- ReadStatus (R204). -/
def readStatus (s : State) : Run Byte :=
  match s.statusCall with
  | .default => statusDefault s.dropStatusCall
  | .custom txs r => (runSubst txs s.dropStatusCall).bind fun _ s => .ok (r.setWidth 8) s

/-- PROG waiting in its poll loop: the state the sequencer has at PP_POLL (R210; log 8). -/
def State.waitPoll (s : State) (total plen npoll : Nat) : State :=
  { s.atRest with
    pp := { PpSeq.rest with pps := .poll, total := total, plen := plen, npoll := npoll }, span := s.span }

/-- Whether a busy poll ends the step: no scripted level and no scripted call of ReadStatus is left and no POLL_LIMIT
bounds the loop, so that nothing in State says when the device will be ready (R209; log 8). -/
def mayWait (s : State) : Bool :=
  s.params.pollLimit.isNone && s.env.dataIn.isEmpty && s.env.statusCalls.isEmpty

/-- The busy-poll of one page after `npoll` polls (R205, R207). The loop has no bound of its own (R209): after a busy
poll at which `mayWait` holds the step ends in the waiting state, and the next step polls on (log 8). -/
def pollLoop (total plen : Nat) : Nat → Nat → State → Run Byte
  | 0, npoll, s => .halt (s.waitPoll total plen npoll)
  | fuel + 1, npoll, s =>
    (readStatus s).bind fun sr s =>
    if wipSet s.params sr = false then .ok codeOk (s.setSr sr)
    else if pollsOut s.params (npoll + 1) then .ok codeTimeout (s.setSr sr)
    else if mayWait s then .halt ((s.setSr sr).waitPoll total plen (npoll + 1))
    else pollLoop total plen fuel (npoll + 1) (s.setSr sr)

/-- How many polls of one page a step can make: POLL_LIMIT bounds them, or the two scripts, of which each poll takes at
least one entry (log 8). -/
def pollFuel (s : State) : Nat :=
  match s.params.pollLimit with
  | some l => l + 1
  | none => s.env.dataIn.length + s.env.statusCalls.length + 1

/-- PROG's page loop (R200, R202). Each page moves OFF by at least one, so `fuel = TOTAL` pages are enough; with
PAGE = 0 the pseudocode would make no progress (log 19). -/
def pageLoop (total : Nat) : Nat → State → Run Byte
  | 0, s => .ok codeOk s
  | fuel + 1, s =>
    if s.off < total then
      if min s.params.page (total - s.off) = 0 then .fault .parameters
      else
        let plen := min s.params.page (total - s.off)
        (programPage s.off (s.pageData plen) s).bind fun r s =>
        if r ≠ 0 then .ok codeProgramFailure { s with pres := r }
        else
          (pollLoop total plen (pollFuel s) 0 s).bind fun status s =>
          if status ≠ codeOk then .ok status s
          else pageLoop total fuel (s.setOff (s.off + s.params.page))
    else .ok codeOk s

/-- PROG's entry (R51, R53, R200; row `(entry)` of R210): no page has failed, and OFF is at the first page. -/
def progEntry (s : State) : State := { s with pres := 0, off := 0, span.offs := [0] }

/-- `PROG(units, data)` (R200). -/
def runProg (s : State) : Run Byte := pageLoop s.progTotal s.progTotal (progEntry s)

/-- The instruction PROG; `len(data) >= TOTAL` is its precondition (R200, U8; log 18). -/
def execProg (s : State) : Host.Outcome State Fault Refusal :=
  issue .prog
    (fun s => if hostSpaceSize < s.progTotal then .refused .dataShorterThanTotal else finish (runProg s)) s

end Sys2Proof.Machine
end

