-- ==== Sys2Proof/Machine/Pseudo.lean ====
section
/-!
DEFINITION. The pseudo-operations RDSR, WREN, PP and RD (30_encoding.md R137, R138): each a fixed EXEC, that is the
writes of the operand registers and of HW, and then the operation EXEC.
-/
namespace Sys2Proof.Machine

/-- The register writes an EXEC line stands for (R137): WCOUNT, RCOUNT and HW. Writes of operand registers are ignored
while BUSY = 1 or FATAL = 1 (R67), and the host places HW while the block is idle (R90). DESIGN CHOICE (log 22): HW has the indices 0 to 2^32 - 1 (R90),
and the spec does not say where the bytes of a longer line go; they are stored at the indices from 2^32 on, where no
operation and no host action reads. -/
def stageExec (wbytes : List Byte) (r : Nat) (s : State) : State :=
  if s.top = .idle then
    { s with
      hw := memWriteRange s.hw 0 wbytes
      ops := { s.ops with wcount := countReg wbytes.length, rcount := countReg r } }
  else s

/-- `RDSR -> sr`: `EXEC [RDSR_OPCODE], RDSR_READ_LEN`; sr is `HR[0]` (R138). -/
def execRdsr (s : State) : Host.Outcome State Fault Refusal :=
  execExec (stageExec (rdsrBytes s.params) s.params.rdsrReadLen s)

/-- `WREN`: `EXEC [WREN_OPCODE], 0` (R138). -/
def execWren (s : State) : Host.Outcome State Fault Refusal :=
  execExec (stageExec (wrenBytes s.params) 0 s)

/-- `PP a, data`: `EXEC [PP_OPCODE, a[23:16], a[15:8], a[7:0]] ++ data, 0` (R138), with as many offset bytes as the
build's ADDR_BYTES (R25, R125). -/
def execPp (addr : Nat) (data : List Byte) (s : State) : Host.Outcome State Fault Refusal :=
  execExec (stageExec (ppBytes s.params addr data) 0 s)

/-- `RD a, n -> bytes`: `EXEC [READ_OPCODE, a[23:16], a[15:8], a[7:0]], n` (R138), with as many offset bytes as
the build's ADDR_BYTES (R25, R125). -/
def execRd (addr : Nat) (n : Nat) (s : State) : Host.Outcome State Fault Refusal :=
  execExec (stageExec (rdBytes s.params addr) n s)

end Sys2Proof.Machine
end

