-- ==== Sys2Proof/Machine/Dispatch.lean ====
section
/-!
DEFINITION. The meaning of each instruction, one arm per constructor.
-/
namespace Sys2Proof.Machine

def exec (i : Instr) (s : State) : Host.Outcome State Fault Refusal :=
  match i with
  | .init => Sys2Proof.Machine.execInit s
  | .xbit => Sys2Proof.Machine.execXbit s
  | .xbyte => Sys2Proof.Machine.execXbyte s
  | .exec => Sys2Proof.Machine.execExec s
  | .read => Sys2Proof.Machine.execRead s
  | .prog => Sys2Proof.Machine.execProg s
  | .rdsr => Sys2Proof.Machine.execRdsr s
  | .wren => Sys2Proof.Machine.execWren s
  | .pp addr data => Sys2Proof.Machine.execPp addr data s
  | .rd addr n => Sys2Proof.Machine.execRd addr n s

end Sys2Proof.Machine
end

