-- ==== Sys2Proof/Machine/Sequencer.lean ====
section
/-!
DEFINITION. The sequencer (10_state.md R60 to R64; 44_page_programmer.md R210): a running operation, one phase at a
time. Each phase emits at most one event, so that a host action or a reset may land between any two (R10, R282).
-/
namespace Sys2Proof.Machine

/-! ## Bits and bytes (R62) -/

/-- BITPH advances. -/
def State.atBitph (s : State) (ph : BitPhase) : State := { s with tx.bitph := ph }

/-- One phase of a bit cell sending `o` (R62, R160); the value says whether the cell has ended. -/
def bitTick (o : Bit) (s : State) : Run Bool :=
  match s.tx.bitph with
  | .drive => (setMosi o s).bind fun _ s => .ok false (s.atBitph .wait1)
  | .wait1 => .ok false ((delay s).atBitph .rise)
  | .rise => (setSck 1 s).bind fun _ s => .ok false (s.atBitph .sample)
  | .sample => (getMiso s).bind fun b s => .ok false ({ s with acc := shiftIn s.acc b }.atBitph .wait2)
  | .wait2 => .ok false ((delay s).atBitph .fall)
  | .fall => (setSck 0 s).bind fun _ s => .ok true (s.atBitph .drive)

/-- One phase of a byte sending `v`: BITPOS runs 7 down to 0 (R62, R162); the value says whether the byte has ended. -/
def byteTick (v : Byte) (s : State) : Run Bool :=
  (bitTick (bitAt v s.tx.bitpos.toNat) s).bind fun ended s =>
  if ended then .ok (s.tx.bitpos == 0) { s with tx.bitpos := s.tx.bitpos - 1 }
  else .ok false s

/-! ## Transactions (R61, R63) -/

/-- The transaction of a replaced primitive that runs (log 7). -/
def State.substTx (s : State) : List Byte × Nat := s.pp.todo.headD ([], 0)

/-- The write bytes of the transaction that runs (R125, R170, R182). -/
def txWriteBytes (s : State) : List Byte :=
  match s.tx.job with
  | .none => []
  | .exec => s.hwBytes 0 s.wLen
  | .chunk => rdBytes s.params (s.startOff + s.rd.done)
  | .wren => wrenBytes s.params
  | .pp => ppBytes s.params s.off (s.pageData s.pp.plen)
  | .rdsr => rdsrBytes s.params
  | .subst => s.substTx.1

/-- How many bytes it writes, known before any is read (R182). -/
def txWriteLen (s : State) : Nat :=
  match s.tx.job with
  | .none => 0
  | .exec => s.wLen
  | .chunk => 1 + s.params.addrBytes
  | .wren => 1
  | .pp => 1 + s.params.addrBytes + s.pp.plen
  | .rdsr => 1
  | .subst => s.substTx.1.length

/-- How many bytes it reads. -/
def txReadLen (s : State) : Nat :=
  match s.tx.job with
  | .none => 0
  | .exec => s.rLen
  | .chunk => s.rd.n
  | .wren => 0
  | .pp => 0
  | .rdsr => s.params.rdsrReadLen
  | .subst => s.substTx.2

/-- A transaction of `job` begins with its length check. -/
def State.startTx (s : State) (job : Job) : State := { s with tx := { TxSeq.rest with job := job } }

/-- TXS advances. -/
def State.atTxs (s : State) (ph : TxPhase) : State := { s with tx.txs := ph }

/-- The Page Programmer goes on in state `pps`, no transaction running. -/
def State.atPps (s : State) (pps : PpState) : State := { s with tx := TxSeq.rest, pp.pps := pps }

/-- ProgramPage has returned `r` (R210, row PP_PROGRAM). -/
def programReturned (r : Word) (s : State) : State :=
  if r = 0 then { s with pp.npoll := 0 }.atPps .poll else { s with pres := r }.atPps .fail

/-- ReadStatus has returned `sr` (R210, row PP_POLL). -/
def statusReturned (sr : Byte) (s : State) : State :=
  { s.setSr sr with pp.npoll := s.pp.npoll + 1 }.atPps .test

/-- A replaced ProgramPage or ReadStatus goes on: its next transaction, or its return (log 7). -/
def substNext (s : State) : State :=
  if s.pp.todo.isEmpty then
    if s.pp.pps = .poll then statusReturned (s.pp.result.setWidth 8) { s with pp.result := 0 }
    else programReturned s.pp.result { s with pp.result := 0 }
  else s.startTx .subst

/-- A replaced primitive's transaction has ended, with whatever status. -/
def substEnded (s : State) : State := substNext { s with pp.todo := s.pp.todo.tail }

/-- `Exec` returns InvalidLength to its caller (R170, R171, R252). -/
def txRefused (s : State) : Run Unit :=
  match s.tx.job with
  | .none => .ok () { s with tx := TxSeq.rest }
  | .exec => .halt (s.endOp codeInvalidLength)
  | .chunk => .halt (s.endOp codeInvalidLength)
  | .wren => .ok () (programReturned (codeInvalidLength.setWidth 32) s)
  | .pp => .ok () (programReturned (codeInvalidLength.setWidth 32) s)
  | .rdsr => .fault .parameters
  | .subst => .ok () (substEnded s)

/-- Step 6, and what the caller does with the response (R176, R182, R190, R204). -/
def txCopy (s : State) : Run Unit :=
  match s.tx.job with
  | .none => .ok () s
  | .exec => .ok () (s.writeHr 0 (s.inBytes s.tx.wcnt s.tx.rcnt))
  | .chunk => .ok () (s.writeHr s.rd.done (s.inBytes s.tx.wcnt s.tx.rcnt))
  | .wren => .ok () s
  | .pp => .ok () s
  | .rdsr => if s.tx.rcnt = 0 then .fault .parameters else .ok () (s.setSr (s.inAt s.tx.wcnt))
  | .subst => .ok () s

/-- The transaction has ended and its caller goes on. -/
def txDone (s : State) : Run Unit :=
  match s.tx.job with
  | .none => .ok () { s with tx := TxSeq.rest }
  | .exec => .halt (s.endOp codeOk)
  | .chunk => .ok () { s with tx := TxSeq.rest, rd.done := s.rd.done + s.rd.n }
  | .wren => .ok () (s.startTx .pp)
  | .pp => .ok () (programReturned 0 s)
  | .rdsr => .ok () (statusReturned s.sr s)
  | .subst => .ok () (substEnded s)

/-- The byte at POS is loaded: `OUTB <- OUT[POS]`, ACC cleared, BITPOS at 7 (R63, R162). -/
def loadByte (s : State) : State :=
  { s with acc := 0, tx.outb := s.outAt s.tx.pos, tx.bitpos := 7, tx.bitph := .drive }

/-- The next byte, or the tail when POS has reached `WCNT + RCNT` (R61). -/
def nextByte (s : State) : State :=
  if s.tx.pos < s.tx.wcnt + s.tx.rcnt then (loadByte s).atTxs .bytes else s.atTxs .tailWait1

/-- Whether every index the phase touches is below CAP (R49). -/
def inScratch (s : State) : Bool :=
  decide (s.tx.wcnt + s.tx.rcnt ≤ s.cap) && decide (s.tx.pos ≤ s.tx.wcnt + s.tx.rcnt)

/-- One phase of a transaction (R61, R170). -/
def txTick (s : State) : Run Unit :=
  match s.tx.txs with
  | .check =>
    if s.params.ceiling < txWriteLen s + txReadLen s then txRefused s
    else .ok () ({ s with tx.wcnt := txWriteLen s, tx.rcnt := txReadLen s }.atTxs .alloc)
  | .alloc => (grow (max (s.tx.wcnt + s.tx.rcnt) s.params.floor) s).bind fun _ s => .ok () (s.atTxs .fill)
  | .fill =>
    if inScratch s && decide (txWriteLen s + s.tx.rcnt ≤ s.cap) then
      .ok () ((fillScratch (txWriteBytes s) s.tx.rcnt s).atTxs .assert)
    else .fault .scratchIndex
  | .assert =>
    if inScratch s then
      (setCs s.params.csAssert s).bind fun _ s => .ok () (nextByte { s with tx.pos := 0 })
    else .fault .scratchIndex
  | .bytes =>
    if inScratch s && decide (s.tx.pos < s.cap) then
      (byteTick s.tx.outb s).bind fun ended s =>
      if ended then .ok () (nextByte { storeIn s.tx.pos s.acc s with tx.pos := s.tx.pos + 1 })
      else .ok () s
    else .fault .scratchIndex
  | .tailWait1 => .ok () ((delay s).atTxs .deassert)
  | .deassert => (setCs s.params.csDeassert s).bind fun _ s => .ok () (s.atTxs .tailWait2)
  | .tailWait2 => .ok () ((delay s).atTxs .copy)
  | .copy => if inScratch s then (txCopy s).bind fun _ s => .ok () (s.atTxs .done) else .fault .scratchIndex
  | .done => txDone s

/-! ## Operations (R60) -/

/-- INIT, line by line (R230). -/
def initTick (s : State) : Run Unit :=
  match s.initph with
  | .latch =>
    if s.ops.cfgBackend ∉ s.params.validBackends then .halt ((initLatch s).endOp codeInvalidBackend)
    else .ok () { initLatch s with initph := .chipSelect }
  | .chipSelect => (setCs s.params.csDeassert s).bind fun _ s => .ok () { s with initph := .clock }
  | .clock => (setSck 0 s).bind fun _ s => .halt (s.endOp codeOk)

/-- XBIT (R160): the sampled bit is the one ACC has taken in (R46). -/
def xbitTick (s : State) : Run Unit :=
  (bitTick s.argBit s).bind fun ended s =>
  if ended then .halt ({ s with result := (bitAt s.acc 0).setWidth 8 }.endOp codeOk) else .ok () s

/-- XBYTE (R162). -/
def xbyteTick (s : State) : Run Unit :=
  (byteTick s.ops.arg s).bind fun ended s =>
  if ended then .halt ({ s with result := s.acc }.endOp codeOk) else .ok () s

/-- READ between two chunks (R190). -/
def readTick (s : State) : Run Unit :=
  if s.rd.done < s.readLen then
    if chunkLen s.params s.readLen s.rd.done = 0 then .fault .parameters
    else .ok () ({ s with rd.n := chunkLen s.params s.readLen s.rd.done }.startTx .chunk)
  else .halt (s.endOp codeOk)

/-- PROG between two transactions: the transition table of R210. -/
def ppTick (s : State) : Run Unit :=
  match s.pp.pps with
  | .next =>
    if s.off < s.pp.total then
      if min s.params.page (s.pp.total - s.off) = 0 then .fault .parameters
      else .ok () ({ s with pp.plen := min s.params.page (s.pp.total - s.off) }.atPps .program)
    else .ok () (s.atPps .ok)
  | .program =>
    match s.pageCall with
    | .default => .ok () (s.dropPageCall.startTx (if s.params.progWren then .wren else .pp))
    | .custom txs r => .ok () (substNext { s.dropPageCall with pp.todo := txs, pp.result := r })
  | .poll =>
    match s.statusCall with
    | .default => .ok () (s.dropStatusCall.startTx .rdsr)
    | .custom txs r => .ok () (substNext { s.dropStatusCall with pp.todo := txs, pp.result := r })
  | .test =>
    if wipSet s.params s.sr = false then .ok () (s.atPps .advance)
    else if pollsOut s.params s.pp.npoll then .ok () (s.atPps .timeout)
    else .ok () (s.atPps .poll)
  | .advance => .ok () ((s.setOff (s.off + s.params.page)).atPps .next)
  | .ok => .halt (s.endOp codeOk)
  | .fail => .halt (s.endOp codeProgramFailure)
  | .timeout => .halt (s.endOp codeTimeout)

/-- One phase of the operation `op`: of its transaction while one runs, else of its own. -/
def opTick (op : Op) (s : State) : Run Unit :=
  match op with
  | .init => initTick s
  | .xbit => xbitTick s
  | .xbyte => xbyteTick s
  | .exec => txTick s
  | .read => if s.tx.job = .none then readTick s else txTick s
  | .prog => if s.tx.job = .none then ppTick s else txTick s

/-- The block advances by one phase; idle (R60) and FATAL (R251) it does nothing. -/
def tick (s : State) : Host.Outcome State Fault Refusal :=
  match s.top with
  | .idle => .next s
  | .fatal => .next s
  | .run op =>
    match opTick op s with
    | .ok _ s => .next s
    | .halt s => .next s
    | .fault f => .fault f

/-- The state `n` phases on, or where the operation has ended or stopped by then. -/
def State.ahead : Nat → State → State
  | 0, s => s
  | n + 1, s =>
    match tick s with
    | .next t => t.ahead n
    | .fault _ => s
    | .refused _ => s

/-- Acceptance of an operation (R60, R131), up to its first phase; `(entry)` of R210 for PROG. The caller has found
the block idle. -/
def startOp (op : Op) (s : State) : Host.Outcome State Fault Refusal :=
  let s := s.atRest.accept op
  match op with
  | .init => .next s
  | .xbit => .next s
  | .xbyte => .next { s with acc := 0 }
  | .exec => .next (s.startTx .exec)
  | .read => .next s
  | .prog =>
    if hostSpaceSize < s.progTotal then .refused .dataShorterThanTotal
    else .next { progEntry s with pp.total := s.progTotal }

end Sys2Proof.Machine
end

