-- ==== Sys2Proof/Machine/HostPort.lean ====
section
/-!
DEFINITION. What the host can do to the block besides calling an operation (10_state.md R66, R67; 30_encoding.md R131;
20_memory.md R93, R94): the register window, HW and HR, and reset. The caller has taken the action off the list.
-/
namespace Sys2Proof.Machine

/-- The host's list after its next action. -/
def State.withHost (s : State) (rest : List HostAct) : State := { s with env.host := rest }

/-- The value a host read returns. -/
def State.hostGets (s : State) (v : Word) : State := { s with env.hostRead := v }

/-- Whether BUSY = 1. -/
def State.busy (s : State) : Bool := s.busyBit == 1

/-- A CMD write that is discarded whole: OVR is set and nothing else (R56, R262). -/
def State.overrun (s : State) : State := { s with ovr := 1 }

/-- A command word that is none of the six, written while idle: ERR and nothing else (R134, R247). While BUSY or FATAL
the write is discarded before it is decoded (R253, R262). -/
def illegalCommand (s : State) : State :=
  if s.top = .idle then { s with err := codeIllegalCommand } else s.overrun

/-- A write of CMD in the register form (R131): discarded while BUSY or FATAL, else decoded and accepted. -/
def writeCmd (v : Word) (s : State) : Host.Outcome State Fault Refusal :=
  if s.top = .idle then
    match decodeOp v with
    | .ok op => startOp op s
    | .error _ => .next (illegalCommand s)
  else .next s.overrun

/-- A write of an operand register; the unused upper bits are dropped (R66). Read-only registers and reserved offsets
ignore it (R67). -/
def writeOperand (off : Nat) (v : Word) (r : OperandRegs) : OperandRegs :=
  match off with
  | 0x08 => { r with cfgBackend := v.setWidth 8 }
  | 0x0C => { r with cfgHalfPeriod := v }
  | 0x10 => { r with wcount := v }
  | 0x14 => { r with rcount := v }
  | 0x18 => { r with start := v }
  | 0x1C => { r with length := v }
  | 0x20 => { r with sizeUnits := v.setWidth 16 }
  | 0x24 => { r with arg := v.setWidth 8 }
  | _ => r

/-- A register write (R67): aligned words only (U10; log 17); an operand write while BUSY or FATAL is ignored. -/
def hostWrite (off v : Word) (s : State) : Host.Outcome State Fault Refusal :=
  if off.toNat % 4 ≠ 0 then .refused .unalignedRegister
  else if off.toNat = 0x00 then writeCmd v s
  else if s.top = .idle then .next { s with ops := writeOperand off.toNat v s.ops }
  else .next s

/-- The register map, as read (R67): CMD reads 0, reserved offsets read 0; CAP and OFF show their low 32 bits (log 28). -/
def regValue (off : Nat) (s : State) : Word :=
  match off with
  | 0x00 => 0
  | 0x04 => s.statusWord
  | 0x08 => s.ops.cfgBackend.setWidth 32
  | 0x0C => s.ops.cfgHalfPeriod
  | 0x10 => s.ops.wcount
  | 0x14 => s.ops.rcount
  | 0x18 => s.ops.start
  | 0x1C => s.ops.length
  | 0x20 => s.ops.sizeUnits.setWidth 32
  | 0x24 => s.ops.arg.setWidth 32
  | 0x28 => s.result.setWidth 32
  | 0x2C => s.pres
  | 0x30 => BitVec.ofNat 32 s.cap
  | 0x34 => s.sr.setWidth 32
  | 0x38 => BitVec.ofNat 32 s.off
  | 0x3C => pinsWord s.pins
  | _ => 0

/-- The registers whose reads while BUSY = 1 are not specified: RESULT, CAP, SR, OFFSET and PINS (U15). -/
def unsettled (off : Nat) : Bool :=
  match off with
  | 0x28 => true
  | 0x30 => true
  | 0x34 => true
  | 0x38 => true
  | 0x3C => true
  | _ => false

/-- What such a register has shown since the running operation was accepted; RESULT is written by an operation's end
only (R50), so that it has shown its present value. -/
def shownSoFar (off : Nat) (s : State) : List Word :=
  match off with
  | 0x28 => [s.result.setWidth 32]
  | 0x30 => s.span.caps.map (BitVec.ofNat 32)
  | 0x34 => s.span.srs.map (·.setWidth 32)
  | 0x38 => s.span.offs.map (BitVec.ofNat 32)
  | 0x3C => (pinsThrough s.span.pins (s.trace.take (s.trace.length - s.span.mark)).reverse).map pinsWord
  | _ => []

/-- A register at a moment of the running operation, past, present or to come: a value it has shown since acceptance,
or the one it has a number of phases on when the host does nothing (U15; log 14). -/
def regInOp (off moment : Nat) (s : State) : Word :=
  match (shownSoFar off s)[moment]? with
  | some v => v
  | none => regValue off ((s.withHost []).ahead (moment - (shownSoFar off s).length))

/-- A register read (R67): no side effect on the block. While BUSY = 1 a register of U15 returns a value it takes
during the operation, at a moment that is a free value; every other register, PROG_RESULT (R51) among them, returns
what it holds (log 14). -/
def hostReadReg (off : Word) (s : State) : Host.Outcome State Fault Refusal :=
  if off.toNat % 4 ≠ 0 then .refused .unalignedRegister
  else if s.busy && unsettled off.toNat then
    .next ({ s with env.fresh := s.env.fresh + 1 }.hostGets (regInOp off.toNat (Config.busyMoment s.env.fresh) s))
  else .next (s.hostGets (regValue off.toNat s))

/-- The host reads STATUS until BUSY is 0 (R137, R255): each read that finds it 1 lets the block advance by one phase.
The action stays first on the list until then. -/
def hostPoll (rest : List HostAct) (s : State) : Host.Outcome State Fault Refusal :=
  if s.busy then tick (s.hostGets s.statusWord) else .next ((s.withHost rest).hostGets s.statusWord)

/-- The host places a byte in HW (R93): not while BUSY = 1 (U9; log 15), and without effect in FATAL (R251; log 16). -/
def hostPutHw (addr : Word) (b : Byte) (s : State) : Host.Outcome State Fault Refusal :=
  match s.top with
  | .idle => .next { s with hw := memWrite s.hw addr.toNat b }
  | .fatal => .next s
  | .run _ => .refused .hostDataWhileBusy

/-- The host takes a byte from HR (R94): not while BUSY = 1 (U9; log 15). -/
def hostGetHr (addr : Word) (s : State) : Host.Outcome State Fault Refusal :=
  match s.top with
  | .idle => .next (s.hostGets ((s.hrAt addr.toNat).setWidth 32))
  | .fatal => .next (s.hostGets ((s.hrAt addr.toNat).setWidth 32))
  | .run _ => .refused .hostDataWhileBusy

/-- The host action that issues the instruction of a table word: a frame is issued as its line `EXEC`, a command word
is called (log 3). -/
def fetchAct (p : Params) (nbits w : Nat) : HostAct :=
  match tableCode p nbits w with
  | .cmd w => .call w
  | .frame wbytes r => .frame wbytes r

end Sys2Proof.Machine
end

