-- ==== Sys2Proof/Machine/Step.lean ====
section
/-!
DEFINITION. One step: the host's next action, or, when the host waits or has nothing more to do, one phase of the
running operation (R11, R12; log 2). The block fetches no instructions (R59): an instruction is what the host issues.
-/
namespace Sys2Proof.Machine

/-- One step of the machine. A line `EXEC wbytes, r` (R137) that is no frame of R125 runs as the EXEC it is: to the
block its bytes are any bytes (R182). -/
def step (s : State) : Host.Outcome State Fault Refusal :=
  match s.env.host with
  | [] => tick s
  | .wait :: rest => tick (s.withHost rest)
  | .poll :: rest => hostPoll rest s
  | .call w :: rest =>
    match decodeCmd w with
    | .ok i => exec i (s.withHost rest)
    | .error _ => .next (illegalCommand (s.withHost rest))
  | .frame wbytes r :: rest =>
    match decodeFrame s.params wbytes r with
    | .ok i => exec i (s.withHost rest)
    | .error _ => exec .exec (stageExec wbytes r (s.withHost rest))
  | .write off v :: rest => hostWrite off v (s.withHost rest)
  | .read off :: rest => hostReadReg off (s.withHost rest)
  | .putHw addr b :: rest => hostPutHw addr b (s.withHost rest)
  | .getHr addr :: rest => hostGetHr addr (s.withHost rest)
  | .reset :: rest => .next (s.withHost rest).hardReset

/-- The host's next action is the instruction of a table word, as the build has it (log 3). -/
def State.withFetchWord (s : State) (nbits w : Nat) : State :=
  s.withHost (fetchAct s.params nbits w :: s.env.host)

end Sys2Proof.Machine
end

