-- ==== Sys2Proof/Safety.lean ====
section
/-!
DEFINITION. What claims are stated in: when the pin driver is usable, what a run shows at the pins (30_encoding.md R120
to R123), when data-in was answered by the outside world, and the machine's invariants (10_state.md section 9). A run is
safe when it reaches neither FATAL (R251) nor a stop.
-/
namespace Sys2Proof.Machine

/-- A usable backend is selected (R41, R150) and pin-driver calls cannot fail (R156). -/
abbrev State.Ready (s : State) : Prop :=
  s.backendSel ∈ s.params.validBackends ∧ s.params.backendFallible = false

/-- A safe answer of a step: a next state that is not FATAL (R251). -/
def safeAnswer (o : Host.Outcome State Fault Refusal) : Bool :=
  match o with
  | .next s => s.fatalBit == 0
  | .fault _ => false
  | .refused _ => false

/-! ## What is seen at the pins -/

/-- The six events of a bit cell, in the order of time (R120). -/
def cellEvents (o b : Bit) (h : Word) : List Event :=
  [.mosi o, .delay h, .sck 1, .miso b, .delay h, .sck 0]

/-- The cells of bit positions `k-1` down to 0 of a byte (R121). -/
def cellsEvents (v u : Byte) (h : Word) : Nat → List Event
  | 0 => []
  | k + 1 => cellEvents (bitAt v k) (bitAt u k) h ++ cellsEvents v u h k

/-- The 48 events of a byte: `v` out, `u` in (R121). -/
def byteEvents (v u : Byte) (h : Word) : List Event := cellsEvents v u h 8

/-- The events of a sequence of bytes, nothing between them (R121). -/
def bytesEvents (h : Word) : List Byte → List Byte → List Event
  | v :: vs, u :: us => byteEvents v u h ++ bytesEvents h vs us
  | _, _ => []

/-- The events of a frame: `outs` on data-out, `ins` on data-in (R122). -/
def frameEvents (p : Params) (h : Word) (outs ins : List Byte) : List Event :=
  .cs p.csAssert :: bytesEvents h outs ins ++ [.delay h, .cs p.csDeassert, .delay h]

/-- The bytes on data-out in a frame: the write field, then FILLER in the read field (R123). -/
def frameOut (p : Params) (wbytes : List Byte) (r : Nat) : List Byte := wbytes ++ List.replicate r p.filler

/-- Every sample among the events `evs`, which follow the trace `sofar` (newest first), is what the outside world
presented at that moment: the script's next level, or the oracle's answer to the trace so far (R154; log 4). -/
def answered (world : Nat) : List Bit → List Event → List Event → Bool
  | _, _, [] => true
  | script, sofar, .miso b :: evs =>
    b == script.headD (Config.oracle world sofar) && answered world script.tail (.miso b :: sofar) evs
  | script, sofar, .cs l :: evs => answered world script (.cs l :: sofar) evs
  | script, sofar, .sck l :: evs => answered world script (.sck l :: sofar) evs
  | script, sofar, .mosi l :: evs => answered world script (.mosi l :: sofar) evs
  | script, sofar, .delay d :: evs => answered world script (.delay d :: sofar) evs

/-- The eight levels of a byte, bit 7 first (R98). -/
def byteLevels (v : Byte) : List Bit :=
  [bitAt v 7, bitAt v 6, bitAt v 5, bitAt v 4, bitAt v 3, bitAt v 2, bitAt v 1, bitAt v 0]

/-! ## Operations as sequences of frames -/

/-- The EXEC a pseudo-operation stands for: its write bytes and read count (R138's table). -/
def expansion (p : Params) : Instr → Option (List Byte × Nat)
  | .init => none
  | .xbit => none
  | .xbyte => none
  | .exec => none
  | .read => none
  | .prog => none
  | .rdsr => some ([p.rdsrOpcode], p.rdsrReadLen)
  | .wren => some ([p.wrenOpcode], 0)
  | .pp addr data => some (p.ppOpcode :: flashOffset p addr ++ data, 0)
  | .rd addr n => some (p.readOpcode :: flashOffset p addr, n)

/-- The number of READ's transactions: `ceil(length / CHUNK_DATA_MAX)` (R191). -/
def chunkCount (p : Params) (length : Nat) : Nat := (length + p.chunkDataMax - 1) / p.chunkDataMax

/-- The frame of READ's chunk `j`, with `ins` on data-in (R190, R191). -/
def chunkEvents (p : Params) (h : Word) (start length j : Nat) (ins : List Byte) : List Event :=
  frameEvents p h
    (frameOut p (rdBytes p (start + j * p.chunkDataMax)) (chunkLen p length (j * p.chunkDataMax))) ins

/-- The number of PROG's pages: `ceil(TOTAL / 256)` (R202). -/
def pageCount (p : Params) (total : Nat) : Nat := (total + p.page - 1) / p.page

/-- The frames of the default ProgramPage and of one poll, for the page at `off`, when data-in is 0 throughout
(R203, R204). -/
def quietPageEvents (p : Params) (h : Word) (off : Nat) (data : List Byte) : List Event :=
  (if p.progWren then frameEvents p h (wrenBytes p) [0] else [])
    ++ frameEvents p h (ppBytes p off data) (List.replicate (ppBytes p off data).length 0)
    ++ frameEvents p h (frameOut p (rdsrBytes p) p.rdsrReadLen) (List.replicate (1 + p.rdsrReadLen) 0)

/-- The same for PROG's page `j`, its data in HW (R200, R202). -/
def quietPage (s : State) (j : Nat) : List Event :=
  quietPageEvents s.params s.halfPeriod (j * s.params.page)
    (s.hwBytes (j * s.params.page) (min s.params.page (s.progTotal - j * s.params.page)))

/-- How many bytes are transferred for a page of `plen` bytes up to its first poll. -/
def bytesBeforePoll (p : Params) (plen : Nat) : Nat := (if p.progWren then 1 else 0) + 1 + p.addrBytes + plen

/-- How many bytes a poll transfers (R204). -/
def bytesOfPoll (p : Params) : Nat := 1 + p.rdsrReadLen

/-- The phase that follows a phase of a transaction when it does not repeat (R61). -/
def TxPhase.after : TxPhase → TxPhase
  | .check => .alloc
  | .alloc => .fill
  | .fill => .assert
  | .assert => .bytes
  | .bytes => .tailWait1
  | .tailWait1 => .deassert
  | .deassert => .tailWait2
  | .tailWait2 => .copy
  | .copy => .done
  | .done => .done

/-- The parameters keep the constraints of 92_eei_decisions.md, and the scratch memories hold a page-program frame, a
status frame and a full chunk. -/
abbrev State.Roomy (s : State) : Prop :=
  s.params.wf = true ∧ 1 + s.params.addrBytes + s.params.page ≤ s.params.bufMax
    ∧ 1 + s.params.rdsrReadLen ≤ s.params.bufMax ∧ s.params.maxChunk ≤ s.params.bufMax

/-! ## Invariants -/

/-- The byte spaces are in canonical form, and nothing of OUT and IN lies at or above CAP (R49). -/
abbrev SpaceInv (s : State) : Prop :=
  memWf s.outBuf = true ∧ memWf s.inBuf = true ∧ memWf s.hw = true ∧ memWf s.hr = true
    ∧ (∀ c ∈ s.outBuf, c.1 < s.cap) ∧ (∀ c ∈ s.inBuf, c.1 < s.cap)

/-- CAP is 0 or between FLOOR and BUF_MAX (R48). -/
abbrev CapInv (s : State) : Prop :=
  s.cap = 0 ∨ (s.params.floor ≤ s.cap ∧ s.cap ≤ s.params.bufMax)

/-- ERR holds a code the block produces (R240), and a fatal one exactly in FATAL (R57, R251). -/
abbrev ErrInv (s : State) : Prop :=
  s.err.toNat ≤ 8 ∧
    (s.top = .fatal ↔ s.err = codeAllocationFailure ∨ s.err = codeNoBackend ∨ s.err = codeBackendFault)

/-- Whether a transaction is in the phase `ph`. -/
def inPhase (s : State) (ph : TxPhase) : Bool :=
  match s.top with
  | .run .exec => s.tx.txs == ph
  | .run .read => s.tx.job != .none && s.tx.txs == ph
  | .run .prog => s.tx.job != .none && s.tx.txs == ph
  | .run .init => false
  | .run .xbit => false
  | .run .xbyte => false
  | .idle => false
  | .fatal => false

/-- Whether a bit cell is in progress (R62, R72). -/
def bitInProgress (s : State) : Bool :=
  s.top == .run .xbit || s.top == .run .xbyte || inPhase s .bytes

/-- Whether the clock is between its rising and its falling edge (R62). -/
def clockHigh (s : State) : Bool :=
  bitInProgress s && (s.tx.bitph == .sample || s.tx.bitph == .wait2 || s.tx.bitph == .fall)

/-- Whether chip-select is between assertion and deassertion (R61). -/
def frameOpen (s : State) : Bool := inPhase s .bytes || inPhase s .tailWait1 || inPhase s .deassert

/-- The clock is high exactly between the two edges of a bit cell, and chip-select asserted exactly in a frame
(R72, R73), unless a fatal error has left the pins as they were (R251). -/
abbrev LineInv (s : State) : Prop :=
  s.top = .fatal ∨
    ((s.sck = if clockHigh s then 1 else 0) ∧
      (s.cs = if frameOpen s then s.params.csAssert else s.params.csDeassert))

end Sys2Proof.Machine
end

