-- ==== Sys2Proof/WellFormed.lean ====
section
/-!
DEFINITION. Which instructions exist in a build: the operand ranges of R125's table under the build's parameters (an
offset of ADDR_BYTES bytes; PP: 1 to PAGE data bytes; RD: 1 to CHUNK_DATA_MAX bytes). The other rows carry no operand.
-/
namespace Sys2Proof

/-- The operand ranges of R125 in a build with parameters `p` (R25). -/
def Instr.wf (p : Params) : Instr → Bool
  | .init => true
  | .xbit => true
  | .xbyte => true
  | .exec => true
  | .read => true
  | .prog => true
  | .rdsr => true
  | .wren => true
  | .pp addr data =>
    decide (addr < 2 ^ (8 * p.addrBytes)) && decide (1 ≤ data.length) && decide (data.length ≤ p.page)
  | .rd addr n => decide (addr < 2 ^ (8 * p.addrBytes)) && decide (1 ≤ n) && decide (n ≤ p.chunkDataMax)

end Sys2Proof
end

