-- ==== Sys2Proof/Certificates/Slice0/Obligations.lean ====
section
/-!
DEFINITION. The statements about BBSPI. Each docstring names the rule of spec/ it formalises, or says that it rests on
a choice of the model and names the log entry. Statements about a next state give it whole, as a record with the
changed fields named, so that everything else is said to be unchanged.
-/

open Sys2Proof Sys2Proof.Machine

/-! ## Reset -/

/-- R74: the value each piece of state takes at hardware reset; no event; the block then waits for the host. (The
values of the sequencing state, which R74 does not give, are not stated.) -/
def Obligations.ResetValues : Prop :=
  let s := State.reset
  s.backendSel = 0 ∧ s.halfPeriod = 0 ∧ s.cs = s.params.csDeassert ∧ s.sck = 0 ∧ s.mosi = 0 ∧ s.acc = 0 ∧ s.cap = 0
    ∧ s.outBuf = [] ∧ s.inBuf = [] ∧ s.busyBit = 0 ∧ s.fatalBit = 0 ∧ s.ovr = 0 ∧ s.err = 0 ∧ s.result = 0
    ∧ s.pres = 0 ∧ s.sr = 0 ∧ s.off = 0 ∧ s.ops.cfgBackend = 0 ∧ s.ops.cfgHalfPeriod = 0 ∧ s.ops.wcount = 0
    ∧ s.ops.rcount = 0 ∧ s.ops.start = 0 ∧ s.ops.length = 0 ∧ s.ops.sizeUnits = 0 ∧ s.ops.arg = 0 ∧ s.top = .idle
    ∧ s.trace = [] ∧ step s = .next s

/-- R280, R281: asserting reset, in any state, puts every piece of state at the value of R74 and TOP at IDLE, and
emits no event: the trace is empty. -/
def Obligations.HardwareReset : Prop :=
  ∀ (s : State) (rest : List HostAct), s.env.host = .reset :: rest →
    ∃ t : State, step s = .next t ∧ t.params = s.params ∧ t.env.host = rest
      ∧ t.backendSel = 0 ∧ t.halfPeriod = 0 ∧ t.cs = s.params.csDeassert ∧ t.sck = 0 ∧ t.mosi = 0 ∧ t.acc = 0
      ∧ t.cap = 0 ∧ t.result = 0 ∧ t.pres = 0 ∧ t.sr = 0 ∧ t.off = 0 ∧ t.ovr = 0 ∧ t.err = 0
      ∧ t.ops = OperandRegs.reset ∧ t.top = .idle ∧ t.trace = []

/-! ## Encoding -/

/-- A few words of the opcode table and of R125, written out: what the decoder reads from them (sanity). -/
def Obligations.TableWordsDecode : Prop :=
  decodeTableWord 32 0x00000001 = some .init ∧ decodeTableWord 32 0x00000002 = some .xbit
    ∧ decodeTableWord 32 0x00000003 = some .xbyte ∧ decodeTableWord 32 0x00000004 = some .exec
    ∧ decodeTableWord 32 0x00000005 = some .read ∧ decodeTableWord 32 0x00000006 = some .prog
    ∧ decodeTableWord 32 0x00000000 = none ∧ decodeTableWord 32 0x00000007 = none
    ∧ decodeTableWord 32 0x00000104 = none
    ∧ decodeTableWord 8 0x05 = some .rdsr ∧ decodeTableWord 8 0x06 = some .wren
    ∧ decodeFrame Params.default [0x02, 0x00, 0x01, 0x00, 0xAA] 0 = .ok (.pp 0x000100 [0xAA])
    ∧ decodeFrame Params.default [0x03, 0x00, 0xFF, 0xFC] 2 = .ok (.rd 0x00FFFC 2)

/-- In every build whose four command codes (R25) differ, decoding the word of any well-formed instruction gives the
instruction back, with every operand. (Where two codes coincide the decoder's order decides, log 22.) -/
def Obligations.DecodeEncodeAgree : Prop :=
  ∀ (p : Params) (i : Instr), [p.rdsrOpcode, p.wrenOpcode, p.ppOpcode, p.readOpcode].Nodup → i.wf p = true →
    decode p (encode p i) = .ok i

/-- In every build a frame that decodes is exactly the frame of the instruction it decodes to, which is well-formed: no
two frames have one reading, and nothing outside R125's ranges is read. (Where two of a build's codes coincide a frame
may be that of another instruction too; which one is read is the model's choice, log 22.) -/
def Obligations.FramesDecodeSoundly : Prop :=
  ∀ (p : Params) (wbytes : List Byte) (r : Nat) (i : Instr), decodeFrame p wbytes r = .ok i →
    i.wf p = true ∧ encode p i = .frame wbytes r

/-- R132: the command word is one 32-bit word, bits 31:8 zero and bits 7:0 the operation code; the whole word selects
the operation. -/
def Obligations.CommandWordSelects : Prop :=
  ∀ (w : Word) (op : Op),
    decodeOp w = .ok op ↔
      w.extractLsb' 8 24 = 0 ∧
        w.extractLsb' 0 8 =
          (match op with
            | .init => 0x01#8 | .xbit => 0x02#8 | .xbyte => 0x03#8 | .exec => 0x04#8 | .read => 0x05#8
            | .prog => 0x06#8)

/-- R134: a command word outside the six, written while idle in either form, is not executed: no state other than ERR
changes, no event is emitted, ERR becomes IllegalCommand. -/
def Obligations.IllegalCommandOnlyErr : Prop :=
  ∀ (s : State) (w : Word) (rest : List HostAct), s.top = .idle →
    (w.extractLsb' 0 8 = 0 ∨ 7 ≤ (w.extractLsb' 0 8).toNat ∨ w.extractLsb' 8 24 ≠ 0) →
    (s.env.host = .call w :: rest ∨ s.env.host = .write 0x00 w :: rest) →
    step s = .next { s with err := 0x06, env.host := rest }

/-! ## Steps and issue -/

/-- A step runs the decoded instruction: the host's next action, a command word that is called or a frame that is
issued, decodes in the build to `i`, and the step is the meaning of `i` in the state with that action taken off the host's
list. -/
def Obligations.StepRunsDecoded : Prop :=
  ∀ (s : State) (rest : List HostAct) (i : Instr),
    (∀ w : Word, s.env.host = .call w :: rest → decodeCmd w = .ok i → step s = exec i { s with env.host := rest })
      ∧ (∀ (wbytes : List Byte) (r : Nat), s.env.host = .frame wbytes r :: rest →
          decodeFrame s.params wbytes r = .ok i →
          step s = exec i { s with env.host := rest })

/-- The word that `withFetchWord` places, as the state's build decodes it (the default build: `decodeTableWord`), is the
one the very next step runs, and nothing else of the state differs. -/
def Obligations.FetchWordRuns : Prop :=
  ∀ (s : State) (nbits w : Nat) (i : Instr),
    (decodeTableWordIn s.params nbits w = some i → step (s.withFetchWord nbits w) = exec i s)
      ∧ (s.params = Params.default → decodeTableWord nbits w = some i →
          step (s.withFetchWord nbits w) = exec i s)

/-- R262: a CMD write while BUSY or FATAL is discarded whole, in every form it can take: it changes nothing and sets
OVR. For the pseudo-operations and any other line EXEC, that the bytes they would place in HW are dropped then is the model's choice (log 22;
in FATAL also log 16; U9 treats a host that touches HW while BUSY as `refuse`). -/
def Obligations.CommandDiscardedUnlessIdle : Prop :=
  ∀ s : State, s.top ≠ .idle →
    (∀ i : Instr, exec i s = .next { s with ovr := 1 })
      ∧ (∀ (w : Word) (rest : List HostAct),
          (s.env.host = .call w :: rest ∨ s.env.host = .write 0x00 w :: rest) →
          step s = .next { s with ovr := 1, env.host := rest })
      ∧ (∀ (wbytes : List Byte) (r : Nat) (rest : List HostAct), s.env.host = .frame wbytes r :: rest →
          step s = .next { s with ovr := 1, env.host := rest })

/-- R56, R262: OVR is set when, and only when, a CMD write comes while BUSY or FATAL, is cleared only by reset, and is 0
after reset. That a pseudo-operation, or any line EXEC, is a CMD write too is the model's choice (log 22). -/
def Obligations.OverrunSticky : Prop :=
  State.reset.ovr = 0 ∧
    ∀ s t : State, step s = .next t → s.env.host.head? ≠ some .reset →
      (s.ovr = 1 → t.ovr = 1) ∧
        (t.ovr ≠ s.ovr →
          t.ovr = 1 ∧ s.top ≠ .idle ∧
            ((∃ w, s.env.host.head? = some (.call w)) ∨ (∃ wb r, s.env.host.head? = some (.frame wb r))
              ∨ (∃ w, s.env.host.head? = some (.write 0x00 w))))
        ∧ (s.top ≠ .idle →
            ((∃ w, s.env.host.head? = some (.call w)) ∨ (∃ w, s.env.host.head? = some (.write 0x00 w))
              ∨ (∃ wb r, s.env.host.head? = some (.frame wb r))) →
            t.ovr = 1)

/-! ## INIT -/

/-- R230: INIT latches backend and half period; with an invalid backend it reports InvalidBackend and emits nothing;
with a valid one (and a pin driver that does not fail) it drives chip-select to deassert and the clock to 0. Nothing
else changes. -/
def Obligations.InitLatchesAndDrives : Prop :=
  ∀ s : State, s.top = .idle →
    (s.ops.cfgBackend ∈ s.params.validBackends → s.params.backendFallible = false →
      exec .init s = .next
        { s.atRest with
          backendSel := s.ops.cfgBackend, halfPeriod := s.ops.cfgHalfPeriod
          cs := s.params.csDeassert, sck := 0, err := 0x00, top := .idle
          trace := [.sck 0, .cs s.params.csDeassert] ++ s.trace })
      ∧ (s.ops.cfgBackend ∉ s.params.validBackends →
          exec .init s = .next
            { s.atRest with
              backendSel := s.ops.cfgBackend, halfPeriod := s.ops.cfgHalfPeriod, err := 0x07, top := .idle })

/-- R68: BACKEND_SEL and HALF_PERIOD change only when INIT latches them (and at reset). -/
def Obligations.ConfigurationOnlyByInit : Prop :=
  ∀ s t : State, step s = .next t → s.env.host.head? ≠ some .reset → s.top ≠ .run .init →
    s.env.host.head? ≠ some (.call 0x00000001) → t.backendSel = s.backendSel ∧ t.halfPeriod = s.halfPeriod

/-! ## Primitives -/

/-- R150 to R154: each of the four pin primitives, with a usable backend, changes its latch (GETMISO none) and appends
its one event, also when the level is the present one; without a valid backend it raises NoBackend, fatal, and emits
nothing. GETMISO returns what the outside world presents (log 4). -/
def Obligations.PinPrimitives : Prop :=
  ∀ s : State,
    (s.Ready →
      (∀ l, setCs l s = .ok () { s with cs := l, trace := .cs l :: s.trace })
        ∧ (∀ l, setSck l s = .ok () { s with sck := l, trace := .sck l :: s.trace })
        ∧ (∀ l, setMosi l s = .ok () { s with mosi := l, trace := .mosi l :: s.trace })
        ∧ (∃ b, getMiso s = .ok b { s with trace := .miso b :: s.trace, env.dataIn := s.env.dataIn.tail }
            ∧ answered s.env.world s.env.dataIn s.trace [.miso b] = true))
      ∧ (s.backendSel ∉ s.params.validBackends →
          let t : State := { s.atRest with err := 0x04, top := .fatal }
          (∀ l, setCs l s = .halt t) ∧ (∀ l, setSck l s = .halt t) ∧ (∀ l, setMosi l s = .halt t)
            ∧ getMiso s = .halt t)

/-! ## XBIT and XBYTE -/

/-- R160: XBIT with a usable backend emits exactly its six events, shifts the sampled bit into ACC, leaves the clock
at 0 and data-out at the bit, and returns the sample in RESULT; everything else is unchanged. The sample is what the
outside world presents at that moment. -/
def Obligations.XbitTransfersOneBit : Prop :=
  ∀ s : State, s.top = .idle → s.Ready →
    ∃ b : Bit,
      exec .xbit s = .next
        { s.atRest with
          mosi := s.ops.arg.extractLsb' 0 1, sck := 0, acc := (s.acc <<< 1) ||| b.setWidth 8
          result := b.setWidth 8, err := 0x00, top := .idle
          trace := [.sck 0, .delay s.halfPeriod, .miso b, .sck 1, .delay s.halfPeriod,
            .mosi (s.ops.arg.extractLsb' 0 1)] ++ s.trace
          env.dataIn := s.env.dataIn.tail }
      ∧ answered s.env.world s.env.dataIn s.trace (cellEvents (s.ops.arg.extractLsb' 0 1) b s.halfPeriod) = true

/-- R162: XBYTE with a usable backend emits the 48 events of the byte, most significant bit first, and returns in ACC
and RESULT the byte of the eight samples; data-out ends at bit 0 and the clock at 0; everything else is unchanged. -/
def Obligations.XbyteTransfersOneByte : Prop :=
  ∀ s : State, s.top = .idle → s.Ready →
    ∃ u : Byte,
      exec .xbyte s = .next
        { s.atRest with
          mosi := s.ops.arg.extractLsb' 0 1, sck := 0, acc := u, result := u, err := 0x00, top := .idle
          trace := (byteEvents s.ops.arg u s.halfPeriod).reverse ++ s.trace
          env.dataIn := s.env.dataIn.drop 8 }
      ∧ answered s.env.world s.env.dataIn s.trace (byteEvents s.ops.arg u s.halfPeriod) = true

/-- R165 (which the spec derives): a wire from data-out to data-in gives XBYTE's operand back; an echo one whole cell
late gives `(c << 7) | (v >> 1)`, `c` the data-out level before. The environment is the script of data-in levels
(log 4). -/
def Obligations.LoopbackLaw : Prop :=
  ∀ (s : State) (rest : List Bit), s.top = .idle → s.Ready →
    (s.env.dataIn = byteLevels s.ops.arg ++ rest →
      ∃ t : State, exec .xbyte s = .next t ∧ t.result = s.ops.arg ∧ t.acc = s.ops.arg)
      ∧ (s.env.dataIn = s.mosi :: (byteLevels s.ops.arg).dropLast ++ rest →
          ∃ t : State, exec .xbyte s = .next t ∧ t.result = (s.mosi.setWidth 8 <<< 7) ||| (s.ops.arg >>> 1))

/-- R161 (e) (which the spec derives): eight host-issued XBITs leave in ACC the byte that an XBYTE would return for
the same eight samples. -/
def Obligations.EightXbitsMakeAByte : Prop :=
  ∀ (s : State) (u : Byte) (rest : List Bit), s.top = .idle → s.Ready → s.env.dataIn = byteLevels u ++ rest →
    s.env.host = List.replicate 8 (.call 0x00000002) →
    ∃ t : State, Host.Core.run core 8 s = .next t ∧ t.acc = u ∧ t.result = (u.extractLsb' 0 1).setWidth 8
      ∧ t.top = .idle

/-! ## EXEC -/

/-- R171, R241: a transaction fails with InvalidLength exactly when the sum of its two counts, taken without wrap,
exceeds the ceiling, and then changes nothing; EXEC ends so exactly then, with nothing changed but ERR: no event, CAP,
OUT, IN and HR as they were, WCOUNT and RCOUNT readable, and the block idle again. -/
def Obligations.InvalidLengthRule : Prop :=
  ∀ s : State,
    (∀ (wbytes : List Byte) (r : Nat), s.params.ceiling < wbytes.length + r →
      transaction wbytes r s = .ok (0x01, []) s)
    ∧ (∀ (wbytes rbytes : List Byte) (r : Nat) (t : State), transaction wbytes r s = .ok (0x01, rbytes) t →
        s.params.ceiling < wbytes.length + r)
    ∧ (s.top = .idle → s.params.ceiling < s.ops.wcount.toNat + s.ops.rcount.toNat →
        exec .exec s = .next { s.atRest with err := 0x01, top := .idle })
    ∧ (∀ t : State, s.top = .idle → exec .exec s = .next t → t.err = 0x01 →
        s.params.ceiling < s.ops.wcount.toNat + s.ops.rcount.toNat)

/-- R122, R123, R172, R175, R176: EXEC with a usable backend, within the ceiling and the buffer memory, completes.
Its events are one frame: the bytes of HW, then fillers; the response it stores in HR is what was sampled in the
read field; CAP has grown to the transaction, the floor or not at all. -/
def Obligations.ExecCompletes : Prop :=
  ∀ s : State, s.top = .idle → s.Ready →
    let w := s.ops.wcount.toNat
    let r := s.ops.rcount.toNat
    let outs := frameOut s.params (s.hwBytes 0 w) r
    w + r ≤ s.params.ceiling → max (w + r) s.params.floor ≤ max s.cap s.params.bufMax →
    ∃ (us : List Byte) (t : State), us.length = w + r ∧ exec .exec s = .next t
      ∧ t.top = .idle ∧ t.err = 0x00 ∧ t.cs = s.params.csDeassert
      ∧ t.cap = max s.cap (max (w + r) s.params.floor)
      ∧ (∀ k (hk : w + k < us.length), t.hrAt k = us[w + k])
      ∧ t.events = s.events ++ frameEvents s.params s.halfPeriod outs us
      ∧ answered s.env.world s.env.dataIn s.trace (frameEvents s.params s.halfPeriod outs us) = true
      ∧ t.env.dataIn = s.env.dataIn.drop (8 * (w + r))
      ∧ (∀ u, us.getLast? = some u → t.acc = u) ∧ (∀ v, outs.getLast? = some v → t.mosi = v.extractLsb' 0 1)
      ∧ (0 < w + r → t.sck = 0) ∧ (w + r = 0 → t.sck = s.sck ∧ t.mosi = s.mosi ∧ t.acc = s.acc)

/-- What EXEC leaves unchanged, however it ends (R94, R170, R182): every field not named, every byte of HR outside the
response (and all of HR unless it completes), and, where the buffers do not grow, every byte of OUT and IN outside the
frame. -/
def Obligations.ExecFrame : Prop :=
  ∀ s t : State, s.top = .idle → exec .exec s = .next t →
    t = { s with
      cs := t.cs, sck := t.sck, mosi := t.mosi, acc := t.acc, cap := t.cap, outBuf := t.outBuf, inBuf := t.inBuf
      err := t.err, hr := t.hr, top := t.top, initph := t.initph, tx := t.tx, rd := t.rd, pp := t.pp
      span := t.span, trace := t.trace
      env := { s.env with dataIn := t.env.dataIn, pinFaults := t.env.pinFaults } }
    ∧ (t.err ≠ 0x00 → t.hr = s.hr)
    ∧ (SpaceInv s →
        (∀ a, s.ops.rcount.toNat ≤ a → t.hrAt a = s.hrAt a)
        ∧ (t.cap = s.cap → ∀ a, s.ops.wcount.toNat + s.ops.rcount.toNat ≤ a →
            t.outAt a = s.outAt a ∧ t.inAt a = s.inAt a))

/-- R173, R242: a transaction whose buffers would have to exceed BUF_MAX ends in AllocationFailure, fatal, with no
event and CAP unchanged; so does EXEC. -/
def Obligations.AllocationFailureIsFatal : Prop :=
  ∀ s : State,
    (∀ (wbytes : List Byte) (r : Nat), wbytes.length + r ≤ s.params.ceiling →
      s.cap < max (wbytes.length + r) s.params.floor → s.params.bufMax < max (wbytes.length + r) s.params.floor →
      transaction wbytes r s = .halt { s.atRest with err := 0x02, top := .fatal })
    ∧ (∀ n, s.top = .idle → n = s.ops.wcount.toNat + s.ops.rcount.toNat → n ≤ s.params.ceiling →
        s.cap < max n s.params.floor → s.params.bufMax < max n s.params.floor →
        exec .exec s = .next { s.atRest with err := 0x02, top := .fatal })

/-- R245: with an invalid backend, the first selector-resolved primitive of an operation raises NoBackend, fatal: no
event at all has been emitted; for a transaction CAP may have grown and OUT, IN been filled. -/
def Obligations.NoBackendIsFatal : Prop :=
  ∀ s : State, s.top = .idle → s.backendSel ∉ s.params.validBackends →
    exec .xbit s = .next { s.atRest with err := 0x04, top := .fatal }
      ∧ exec .xbyte s = .next { s.atRest with acc := 0, err := 0x04, top := .fatal }
      ∧ (∀ n, n = s.ops.wcount.toNat + s.ops.rcount.toNat → n ≤ s.params.ceiling →
          max n s.params.floor ≤ max s.cap s.params.bufMax →
          ∃ ob ib, exec .exec s = .next
            { s.atRest with
              err := 0x04, top := .fatal, cap := max s.cap (max n s.params.floor), outBuf := ob, inBuf := ib })
      ∧ (s.Roomy → 0 < s.ops.length.toNat →
          ∃ n ob ib, exec .read s = .next
            { s.atRest with err := 0x04, top := .fatal, cap := max s.cap n, outBuf := ob, inBuf := ib })
      ∧ (s.Roomy → 0 < s.progTotal → s.progTotal ≤ 4294967296 → s.env.pageCalls = [] →
          ∃ n ob ib, exec .prog s = .next
            { s.atRest with
              err := 0x04, top := .fatal, cap := max s.cap n, outBuf := ob, inBuf := ib, pres := 0, off := 0 })

/-- R178 (which the spec derives): a response consists of sampled bytes only, never of the sentinel: data-in held at 1
gives 0xFF in every byte, data-in held at 0 gives 0x00. The environment is the script of data-in levels (log 4). -/
def Obligations.ResponseIsSampled : Prop :=
  ∀ (s : State) (b : Bit) (rest : List Bit), s.top = .idle → s.Ready →
    let n := s.ops.wcount.toNat + s.ops.rcount.toNat
    n ≤ s.params.ceiling → max n s.params.floor ≤ max s.cap s.params.bufMax →
    s.env.dataIn = List.replicate (8 * n) b ++ rest →
    ∃ t : State, exec .exec s = .next t
      ∧ ∀ k, k < s.ops.rcount.toNat → t.hrAt k = if b = 1 then 0xFF else 0x00

/-! ## READ -/

/-- R193 (with R190, R191): READ with a usable backend completes. Chunk `j` is one frame, of the read command with
the offset `start + j * CHUNK_DATA_MAX` reduced to the address field, and of the chunk's fillers; byte `k` of chunk
`j` lands at index `j * CHUNK_DATA_MAX + k` of HR. -/
def Obligations.ReadCompletes : Prop :=
  ∀ s : State, s.top = .idle → s.Ready → s.Roomy →
    let p := s.params
    let start := s.ops.start.toNat
    let length := s.ops.length.toNat
    ∃ (ins : Nat → List Byte) (t : State), exec .read s = .next t ∧ t.top = .idle ∧ t.err = 0x00
      ∧ (∀ j, j < chunkCount p length →
          (ins j).length = 1 + p.addrBytes + min (length - j * p.chunkDataMax) p.chunkDataMax)
      ∧ t.events = s.events ++ (List.range (chunkCount p length)).flatMap
          (fun j => chunkEvents p s.halfPeriod start length j (ins j))
      ∧ answered s.env.world s.env.dataIn s.trace ((List.range (chunkCount p length)).flatMap
          (fun j => chunkEvents p s.halfPeriod start length j (ins j))) = true
      ∧ (∀ j k, j < chunkCount p length → ∀ (hk : 1 + p.addrBytes + k < (ins j).length),
          t.hrAt (j * p.chunkDataMax + k) = (ins j)[1 + p.addrBytes + k])

/-- What READ leaves unchanged, however it ends (R94, R190): every field not named, every byte of HR from `length` on,
and, where the buffers do not grow, every byte of OUT and IN beyond the longest frame. -/
def Obligations.ReadFrame : Prop :=
  ∀ s t : State, s.top = .idle → exec .read s = .next t →
    t = { s with
      cs := t.cs, sck := t.sck, mosi := t.mosi, acc := t.acc, cap := t.cap, outBuf := t.outBuf, inBuf := t.inBuf
      err := t.err, hr := t.hr, top := t.top, initph := t.initph, tx := t.tx, rd := t.rd, pp := t.pp
      span := t.span, trace := t.trace
      env := { s.env with dataIn := t.env.dataIn, pinFaults := t.env.pinFaults } }
    ∧ (SpaceInv s →
        (∀ a, s.ops.length.toNat ≤ a → t.hrAt a = s.hrAt a)
        ∧ (t.cap = s.cap → ∀ a, 1 + s.params.addrBytes + min s.ops.length.toNat s.params.chunkDataMax ≤ a →
            t.outAt a = s.outAt a ∧ t.inAt a = s.inAt a))

/-- R194 (a), R211 (a), R233 (which the spec derives): READ of no byte and PROG of no unit return 0 without any event,
whatever the backend is. -/
def Obligations.EmptyJobsSucceed : Prop :=
  ∀ s : State, s.top = .idle →
    (s.ops.length = 0 → exec .read s = .next { s.atRest with err := 0x00, top := .idle })
      ∧ (s.ops.sizeUnits = 0 → exec .prog s = .next { s.atRest with pres := 0, off := 0, err := 0x00, top := .idle })

/-! ## PROG -/

/-- R200, R202, R291: PROG with a usable backend, data-in held at 0 (every status byte then shows the device ready),
and the default ProgramPage and ReadStatus, completes: for each page in order the frames of ProgramPage and of one
poll; OFF ends at or above TOTAL, SR at 0, PRES at 0. The environment is the script of data-in levels (log 4) and of
calls (log 7). -/
def Obligations.ProgCompletesWhenReady : Prop :=
  ∀ (s : State) (rest : List Bit), s.top = .idle → s.Ready → s.Roomy → s.progTotal ≤ 4294967296 →
    s.env.pageCalls = [] → s.env.statusCalls = [] →
    let pages := pageCount s.params s.progTotal
    s.env.dataIn =
      List.replicate (8 * (pages * (bytesBeforePoll s.params 0 + bytesOfPoll s.params) + s.progTotal)) 0 ++ rest →
    ∃ t : State, exec .prog s = .next t ∧ t.top = .idle ∧ t.err = 0x00 ∧ t.pres = 0
      ∧ t.off = pages * s.params.page ∧ s.progTotal ≤ t.off ∧ (0 < s.progTotal → t.sr = 0)
      ∧ t.events = s.events ++ (List.range pages).flatMap (quietPage s)
      ∧ t.env.dataIn = rest

/-- R205, R207, R209: whatever the device answers, PROG with a usable backend and the default primitives ends
in success with the last page ready, or in Timeout when POLL_LIMIT polls of a page were busy, or, when there is no
limit, is in its poll loop. That a step stops there to wait is the model's choice (log 8). -/
def Obligations.ProgOutcomes : Prop :=
  ∀ s : State, s.top = .idle → s.Ready → s.Roomy → s.progTotal ≤ 4294967296 →
    s.env.pageCalls = [] → s.env.statusCalls = [] →
    ∃ t : State, exec .prog s = .next t ∧ t.pres = 0 ∧
      ((t.top = .idle ∧ t.err = 0x00 ∧ s.progTotal ≤ t.off ∧ (0 < s.progTotal → wipSet s.params t.sr = false))
        ∨ (t.top = .idle ∧ t.err = 0x05 ∧ t.off < s.progTotal ∧ wipSet s.params t.sr = true
            ∧ s.params.pollLimit ≠ none)
        ∨ (t.top = .run .prog ∧ t.tx.job = .none ∧ t.pp.pps = .poll ∧ 1 ≤ t.pp.npoll ∧ t.off < s.progTotal
            ∧ wipSet s.params t.sr = true ∧ s.params.pollLimit = none))

/-- R206: when ProgramPage reports a nonzero result for page `j`, PROG ends at once with ProgramFailure: no poll
follows, no later page is attempted, PRES keeps the result and OFF the page's offset; the pages before it were
programmed. Here it reports without a transaction. The environment is the script of calls (log 7) and of data-in
levels (log 4). -/
def Obligations.ProgramFailureStops : Prop :=
  ∀ (s : State) (j : Nat) (r : Word) (more : List PrimCall) (rest : List Bit),
    s.top = .idle → s.Ready → s.Roomy → s.progTotal ≤ 4294967296 → r ≠ 0 → j < pageCount s.params s.progTotal →
    s.env.pageCalls = List.replicate j .default ++ .custom [] r :: more → s.env.statusCalls = [] →
    s.env.dataIn =
      List.replicate (8 * (j * (bytesBeforePoll s.params s.params.page + bytesOfPoll s.params))) 0 ++ rest →
    ∃ t : State, exec .prog s = .next t ∧ t.top = .idle ∧ t.err = 0x03 ∧ t.pres = r ∧ t.off = j * s.params.page
      ∧ t.events = s.events ++ (List.range j).flatMap (quietPage s) ∧ t.env.dataIn = rest

/-- R207 (with R291): with a finite POLL_LIMIT and data-in held at 1 from the first poll on, PROG ends with Timeout on
the first page: OFF is its offset and SR the last status byte; POLL_LIMIT polls were made. -/
def Obligations.TimeoutAfterPollLimit : Prop :=
  ∀ (s : State) (l : Nat) (rest : List Bit),
    s.top = .idle → s.Ready → s.Roomy → 0 < s.progTotal → s.progTotal ≤ 4294967296 →
    s.env.pageCalls = [] → s.env.statusCalls = [] →
    s.params.pollLimit = some l → s.params.wipMask ≠ 0 →
    s.env.dataIn =
      List.replicate (8 * (bytesBeforePoll s.params (min s.params.page s.progTotal) + l * bytesOfPoll s.params)) 1
        ++ rest →
    ∃ t : State, exec .prog s = .next t ∧ t.top = .idle ∧ t.err = 0x05 ∧ t.off = 0 ∧ t.sr = 0xFF
      ∧ t.cs = s.params.csDeassert ∧ t.env.dataIn = rest

/-- R209, R291: with no POLL_LIMIT and data-in held at 1, PROG does not end: it is BUSY, in its poll loop, after as
many polls as the script answered (log 8); and from there, data-in still at 1, it comes to the same place with one
poll more. -/
def Obligations.PollingNeverEnds : Prop :=
  (∀ (s : State) (m : Nat), s.top = .idle → s.Ready → s.Roomy → 0 < s.progTotal → s.progTotal ≤ 4294967296 →
    s.env.pageCalls = [] → s.env.statusCalls = [] → s.params.pollLimit = none → s.params.wipMask ≠ 0 → 0 < m →
    s.env.dataIn =
      List.replicate (8 * (bytesBeforePoll s.params (min s.params.page s.progTotal) + m * bytesOfPoll s.params)) 1 →
    ∃ t : State, exec .prog s = .next t ∧ t.busyBit = 1 ∧ t.top = .run .prog ∧ t.tx.job = .none ∧ t.pp.pps = .poll
      ∧ t.pp.npoll = m ∧ t.off = 0 ∧ t.sr = 0xFF)
  ∧ (∀ (s : State) (rest : List Bit), s.top = .run .prog → s.tx.job = .none → s.pp.pps = .poll → s.Ready → s.Roomy →
      s.params.pollLimit = none → s.params.wipMask ≠ 0 → s.env.host = [] → s.env.statusCalls = [] →
      s.env.dataIn = List.replicate (8 * bytesOfPoll s.params) 1 ++ rest →
      ∃ (k : Nat) (t : State), Host.Core.run core k s = .next t ∧ t.busyBit = 1 ∧ t.top = .run .prog
        ∧ t.tx.job = .none ∧ t.pp.pps = .poll ∧ t.pp.npoll = s.pp.npoll + 1 ∧ t.off = s.off ∧ t.env.host = []
        ∧ t.env.dataIn = rest)

/-- What PROG leaves unchanged, however it ends (R200): every field not named, in particular HW and HR; and, with the
default primitives and where the buffers do not grow, every byte of OUT and IN beyond the longest frame. -/
def Obligations.ProgFrame : Prop :=
  ∀ s t : State, s.top = .idle → exec .prog s = .next t →
    t = { s with
      cs := t.cs, sck := t.sck, mosi := t.mosi, acc := t.acc, cap := t.cap, outBuf := t.outBuf, inBuf := t.inBuf
      pres := t.pres, sr := t.sr, off := t.off, err := t.err, top := t.top
      initph := t.initph, tx := t.tx, rd := t.rd, pp := t.pp, span := t.span, trace := t.trace
      env := { s.env with
        dataIn := t.env.dataIn, pinFaults := t.env.pinFaults, pageCalls := t.env.pageCalls
        statusCalls := t.env.statusCalls } }
    ∧ (SpaceInv s → s.env.pageCalls = [] → s.env.statusCalls = [] → t.cap = s.cap →
        ∀ a, 1 + s.params.addrBytes + s.params.page ≤ a → 1 + s.params.rdsrReadLen ≤ a →
          t.outAt a = s.outAt a ∧ t.inAt a = s.inAt a)

/-- U8 (log 18): PROG is refused, by name, when HW cannot hold TOTAL bytes. -/
def Obligations.ProgNeedsItsData : Prop :=
  ∀ s : State, s.top = .idle → 4294967296 < s.params.sizeScale * s.ops.sizeUnits.toNat →
    exec .prog s = .refused .dataShorterThanTotal

/-! ## The pseudo-operations -/

/-- R137, R138: a pseudo-operation with a usable backend completes as the EXEC it stands for: its write bytes are in
HW, their number and the read count in WCOUNT and RCOUNT, its events are that one frame, its response is in HR. And any
line `EXEC wbytes, r`, whatever its bytes and lengths and whether it is a frame of R125 or not, runs as that EXEC. -/
def Obligations.PseudoOperationsComplete : Prop :=
  (∀ (s : State) (i : Instr) (wbytes : List Byte) (r : Nat), expansion s.params i = some (wbytes, r) →
      s.top = .idle → s.Ready → wbytes.length + r ≤ s.params.ceiling → wbytes.length + r < 4294967296 →
      max (wbytes.length + r) s.params.floor ≤ max s.cap s.params.bufMax →
      ∃ (us : List Byte) (t : State), us.length = wbytes.length + r ∧ exec i s = .next t
        ∧ t.top = .idle ∧ t.err = 0x00 ∧ t.cs = s.params.csDeassert
        ∧ t.ops = { s.ops with wcount := BitVec.ofNat 32 wbytes.length, rcount := BitVec.ofNat 32 r }
        ∧ (∀ k (hk : k < wbytes.length), t.hwAt k = wbytes[k])
        ∧ (∀ k (hk : wbytes.length + k < us.length), t.hrAt k = us[wbytes.length + k])
        ∧ t.events = s.events ++ frameEvents s.params s.halfPeriod (frameOut s.params wbytes r) us
        ∧ answered s.env.world s.env.dataIn s.trace
            (frameEvents s.params s.halfPeriod (frameOut s.params wbytes r) us) = true)
  ∧ (∀ (s : State) (wbytes : List Byte) (r : Nat) (rest : List HostAct), s.env.host = .frame wbytes r :: rest →
      step s = exec .exec (stageExec wbytes r { s with env.host := rest }))

/-- What a pseudo-operation leaves unchanged, however it ends: every field not named, HW from the end of its write bytes
on, HR from its read count on, and, where the buffers do not grow, OUT and IN outside its frame. -/
def Obligations.PseudoFrame : Prop :=
  ∀ (s t : State) (i : Instr) (wbytes : List Byte) (r : Nat), expansion s.params i = some (wbytes, r) →
    s.top = .idle → exec i s = .next t →
    t = { s with
      cs := t.cs, sck := t.sck, mosi := t.mosi, acc := t.acc, cap := t.cap, outBuf := t.outBuf, inBuf := t.inBuf
      err := t.err, hw := t.hw, hr := t.hr, top := t.top, initph := t.initph, tx := t.tx, rd := t.rd, pp := t.pp
      ops := { s.ops with wcount := t.ops.wcount, rcount := t.ops.rcount }, span := t.span, trace := t.trace
      env := { s.env with dataIn := t.env.dataIn, pinFaults := t.env.pinFaults } }
    ∧ (t.err ≠ 0x00 → t.hr = s.hr)
    ∧ (SpaceInv s →
        (∀ a, wbytes.length ≤ a → t.hwAt a = s.hwAt a) ∧ (∀ a, r ≤ a → t.hrAt a = s.hrAt a)
        ∧ (t.cap = s.cap → ∀ a, wbytes.length + r ≤ a → t.outAt a = s.outAt a ∧ t.inAt a = s.inAt a))

/-! ## The sequencer -/

/-- R54, R60, R131: a legal CMD write while the block is idle is accepted: BUSY rises, TOP is RUN of the operation,
ERR keeps the previous status, no event has been emitted yet. (PROG beyond HW is refused by the model, log 18.) -/
def Obligations.AcceptanceRaisesBusy : Prop :=
  ∀ (s : State) (w : Word) (op : Op) (rest : List HostAct), s.top = .idle → s.env.host = .write 0x00 w :: rest →
    decodeOp w = .ok op → (op = .prog → s.progTotal ≤ 4294967296) →
    ∃ t : State, step s = .next t ∧ t.top = .run op ∧ t.busyBit = 1 ∧ t.fatalBit = 0 ∧ t.err = s.err ∧ t.ovr = s.ovr
      ∧ t.trace = s.trace ∧ t.ops = s.ops ∧ t.cs = s.cs ∧ t.sck = s.sck ∧ t.mosi = s.mosi

/-- R61 (which the spec derives): a running transaction passes its phases in order; only the bytes repeat, and a
transaction of no byte goes from the assertion to the tail. -/
def Obligations.TransactionPhasesInOrder : Prop :=
  ∀ s t : State, s.env.host = [] → (s.top = .run .exec ∨ s.top = .run .read ∨ s.top = .run .prog) →
    s.tx.job ≠ .none → s.tx.txs ≠ .done →
    (s.tx.txs = .check → txWriteLen s + txReadLen s ≤ s.params.ceiling) → step s = .next t → t.top = s.top →
    t.tx.txs = s.tx.txs.after
      ∨ (s.tx.txs = .bytes ∧ t.tx.txs = .bytes)
      ∨ (s.tx.txs = .assert ∧ s.tx.wcnt + s.tx.rcnt = 0 ∧ t.tx.txs = .tailWait1)

/-- R210 (which the spec derives): the rows of the Page Programmer's table, PROG running and no transaction in
progress; and what the end of the default ProgramPage and ReadStatus does. A primitive that replaces them and
reports without a transaction is in the script of calls (log 7); `span` is the model's record of what SR and OFF have
shown (log 14). -/
def Obligations.PageProgrammerTable : Prop :=
  ∀ s : State, s.env.host = [] → s.top = .run .prog →
    (s.tx.job = .none →
      (s.pp.pps = .next → s.off < s.pp.total → 1 ≤ s.params.page →
        step s = .next
          { s with tx := TxSeq.rest, pp := { s.pp with
              pps := .program, plen := min s.params.page (s.pp.total - s.off) } })
      ∧ (s.pp.pps = .next → s.pp.total ≤ s.off →
          step s = .next { s with tx := TxSeq.rest, pp := { s.pp with pps := .ok } })
      ∧ (s.pp.pps = .program → ∀ (r : Word) (more : List PrimCall), s.env.pageCalls = .custom [] r :: more →
          (r = 0 → step s = .next { s with
            tx := TxSeq.rest, pp := { s.pp with pps := .poll, npoll := 0, todo := [], result := 0 }
            env.pageCalls := more })
          ∧ (r ≠ 0 → step s = .next { s with
            tx := TxSeq.rest, pres := r, pp := { s.pp with pps := .fail, todo := [], result := 0 }
            env.pageCalls := more }))
      ∧ (s.pp.pps = .program → s.env.pageCalls = [] →
          step s = .next { s with
            tx := { TxSeq.rest with job := if s.params.progWren then .wren else .pp } })
      ∧ (s.pp.pps = .poll → ∀ (r : Word) (more : List PrimCall), s.env.statusCalls = .custom [] r :: more →
          step s = .next { s with
            tx := TxSeq.rest, sr := r.setWidth 8
            pp := { s.pp with pps := .test, npoll := s.pp.npoll + 1, todo := [], result := 0 }
            span := { s.span with srs := s.span.srs.insert (r.setWidth 8) }, env.statusCalls := more })
      ∧ (s.pp.pps = .poll → s.env.statusCalls = [] →
          step s = .next { s with tx := { TxSeq.rest with job := .rdsr } })
      ∧ (s.pp.pps = .test → s.sr &&& s.params.wipMask = 0 →
          step s = .next { s with tx := TxSeq.rest, pp := { s.pp with pps := .advance } })
      ∧ (s.pp.pps = .test → s.sr &&& s.params.wipMask ≠ 0 → ∀ l, s.params.pollLimit = some l → l ≤ s.pp.npoll →
          step s = .next { s with tx := TxSeq.rest, pp := { s.pp with pps := .timeout } })
      ∧ (s.pp.pps = .test → s.sr &&& s.params.wipMask ≠ 0 → (∀ l, s.params.pollLimit = some l → s.pp.npoll < l) →
          step s = .next { s with tx := TxSeq.rest, pp := { s.pp with pps := .poll } })
      ∧ (s.pp.pps = .advance →
          step s = .next { s with
            tx := TxSeq.rest, off := s.off + s.params.page, pp := { s.pp with pps := .next }
            span := { s.span with offs := s.span.offs.insert (s.off + s.params.page) } })
      ∧ (s.pp.pps = .ok → step s = .next { s.atRest with err := 0x00, top := .idle })
      ∧ (s.pp.pps = .fail → step s = .next { s.atRest with err := 0x03, top := .idle })
      ∧ (s.pp.pps = .timeout → step s = .next { s.atRest with err := 0x05, top := .idle }))
    ∧ (s.tx.job = .pp → s.tx.txs = .done →
        step s = .next { s with tx := TxSeq.rest, pp := { s.pp with pps := .poll, npoll := 0 } })
    ∧ (s.tx.job = .rdsr → s.tx.txs = .done →
        step s = .next { s with
          tx := TxSeq.rest, pp := { s.pp with pps := .test, npoll := s.pp.npoll + 1 }
          span := { s.span with srs := s.span.srs.insert s.sr } })

/-- R130, R131: INIT, XBIT and XBYTE issued by a CMD write come, phase by phase, to the very state the call comes
to. -/
def Obligations.ShortOperationsAgree : Prop :=
  ∀ (op : Op) (s t : State), op = .init ∨ op = .xbit ∨ op = .xbyte → s.top = .idle →
    s.env.host = [.write 0x00 (encodeOp op)] → exec op.instr { s with env.host := [] } = .next t →
    ∃ k : Nat, Host.Core.run core k s = .next t

/-- R130, R131: the same for EXEC. -/
def Obligations.ExecAgrees : Prop :=
  ∀ s t : State, s.top = .idle → s.env.host = [.write 0x00 0x00000004] →
    exec .exec { s with env.host := [] } = .next t → ∃ k : Nat, Host.Core.run core k s = .next t

/-- R130, R131: the same for READ. -/
def Obligations.ReadAgrees : Prop :=
  ∀ s t : State, s.top = .idle → s.env.host = [.write 0x00 0x00000005] →
    exec .read { s with env.host := [] } = .next t → ∃ k : Nat, Host.Core.run core k s = .next t

/-- R130, R131, R210: the same for PROG, also where the call stops to wait in the poll loop (log 8). -/
def Obligations.ProgAgrees : Prop :=
  ∀ s t : State, s.top = .idle → s.env.host = [.write 0x00 0x00000006] →
    exec .prog { s with env.host := [] } = .next t → ∃ k : Nat, Host.Core.run core k s = .next t

/-! ## Faults and flags -/

/-- R251, R55: in FATAL, without a reset, nothing of the block ever changes but OVR: no event, no operation, TOP stays
FATAL and ERR keeps the code. R251 speaks of latches and registers; that HW too keeps its bytes, a byte the host places
in FATAL being ignored, is the model's choice (log 16). -/
def Obligations.FatalIsFinal : Prop :=
  ∀ s t : State, s.top = .fatal → s.env.host.head? ≠ some .reset → step s = .next t →
    t = { s with ovr := t.ovr, env := { s.env with host := t.env.host, hostRead := t.env.hostRead } }

/-- R248: where pin-driver calls can fail, one that does raises BackendFault, fatal; the failing primitive emits no
event and changes no latch. Which calls fail is the environment's choice, here its script (log 6). -/
def Obligations.PinFaultIsFatal : Prop :=
  ∀ (s : State) (rest : List Bool), s.backendSel ∈ s.params.validBackends → s.params.backendFallible = true →
    s.env.pinFaults = true :: rest →
    let t : State := { s.atRest with err := 0x08, top := .fatal, env.pinFaults := rest }
    (∀ l, setCs l s = .halt t) ∧ (∀ l, setSck l s = .halt t) ∧ (∀ l, setMosi l s = .halt t) ∧ getMiso s = .halt t
      ∧ (s.top = .idle → exec .xbit s = .next t)

/-- R57: ERR is written only when an operation ends: while BUSY is 1 it holds the previous operation's status. -/
def Obligations.ErrHoldsWhileBusy : Prop :=
  ∀ s t : State, step s = .next t → s.env.host.head? ≠ some .reset → t.busyBit = 1 → t.err = s.err

/-- R50: RESULT changes only by XBIT and XBYTE (and by reset). -/
def Obligations.ResultOnlyByTransfers : Prop :=
  ∀ s t : State, step s = .next t → s.env.host.head? ≠ some .reset → t.result ≠ s.result →
    (s.top = .idle ∧ (s.env.host.head? = some (.call 0x00000002) ∨ s.env.host.head? = some (.call 0x00000003)))
      ∨ s.top = .run .xbit ∨ s.top = .run .xbyte

/-! ## Registers and host data -/

/-- R66, R110: the operand registers are 0 after reset; an aligned write while idle, read back, gives the value with
the register's unused upper bits dropped, and changes nothing else of the block, no other register either; while
BUSY or FATAL no host action changes an operand register, and the block itself never does. -/
def Obligations.OperandRegisters : Prop :=
  (∀ r : OperandRegs, r = State.reset.ops →
    r.cfgBackend = 0 ∧ r.cfgHalfPeriod = 0 ∧ r.wcount = 0 ∧ r.rcount = 0 ∧ r.start = 0 ∧ r.length = 0
      ∧ r.sizeUnits = 0 ∧ r.arg = 0)
  ∧ (∀ (s : State) (v off mask : Word), s.top = .idle →
      ((off = 0x08 ∧ mask = 0xFF) ∨ (off = 0x0C ∧ mask = 0xFFFFFFFF) ∨ (off = 0x10 ∧ mask = 0xFFFFFFFF)
        ∨ (off = 0x14 ∧ mask = 0xFFFFFFFF) ∨ (off = 0x18 ∧ mask = 0xFFFFFFFF) ∨ (off = 0x1C ∧ mask = 0xFFFFFFFF)
        ∨ (off = 0x20 ∧ mask = 0xFFFF) ∨ (off = 0x24 ∧ mask = 0xFF)) →
      s.env.host = [.write off v, .read off] →
      ∃ t : State, Host.Core.run core 2 s = .next t ∧ t.env.hostRead = v &&& mask
        ∧ t = { s with ops := t.ops, env := { s.env with host := [], hostRead := t.env.hostRead } }
        ∧ ∀ a : Nat, a ≠ off.toNat → regValue a t = regValue a s)
  ∧ (∀ s t : State, s.top ≠ .idle → s.env.host.head? ≠ some .reset → step s = .next t → t.ops = s.ops)

/-- R67: writes of read-only registers and of reserved offsets are ignored in any state, writes of operand registers
while BUSY or FATAL. -/
def Obligations.IgnoredWrites : Prop :=
  ∀ (s : State) (off v : Word) (rest : List HostAct), s.env.host = .write off v :: rest → off.toNat % 4 = 0 →
    (off = 0x04 ∨ 0x28 ≤ off.toNat ∨ (s.top ≠ .idle ∧ 0x08 ≤ off.toNat)) →
    step s = .next { s with env.host := rest }

/-- R67: what an aligned read returns, by the register map, and that it changes nothing else. RESULT, CAP, SR, OFFSET
and PINS show what they hold while BUSY is 0; while it is 1, a value they take during the operation (U15): one already
shown, or one they come to when the host lets the operation run on; RESULT, which only XBIT and XBYTE write (R50), its
one value in any other operation. Which moment of the operation a read shows is a free value (log 14). That CAP and OFF,
natural numbers, show their number modulo 2^32 is the model's choice (log 28). -/
def Obligations.RegisterMapReads : Prop :=
  ∀ (s : State) (off : Word) (rest : List HostAct), s.env.host = .read off :: rest → off.toNat % 4 = 0 →
    ((s.busyBit = 0 ∨ off.toNat < 0x28 ∨ off = 0x2C ∨ 0x40 ≤ off.toNat) →
      ∃ v : Word, step s = .next { s with env.host := rest, env.hostRead := v }
        ∧ (off = 0x00 → v = 0)
        ∧ (off = 0x04 → v.extractLsb' 0 1 = s.busyBit ∧ v.extractLsb' 1 1 = s.fatalBit ∧ v.extractLsb' 2 1 = s.ovr
            ∧ (v.extractLsb' 3 1 = 1 ↔ s.backendSel ∈ s.params.validBackends)
            ∧ v.extractLsb' 4 4 = 0 ∧ v.extractLsb' 8 8 = s.err ∧ v.extractLsb' 16 16 = 0)
        ∧ (off = 0x08 → v = s.ops.cfgBackend.setWidth 32) ∧ (off = 0x0C → v = s.ops.cfgHalfPeriod)
        ∧ (off = 0x10 → v = s.ops.wcount) ∧ (off = 0x14 → v = s.ops.rcount)
        ∧ (off = 0x18 → v = s.ops.start) ∧ (off = 0x1C → v = s.ops.length)
        ∧ (off = 0x20 → v = s.ops.sizeUnits.setWidth 32) ∧ (off = 0x24 → v = s.ops.arg.setWidth 32)
        ∧ (off = 0x28 → v = s.result.setWidth 32) ∧ (off = 0x2C → v = s.pres)
        ∧ (off = 0x30 → v = BitVec.ofNat 32 s.cap) ∧ (off = 0x34 → v = s.sr.setWidth 32)
        ∧ (off = 0x38 → v = BitVec.ofNat 32 s.off)
        ∧ (off = 0x3C → v.extractLsb' 0 1 = s.cs ∧ v.extractLsb' 1 1 = s.sck ∧ v.extractLsb' 2 1 = s.mosi
            ∧ v.extractLsb' 3 29 = 0)
        ∧ (0x40 ≤ off.toNat → v = 0))
    ∧ (s.busyBit = 1 → off = 0x28 ∨ off = 0x30 ∨ off = 0x34 ∨ off = 0x38 ∨ off = 0x3C →
        ∃ v : Word, step s = .next { s with
            env.host := rest, env.hostRead := v, env.fresh := s.env.fresh + 1 }
          ∧ (v ∈ shownSoFar off.toNat s
              ∨ ∃ (k : Nat) (t : State), Host.Core.run core k { s with env.host := [] } = .next t
                  ∧ v = regValue off.toNat t)
          ∧ (off = 0x28 → s.top ≠ .run .xbit → s.top ≠ .run .xbyte → v = s.result.setWidth 32))

/-- R90, R93, R94: while idle the host places a byte in HW, which then reads back and leaves every other byte as it
was, and takes a byte from HR, which changes nothing of the block. -/
def Obligations.HostDataAccess : Prop :=
  ∀ (s : State) (a : Word) (rest : List HostAct), s.top = .idle →
    (∀ b : Byte, s.env.host = .putHw a b :: rest → SpaceInv s →
      ∃ t : State, step s = .next t ∧ t = { s with hw := t.hw, env := { s.env with host := rest } }
        ∧ t.hwAt a.toNat = b ∧ ∀ j, j ≠ a.toNat → t.hwAt j = s.hwAt j)
      ∧ (s.env.host = .getHr a :: rest →
          step s = .next { s with env.host := rest, env.hostRead := (s.hrAt a.toNat).setWidth 32 })

/-- U9, U10 (choices of the model, logs 15 and 17): the host's data while BUSY, and a register access that is not an
aligned word, are refused by name. -/
def Obligations.HostMisuseIsRefused : Prop :=
  ∀ (s : State) (a v : Word) (b : Byte) (rest : List HostAct),
    (s.busyBit = 1 → s.env.host = .putHw a b :: rest ∨ s.env.host = .getHr a :: rest →
      step s = .refused .hostDataWhileBusy)
      ∧ (a.toNat % 4 ≠ 0 → s.env.host = .write a v :: rest ∨ s.env.host = .read a :: rest →
          step s = .refused .unalignedRegister)

/-! ## Invariants and whole-machine rules -/

/-- R71: CAP never decreases without a reset; and once a transaction has passed its step 1, whether it completes or
not, CAP is at least the larger of its length and the floor. -/
def Obligations.CapacityNeverShrinks : Prop :=
  (∀ s t : State, step s = .next t → s.env.host.head? ≠ some .reset → s.cap ≤ t.cap)
    ∧ (∀ (s t : State) (wbytes : List Byte) (r : Nat) (rbytes : List Byte),
        transaction wbytes r s = .ok (0x00, rbytes) t → max (wbytes.length + r) s.params.floor ≤ t.cap)
    ∧ (∀ (s t : State) (wbytes : List Byte) (r : Nat), transaction wbytes r s = .halt t → t.err ≠ 0x02 →
        max (wbytes.length + r) s.params.floor ≤ t.cap)

/-- Every step keeps the byte spaces in canonical form, and OUT and IN below CAP (R49). -/
def Obligations.StepKeepsSpaces : Prop :=
  ∀ s t : State, SpaceInv s → step s = .next t → SpaceInv t

/-- Every step keeps CAP at 0 or between FLOOR and BUF_MAX (R48). -/
def Obligations.StepKeepsCapacity : Prop :=
  ∀ s t : State, CapInv s → step s = .next t → CapInv t

/-- Every step keeps ERR a code of R240, and a fatal one exactly in FATAL (R57, R251). -/
def Obligations.StepKeepsErrorCode : Prop :=
  ∀ s t : State, ErrInv s → step s = .next t → ErrInv t

/-- Every step keeps the lines: outside FATAL the clock is high exactly between the edges of a bit cell (R72), and
chip-select is asserted exactly in a frame (R73). -/
def Obligations.StepKeepsLines : Prop :=
  ∀ s t : State, LineInv s → step s = .next t → LineInv t

/-- The four invariants hold right after reset. -/
def Obligations.ResetMeetsInvariants : Prop :=
  SpaceInv State.reset ∧ CapInv State.reset ∧ ErrInv State.reset ∧ LineInv State.reset

/-- No step changes the build's parameters (log 5). -/
def Obligations.ParametersNeverChange : Prop :=
  ∀ s t : State, step s = .next t → t.params = s.params

/-- R42, R10: without a reset a step only appends events, and every delay among them is of the half period; where the
host does nothing, it appends one at most. -/
def Obligations.EventsOfAStep : Prop :=
  ∀ s t : State, step s = .next t → s.env.host.head? ≠ some .reset →
    ∃ evs : List Event, t.trace = evs ++ s.trace ∧ (∀ d, Event.delay d ∈ evs → d = s.halfPeriod)
      ∧ (s.env.host = [] → evs.length ≤ 1)
end

