-- ==== Sys2Proof/Laws/Decode.lean ====
section
/-!
SUPPORT. Flash offsets as bytes and back (R100, R125).
-/
namespace Sys2Proof

theorem length_offsetBytes (n a : Nat) : (offsetBytes n a).length = n := by
  induction n with
  | zero => rfl
  | succ n ih => simp [offsetBytes, ih]

theorem offsetOf_foldl (bs : List Byte) (a : Nat) :
    bs.foldl (fun a b => 256 * a + b.toNat) a = a * 256 ^ bs.length + offsetOf bs := by
  induction bs generalizing a with
  | nil => simp [offsetOf]
  | cons b bs ih =>
    have e : a * 256 ^ (bs.length + 1) = 256 * a * 256 ^ bs.length := by rw [Nat.pow_succ]; ac_rfl
    simp only [List.foldl_cons, offsetOf, List.length_cons]
    rw [ih, ih (256 * 0 + b.toNat), e, Nat.add_mul, Nat.mul_zero, Nat.zero_add, Nat.add_assoc]

theorem offsetOf_cons (b : Byte) (bs : List Byte) :
    offsetOf (b :: bs) = b.toNat * 256 ^ bs.length + offsetOf bs := by
  have h := offsetOf_foldl bs (256 * 0 + b.toNat)
  simpa [offsetOf] using h

/-- An offset of `n` bytes is below 256^n. -/
theorem offsetOf_lt (bs : List Byte) : offsetOf bs < 256 ^ bs.length := by
  induction bs with
  | nil => decide
  | cons b bs ih =>
    have hb : b.toNat + 1 ≤ 256 := b.isLt
    have h := Nat.mul_le_mul_right (256 ^ bs.length) hb
    rw [Nat.add_mul] at h
    rw [offsetOf_cons, List.length_cons, Nat.pow_succ]
    omega

/-- Multiples of 256^n do not show in the `n` bytes of an offset (R96). -/
theorem offsetBytes_add (n a k : Nat) : offsetBytes n (k * 256 ^ n + a) = offsetBytes n a := by
  induction n generalizing a k with
  | zero => rfl
  | succ n ih =>
    have e : k * 256 ^ (n + 1) + a = (k * 256) * 256 ^ n + a := by rw [Nat.pow_succ]; ac_rfl
    rw [offsetBytes, offsetBytes, e, ih]
    congr 1
    have hp : 2 ^ (8 * n) = 256 ^ n := by rw [Nat.pow_mul]
    apply BitVec.eq_of_toNat_eq
    simp only [BitVec.toNat_ofNat, Nat.shiftRight_eq_div_pow, hp]
    have hpos : 0 < 256 ^ n := Nat.pow_pos (by decide)
    rw [Nat.add_comm, Nat.add_mul_div_right _ _ hpos]
    omega

/-- The bytes of the offset of some bytes are those bytes. -/
theorem offsetBytes_offsetOf (bs : List Byte) : offsetBytes bs.length (offsetOf bs) = bs := by
  induction bs with
  | nil => rfl
  | cons b bs ih =>
    have hp : 2 ^ (8 * bs.length) = 256 ^ bs.length := by rw [Nat.pow_mul]
    have hpos : 0 < 256 ^ bs.length := Nat.pow_pos (by decide)
    rw [List.length_cons, offsetBytes, offsetOf_cons, offsetBytes_add, ih]
    congr 1
    apply BitVec.eq_of_toNat_eq
    have hd : (b.toNat * 256 ^ bs.length + offsetOf bs) / 256 ^ bs.length = b.toNat := by
      rw [Nat.add_comm, Nat.add_mul_div_right _ _ hpos, Nat.div_eq_of_lt (offsetOf_lt bs), Nat.zero_add]
    simp only [BitVec.toNat_ofNat, Nat.shiftRight_eq_div_pow, hp, hd]
    exact Nat.mod_eq_of_lt b.isLt

/-- The offset of the bytes of an offset is that offset, where it fits. -/
theorem offsetOf_offsetBytes (n a : Nat) (h : a < 256 ^ n) : offsetOf (offsetBytes n a) = a := by
  induction n generalizing a with
  | zero =>
    simp only [Nat.pow_zero] at h
    simp [offsetBytes, offsetOf]
    omega
  | succ n ih =>
    have hp : 2 ^ (8 * n) = 256 ^ n := by rw [Nat.pow_mul]
    have hpos : 0 < 256 ^ n := Nat.pow_pos (by decide)
    have hsplit : offsetBytes n a = offsetBytes n (a % 256 ^ n) := by
      have e := Nat.div_add_mod a (256 ^ n)
      have h' := offsetBytes_add n (a % 256 ^ n) (a / 256 ^ n)
      rw [Nat.mul_comm, e] at h'
      exact h'
    have hq : a / 256 ^ n < 256 := by
      rw [Nat.div_lt_iff_lt_mul hpos]
      rw [Nat.pow_succ, Nat.mul_comm] at h
      exact h
    rw [offsetBytes, offsetOf_cons, length_offsetBytes, hsplit, ih _ (Nat.mod_lt a hpos)]
    simp only [BitVec.toNat_ofNat, Nat.shiftRight_eq_div_pow, hp]
    have e := Nat.div_add_mod a (256 ^ n)
    rw [Nat.mod_eq_of_lt hq, Nat.mul_comm]
    exact e

/-- The offset field of a frame whose ADDR_BYTES offset bytes are `bs` (R96, R125). -/
theorem flashOffset_offsetOf (p : Params) (bs : List Byte) (h : bs.length = p.addrBytes) :
    Machine.flashOffset p (offsetOf bs) = bs := by
  have hlt : offsetOf bs < 2 ^ (8 * p.addrBytes) := by
    rw [Nat.pow_mul, ← h]
    exact offsetOf_lt bs
  rw [Machine.flashOffset, Nat.mod_eq_of_lt hlt, ← h, offsetBytes_offsetOf]

end Sys2Proof
end

