-- ==== Sys2Proof/Laws/State.lean ====
section
/-!
SUPPORT. One lemma per field per named update of State, each true by `rfl`, so that no later proof unfolds a record
update.
-/
namespace Sys2Proof.Machine

/-! ## emit -/

@[simp] theorem emit_params (s : State) (e : Event) : (s.emit e).params = s.params := rfl
@[simp] theorem emit_backendSel (s : State) (e : Event) : (s.emit e).backendSel = s.backendSel := rfl
@[simp] theorem emit_halfPeriod (s : State) (e : Event) : (s.emit e).halfPeriod = s.halfPeriod := rfl
@[simp] theorem emit_cs (s : State) (e : Event) : (s.emit e).cs = s.cs := rfl
@[simp] theorem emit_sck (s : State) (e : Event) : (s.emit e).sck = s.sck := rfl
@[simp] theorem emit_mosi (s : State) (e : Event) : (s.emit e).mosi = s.mosi := rfl
@[simp] theorem emit_acc (s : State) (e : Event) : (s.emit e).acc = s.acc := rfl
@[simp] theorem emit_cap (s : State) (e : Event) : (s.emit e).cap = s.cap := rfl
@[simp] theorem emit_outBuf (s : State) (e : Event) : (s.emit e).outBuf = s.outBuf := rfl
@[simp] theorem emit_inBuf (s : State) (e : Event) : (s.emit e).inBuf = s.inBuf := rfl
@[simp] theorem emit_result (s : State) (e : Event) : (s.emit e).result = s.result := rfl
@[simp] theorem emit_pres (s : State) (e : Event) : (s.emit e).pres = s.pres := rfl
@[simp] theorem emit_sr (s : State) (e : Event) : (s.emit e).sr = s.sr := rfl
@[simp] theorem emit_off (s : State) (e : Event) : (s.emit e).off = s.off := rfl
@[simp] theorem emit_ovr (s : State) (e : Event) : (s.emit e).ovr = s.ovr := rfl
@[simp] theorem emit_err (s : State) (e : Event) : (s.emit e).err = s.err := rfl
@[simp] theorem emit_ops (s : State) (e : Event) : (s.emit e).ops = s.ops := rfl
@[simp] theorem emit_hw (s : State) (e : Event) : (s.emit e).hw = s.hw := rfl
@[simp] theorem emit_hr (s : State) (e : Event) : (s.emit e).hr = s.hr := rfl
@[simp] theorem emit_top (s : State) (e : Event) : (s.emit e).top = s.top := rfl
@[simp] theorem emit_initph (s : State) (e : Event) : (s.emit e).initph = s.initph := rfl
@[simp] theorem emit_tx (s : State) (e : Event) : (s.emit e).tx = s.tx := rfl
@[simp] theorem emit_rd (s : State) (e : Event) : (s.emit e).rd = s.rd := rfl
@[simp] theorem emit_pp (s : State) (e : Event) : (s.emit e).pp = s.pp := rfl
@[simp] theorem emit_span (s : State) (e : Event) : (s.emit e).span = s.span := rfl
@[simp] theorem emit_trace (s : State) (e : Event) : (s.emit e).trace = e :: s.trace := rfl
@[simp] theorem emit_env (s : State) (e : Event) : (s.emit e).env = s.env := rfl

/-! ## delay -/

@[simp] theorem delay_params (s : State) : (delay s).params = s.params := rfl
@[simp] theorem delay_backendSel (s : State) : (delay s).backendSel = s.backendSel := rfl
@[simp] theorem delay_halfPeriod (s : State) : (delay s).halfPeriod = s.halfPeriod := rfl
@[simp] theorem delay_cs (s : State) : (delay s).cs = s.cs := rfl
@[simp] theorem delay_sck (s : State) : (delay s).sck = s.sck := rfl
@[simp] theorem delay_mosi (s : State) : (delay s).mosi = s.mosi := rfl
@[simp] theorem delay_acc (s : State) : (delay s).acc = s.acc := rfl
@[simp] theorem delay_cap (s : State) : (delay s).cap = s.cap := rfl
@[simp] theorem delay_outBuf (s : State) : (delay s).outBuf = s.outBuf := rfl
@[simp] theorem delay_inBuf (s : State) : (delay s).inBuf = s.inBuf := rfl
@[simp] theorem delay_result (s : State) : (delay s).result = s.result := rfl
@[simp] theorem delay_pres (s : State) : (delay s).pres = s.pres := rfl
@[simp] theorem delay_sr (s : State) : (delay s).sr = s.sr := rfl
@[simp] theorem delay_off (s : State) : (delay s).off = s.off := rfl
@[simp] theorem delay_ovr (s : State) : (delay s).ovr = s.ovr := rfl
@[simp] theorem delay_err (s : State) : (delay s).err = s.err := rfl
@[simp] theorem delay_ops (s : State) : (delay s).ops = s.ops := rfl
@[simp] theorem delay_hw (s : State) : (delay s).hw = s.hw := rfl
@[simp] theorem delay_hr (s : State) : (delay s).hr = s.hr := rfl
@[simp] theorem delay_top (s : State) : (delay s).top = s.top := rfl
@[simp] theorem delay_initph (s : State) : (delay s).initph = s.initph := rfl
@[simp] theorem delay_tx (s : State) : (delay s).tx = s.tx := rfl
@[simp] theorem delay_rd (s : State) : (delay s).rd = s.rd := rfl
@[simp] theorem delay_pp (s : State) : (delay s).pp = s.pp := rfl
@[simp] theorem delay_span (s : State) : (delay s).span = s.span := rfl
@[simp] theorem delay_trace (s : State) : (delay s).trace = .delay s.halfPeriod :: s.trace := rfl
@[simp] theorem delay_env (s : State) : (delay s).env = s.env := rfl

/-! ## atRest -/

@[simp] theorem atRest_params (s : State) : (s.atRest).params = s.params := rfl
@[simp] theorem atRest_backendSel (s : State) : (s.atRest).backendSel = s.backendSel := rfl
@[simp] theorem atRest_halfPeriod (s : State) : (s.atRest).halfPeriod = s.halfPeriod := rfl
@[simp] theorem atRest_cs (s : State) : (s.atRest).cs = s.cs := rfl
@[simp] theorem atRest_sck (s : State) : (s.atRest).sck = s.sck := rfl
@[simp] theorem atRest_mosi (s : State) : (s.atRest).mosi = s.mosi := rfl
@[simp] theorem atRest_acc (s : State) : (s.atRest).acc = s.acc := rfl
@[simp] theorem atRest_cap (s : State) : (s.atRest).cap = s.cap := rfl
@[simp] theorem atRest_outBuf (s : State) : (s.atRest).outBuf = s.outBuf := rfl
@[simp] theorem atRest_inBuf (s : State) : (s.atRest).inBuf = s.inBuf := rfl
@[simp] theorem atRest_result (s : State) : (s.atRest).result = s.result := rfl
@[simp] theorem atRest_pres (s : State) : (s.atRest).pres = s.pres := rfl
@[simp] theorem atRest_sr (s : State) : (s.atRest).sr = s.sr := rfl
@[simp] theorem atRest_off (s : State) : (s.atRest).off = s.off := rfl
@[simp] theorem atRest_ovr (s : State) : (s.atRest).ovr = s.ovr := rfl
@[simp] theorem atRest_err (s : State) : (s.atRest).err = s.err := rfl
@[simp] theorem atRest_ops (s : State) : (s.atRest).ops = s.ops := rfl
@[simp] theorem atRest_hw (s : State) : (s.atRest).hw = s.hw := rfl
@[simp] theorem atRest_hr (s : State) : (s.atRest).hr = s.hr := rfl
@[simp] theorem atRest_top (s : State) : (s.atRest).top = s.top := rfl
@[simp] theorem atRest_initph (s : State) : (s.atRest).initph = .latch := rfl
@[simp] theorem atRest_tx (s : State) : (s.atRest).tx = TxSeq.rest := rfl
@[simp] theorem atRest_rd (s : State) : (s.atRest).rd = ReadSeq.rest := rfl
@[simp] theorem atRest_pp (s : State) : (s.atRest).pp = PpSeq.rest := rfl
@[simp] theorem atRest_span (s : State) : (s.atRest).span = Span.rest := rfl
@[simp] theorem atRest_trace (s : State) : (s.atRest).trace = s.trace := rfl
@[simp] theorem atRest_env (s : State) : (s.atRest).env = s.env := rfl

/-! ## endOp -/

@[simp] theorem endOp_params (s : State) (code : Byte) : (s.endOp code).params = s.params := rfl
@[simp] theorem endOp_backendSel (s : State) (code : Byte) : (s.endOp code).backendSel = s.backendSel := rfl
@[simp] theorem endOp_halfPeriod (s : State) (code : Byte) : (s.endOp code).halfPeriod = s.halfPeriod := rfl
@[simp] theorem endOp_cs (s : State) (code : Byte) : (s.endOp code).cs = s.cs := rfl
@[simp] theorem endOp_sck (s : State) (code : Byte) : (s.endOp code).sck = s.sck := rfl
@[simp] theorem endOp_mosi (s : State) (code : Byte) : (s.endOp code).mosi = s.mosi := rfl
@[simp] theorem endOp_acc (s : State) (code : Byte) : (s.endOp code).acc = s.acc := rfl
@[simp] theorem endOp_cap (s : State) (code : Byte) : (s.endOp code).cap = s.cap := rfl
@[simp] theorem endOp_outBuf (s : State) (code : Byte) : (s.endOp code).outBuf = s.outBuf := rfl
@[simp] theorem endOp_inBuf (s : State) (code : Byte) : (s.endOp code).inBuf = s.inBuf := rfl
@[simp] theorem endOp_result (s : State) (code : Byte) : (s.endOp code).result = s.result := rfl
@[simp] theorem endOp_pres (s : State) (code : Byte) : (s.endOp code).pres = s.pres := rfl
@[simp] theorem endOp_sr (s : State) (code : Byte) : (s.endOp code).sr = s.sr := rfl
@[simp] theorem endOp_off (s : State) (code : Byte) : (s.endOp code).off = s.off := rfl
@[simp] theorem endOp_ovr (s : State) (code : Byte) : (s.endOp code).ovr = s.ovr := rfl
@[simp] theorem endOp_err (s : State) (code : Byte) : (s.endOp code).err = code := rfl
@[simp] theorem endOp_ops (s : State) (code : Byte) : (s.endOp code).ops = s.ops := rfl
@[simp] theorem endOp_hw (s : State) (code : Byte) : (s.endOp code).hw = s.hw := rfl
@[simp] theorem endOp_hr (s : State) (code : Byte) : (s.endOp code).hr = s.hr := rfl
@[simp] theorem endOp_top (s : State) (code : Byte) : (s.endOp code).top = .idle := rfl
@[simp] theorem endOp_initph (s : State) (code : Byte) : (s.endOp code).initph = .latch := rfl
@[simp] theorem endOp_tx (s : State) (code : Byte) : (s.endOp code).tx = TxSeq.rest := rfl
@[simp] theorem endOp_rd (s : State) (code : Byte) : (s.endOp code).rd = ReadSeq.rest := rfl
@[simp] theorem endOp_pp (s : State) (code : Byte) : (s.endOp code).pp = PpSeq.rest := rfl
@[simp] theorem endOp_span (s : State) (code : Byte) : (s.endOp code).span = Span.rest := rfl
@[simp] theorem endOp_trace (s : State) (code : Byte) : (s.endOp code).trace = s.trace := rfl
@[simp] theorem endOp_env (s : State) (code : Byte) : (s.endOp code).env = s.env := rfl

/-! ## raiseFatal -/

@[simp] theorem raiseFatal_params (s : State) (code : Byte) : (s.raiseFatal code).params = s.params := rfl
@[simp] theorem raiseFatal_backendSel (s : State) (code : Byte) : (s.raiseFatal code).backendSel = s.backendSel := rfl
@[simp] theorem raiseFatal_halfPeriod (s : State) (code : Byte) : (s.raiseFatal code).halfPeriod = s.halfPeriod := rfl
@[simp] theorem raiseFatal_cs (s : State) (code : Byte) : (s.raiseFatal code).cs = s.cs := rfl
@[simp] theorem raiseFatal_sck (s : State) (code : Byte) : (s.raiseFatal code).sck = s.sck := rfl
@[simp] theorem raiseFatal_mosi (s : State) (code : Byte) : (s.raiseFatal code).mosi = s.mosi := rfl
@[simp] theorem raiseFatal_acc (s : State) (code : Byte) : (s.raiseFatal code).acc = s.acc := rfl
@[simp] theorem raiseFatal_cap (s : State) (code : Byte) : (s.raiseFatal code).cap = s.cap := rfl
@[simp] theorem raiseFatal_outBuf (s : State) (code : Byte) : (s.raiseFatal code).outBuf = s.outBuf := rfl
@[simp] theorem raiseFatal_inBuf (s : State) (code : Byte) : (s.raiseFatal code).inBuf = s.inBuf := rfl
@[simp] theorem raiseFatal_result (s : State) (code : Byte) : (s.raiseFatal code).result = s.result := rfl
@[simp] theorem raiseFatal_pres (s : State) (code : Byte) : (s.raiseFatal code).pres = s.pres := rfl
@[simp] theorem raiseFatal_sr (s : State) (code : Byte) : (s.raiseFatal code).sr = s.sr := rfl
@[simp] theorem raiseFatal_off (s : State) (code : Byte) : (s.raiseFatal code).off = s.off := rfl
@[simp] theorem raiseFatal_ovr (s : State) (code : Byte) : (s.raiseFatal code).ovr = s.ovr := rfl
@[simp] theorem raiseFatal_err (s : State) (code : Byte) : (s.raiseFatal code).err = code := rfl
@[simp] theorem raiseFatal_ops (s : State) (code : Byte) : (s.raiseFatal code).ops = s.ops := rfl
@[simp] theorem raiseFatal_hw (s : State) (code : Byte) : (s.raiseFatal code).hw = s.hw := rfl
@[simp] theorem raiseFatal_hr (s : State) (code : Byte) : (s.raiseFatal code).hr = s.hr := rfl
@[simp] theorem raiseFatal_top (s : State) (code : Byte) : (s.raiseFatal code).top = .fatal := rfl
@[simp] theorem raiseFatal_initph (s : State) (code : Byte) : (s.raiseFatal code).initph = .latch := rfl
@[simp] theorem raiseFatal_tx (s : State) (code : Byte) : (s.raiseFatal code).tx = TxSeq.rest := rfl
@[simp] theorem raiseFatal_rd (s : State) (code : Byte) : (s.raiseFatal code).rd = ReadSeq.rest := rfl
@[simp] theorem raiseFatal_pp (s : State) (code : Byte) : (s.raiseFatal code).pp = PpSeq.rest := rfl
@[simp] theorem raiseFatal_span (s : State) (code : Byte) : (s.raiseFatal code).span = Span.rest := rfl
@[simp] theorem raiseFatal_trace (s : State) (code : Byte) : (s.raiseFatal code).trace = s.trace := rfl
@[simp] theorem raiseFatal_env (s : State) (code : Byte) : (s.raiseFatal code).env = s.env := rfl

/-! ## waitPoll -/

@[simp] theorem waitPoll_params (s : State) (total plen npoll : Nat) :
    (s.waitPoll total plen npoll).params = s.params := rfl
@[simp] theorem waitPoll_backendSel (s : State) (total plen npoll : Nat) :
    (s.waitPoll total plen npoll).backendSel = s.backendSel := rfl
@[simp] theorem waitPoll_halfPeriod (s : State) (total plen npoll : Nat) :
    (s.waitPoll total plen npoll).halfPeriod = s.halfPeriod := rfl
@[simp] theorem waitPoll_cs (s : State) (total plen npoll : Nat) : (s.waitPoll total plen npoll).cs = s.cs := rfl
@[simp] theorem waitPoll_sck (s : State) (total plen npoll : Nat) : (s.waitPoll total plen npoll).sck = s.sck := rfl
@[simp] theorem waitPoll_mosi (s : State) (total plen npoll : Nat) :
    (s.waitPoll total plen npoll).mosi = s.mosi := rfl
@[simp] theorem waitPoll_acc (s : State) (total plen npoll : Nat) : (s.waitPoll total plen npoll).acc = s.acc := rfl
@[simp] theorem waitPoll_cap (s : State) (total plen npoll : Nat) : (s.waitPoll total plen npoll).cap = s.cap := rfl
@[simp] theorem waitPoll_outBuf (s : State) (total plen npoll : Nat) :
    (s.waitPoll total plen npoll).outBuf = s.outBuf := rfl
@[simp] theorem waitPoll_inBuf (s : State) (total plen npoll : Nat) :
    (s.waitPoll total plen npoll).inBuf = s.inBuf := rfl
@[simp] theorem waitPoll_result (s : State) (total plen npoll : Nat) :
    (s.waitPoll total plen npoll).result = s.result := rfl
@[simp] theorem waitPoll_pres (s : State) (total plen npoll : Nat) :
    (s.waitPoll total plen npoll).pres = s.pres := rfl
@[simp] theorem waitPoll_sr (s : State) (total plen npoll : Nat) : (s.waitPoll total plen npoll).sr = s.sr := rfl
@[simp] theorem waitPoll_off (s : State) (total plen npoll : Nat) : (s.waitPoll total plen npoll).off = s.off := rfl
@[simp] theorem waitPoll_ovr (s : State) (total plen npoll : Nat) : (s.waitPoll total plen npoll).ovr = s.ovr := rfl
@[simp] theorem waitPoll_err (s : State) (total plen npoll : Nat) : (s.waitPoll total plen npoll).err = s.err := rfl
@[simp] theorem waitPoll_ops (s : State) (total plen npoll : Nat) : (s.waitPoll total plen npoll).ops = s.ops := rfl
@[simp] theorem waitPoll_hw (s : State) (total plen npoll : Nat) : (s.waitPoll total plen npoll).hw = s.hw := rfl
@[simp] theorem waitPoll_hr (s : State) (total plen npoll : Nat) : (s.waitPoll total plen npoll).hr = s.hr := rfl
@[simp] theorem waitPoll_top (s : State) (total plen npoll : Nat) : (s.waitPoll total plen npoll).top = s.top := rfl
@[simp] theorem waitPoll_initph (s : State) (total plen npoll : Nat) :
    (s.waitPoll total plen npoll).initph = .latch := rfl
@[simp] theorem waitPoll_tx (s : State) (total plen npoll : Nat) :
    (s.waitPoll total plen npoll).tx = TxSeq.rest := rfl
@[simp] theorem waitPoll_rd (s : State) (total plen npoll : Nat) :
    (s.waitPoll total plen npoll).rd = ReadSeq.rest := rfl
@[simp] theorem waitPoll_pp (s : State) (total plen npoll : Nat) :
    (s.waitPoll total plen npoll).pp = { PpSeq.rest with pps := .poll, total := total, plen := plen, npoll := npoll } := rfl
@[simp] theorem waitPoll_span (s : State) (total plen npoll : Nat) :
    (s.waitPoll total plen npoll).span = s.span := rfl
@[simp] theorem waitPoll_trace (s : State) (total plen npoll : Nat) :
    (s.waitPoll total plen npoll).trace = s.trace := rfl
@[simp] theorem waitPoll_env (s : State) (total plen npoll : Nat) : (s.waitPoll total plen npoll).env = s.env := rfl

/-! ## overrun -/

@[simp] theorem overrun_params (s : State) : (s.overrun).params = s.params := rfl
@[simp] theorem overrun_backendSel (s : State) : (s.overrun).backendSel = s.backendSel := rfl
@[simp] theorem overrun_halfPeriod (s : State) : (s.overrun).halfPeriod = s.halfPeriod := rfl
@[simp] theorem overrun_cs (s : State) : (s.overrun).cs = s.cs := rfl
@[simp] theorem overrun_sck (s : State) : (s.overrun).sck = s.sck := rfl
@[simp] theorem overrun_mosi (s : State) : (s.overrun).mosi = s.mosi := rfl
@[simp] theorem overrun_acc (s : State) : (s.overrun).acc = s.acc := rfl
@[simp] theorem overrun_cap (s : State) : (s.overrun).cap = s.cap := rfl
@[simp] theorem overrun_outBuf (s : State) : (s.overrun).outBuf = s.outBuf := rfl
@[simp] theorem overrun_inBuf (s : State) : (s.overrun).inBuf = s.inBuf := rfl
@[simp] theorem overrun_result (s : State) : (s.overrun).result = s.result := rfl
@[simp] theorem overrun_pres (s : State) : (s.overrun).pres = s.pres := rfl
@[simp] theorem overrun_sr (s : State) : (s.overrun).sr = s.sr := rfl
@[simp] theorem overrun_off (s : State) : (s.overrun).off = s.off := rfl
@[simp] theorem overrun_ovr (s : State) : (s.overrun).ovr = 1 := rfl
@[simp] theorem overrun_err (s : State) : (s.overrun).err = s.err := rfl
@[simp] theorem overrun_ops (s : State) : (s.overrun).ops = s.ops := rfl
@[simp] theorem overrun_hw (s : State) : (s.overrun).hw = s.hw := rfl
@[simp] theorem overrun_hr (s : State) : (s.overrun).hr = s.hr := rfl
@[simp] theorem overrun_top (s : State) : (s.overrun).top = s.top := rfl
@[simp] theorem overrun_initph (s : State) : (s.overrun).initph = s.initph := rfl
@[simp] theorem overrun_tx (s : State) : (s.overrun).tx = s.tx := rfl
@[simp] theorem overrun_rd (s : State) : (s.overrun).rd = s.rd := rfl
@[simp] theorem overrun_pp (s : State) : (s.overrun).pp = s.pp := rfl
@[simp] theorem overrun_span (s : State) : (s.overrun).span = s.span := rfl
@[simp] theorem overrun_trace (s : State) : (s.overrun).trace = s.trace := rfl
@[simp] theorem overrun_env (s : State) : (s.overrun).env = s.env := rfl

/-! ## withHost -/

@[simp] theorem withHost_params (s : State) (rest : List HostAct) : (s.withHost rest).params = s.params := rfl
@[simp] theorem withHost_backendSel (s : State) (rest : List HostAct) :
    (s.withHost rest).backendSel = s.backendSel := rfl
@[simp] theorem withHost_halfPeriod (s : State) (rest : List HostAct) :
    (s.withHost rest).halfPeriod = s.halfPeriod := rfl
@[simp] theorem withHost_cs (s : State) (rest : List HostAct) : (s.withHost rest).cs = s.cs := rfl
@[simp] theorem withHost_sck (s : State) (rest : List HostAct) : (s.withHost rest).sck = s.sck := rfl
@[simp] theorem withHost_mosi (s : State) (rest : List HostAct) : (s.withHost rest).mosi = s.mosi := rfl
@[simp] theorem withHost_acc (s : State) (rest : List HostAct) : (s.withHost rest).acc = s.acc := rfl
@[simp] theorem withHost_cap (s : State) (rest : List HostAct) : (s.withHost rest).cap = s.cap := rfl
@[simp] theorem withHost_outBuf (s : State) (rest : List HostAct) : (s.withHost rest).outBuf = s.outBuf := rfl
@[simp] theorem withHost_inBuf (s : State) (rest : List HostAct) : (s.withHost rest).inBuf = s.inBuf := rfl
@[simp] theorem withHost_result (s : State) (rest : List HostAct) : (s.withHost rest).result = s.result := rfl
@[simp] theorem withHost_pres (s : State) (rest : List HostAct) : (s.withHost rest).pres = s.pres := rfl
@[simp] theorem withHost_sr (s : State) (rest : List HostAct) : (s.withHost rest).sr = s.sr := rfl
@[simp] theorem withHost_off (s : State) (rest : List HostAct) : (s.withHost rest).off = s.off := rfl
@[simp] theorem withHost_ovr (s : State) (rest : List HostAct) : (s.withHost rest).ovr = s.ovr := rfl
@[simp] theorem withHost_err (s : State) (rest : List HostAct) : (s.withHost rest).err = s.err := rfl
@[simp] theorem withHost_ops (s : State) (rest : List HostAct) : (s.withHost rest).ops = s.ops := rfl
@[simp] theorem withHost_hw (s : State) (rest : List HostAct) : (s.withHost rest).hw = s.hw := rfl
@[simp] theorem withHost_hr (s : State) (rest : List HostAct) : (s.withHost rest).hr = s.hr := rfl
@[simp] theorem withHost_top (s : State) (rest : List HostAct) : (s.withHost rest).top = s.top := rfl
@[simp] theorem withHost_initph (s : State) (rest : List HostAct) : (s.withHost rest).initph = s.initph := rfl
@[simp] theorem withHost_tx (s : State) (rest : List HostAct) : (s.withHost rest).tx = s.tx := rfl
@[simp] theorem withHost_rd (s : State) (rest : List HostAct) : (s.withHost rest).rd = s.rd := rfl
@[simp] theorem withHost_pp (s : State) (rest : List HostAct) : (s.withHost rest).pp = s.pp := rfl
@[simp] theorem withHost_span (s : State) (rest : List HostAct) : (s.withHost rest).span = s.span := rfl
@[simp] theorem withHost_trace (s : State) (rest : List HostAct) : (s.withHost rest).trace = s.trace := rfl
@[simp] theorem withHost_env (s : State) (rest : List HostAct) :
    (s.withHost rest).env = { s.env with host := rest } := rfl

/-! ## hostGets -/

@[simp] theorem hostGets_params (s : State) (v : Word) : (s.hostGets v).params = s.params := rfl
@[simp] theorem hostGets_backendSel (s : State) (v : Word) : (s.hostGets v).backendSel = s.backendSel := rfl
@[simp] theorem hostGets_halfPeriod (s : State) (v : Word) : (s.hostGets v).halfPeriod = s.halfPeriod := rfl
@[simp] theorem hostGets_cs (s : State) (v : Word) : (s.hostGets v).cs = s.cs := rfl
@[simp] theorem hostGets_sck (s : State) (v : Word) : (s.hostGets v).sck = s.sck := rfl
@[simp] theorem hostGets_mosi (s : State) (v : Word) : (s.hostGets v).mosi = s.mosi := rfl
@[simp] theorem hostGets_acc (s : State) (v : Word) : (s.hostGets v).acc = s.acc := rfl
@[simp] theorem hostGets_cap (s : State) (v : Word) : (s.hostGets v).cap = s.cap := rfl
@[simp] theorem hostGets_outBuf (s : State) (v : Word) : (s.hostGets v).outBuf = s.outBuf := rfl
@[simp] theorem hostGets_inBuf (s : State) (v : Word) : (s.hostGets v).inBuf = s.inBuf := rfl
@[simp] theorem hostGets_result (s : State) (v : Word) : (s.hostGets v).result = s.result := rfl
@[simp] theorem hostGets_pres (s : State) (v : Word) : (s.hostGets v).pres = s.pres := rfl
@[simp] theorem hostGets_sr (s : State) (v : Word) : (s.hostGets v).sr = s.sr := rfl
@[simp] theorem hostGets_off (s : State) (v : Word) : (s.hostGets v).off = s.off := rfl
@[simp] theorem hostGets_ovr (s : State) (v : Word) : (s.hostGets v).ovr = s.ovr := rfl
@[simp] theorem hostGets_err (s : State) (v : Word) : (s.hostGets v).err = s.err := rfl
@[simp] theorem hostGets_ops (s : State) (v : Word) : (s.hostGets v).ops = s.ops := rfl
@[simp] theorem hostGets_hw (s : State) (v : Word) : (s.hostGets v).hw = s.hw := rfl
@[simp] theorem hostGets_hr (s : State) (v : Word) : (s.hostGets v).hr = s.hr := rfl
@[simp] theorem hostGets_top (s : State) (v : Word) : (s.hostGets v).top = s.top := rfl
@[simp] theorem hostGets_initph (s : State) (v : Word) : (s.hostGets v).initph = s.initph := rfl
@[simp] theorem hostGets_tx (s : State) (v : Word) : (s.hostGets v).tx = s.tx := rfl
@[simp] theorem hostGets_rd (s : State) (v : Word) : (s.hostGets v).rd = s.rd := rfl
@[simp] theorem hostGets_pp (s : State) (v : Word) : (s.hostGets v).pp = s.pp := rfl
@[simp] theorem hostGets_span (s : State) (v : Word) : (s.hostGets v).span = s.span := rfl
@[simp] theorem hostGets_trace (s : State) (v : Word) : (s.hostGets v).trace = s.trace := rfl
@[simp] theorem hostGets_env (s : State) (v : Word) : (s.hostGets v).env = { s.env with hostRead := v } := rfl

/-! ## dropPageCall -/

@[simp] theorem dropPageCall_params (s : State) : (s.dropPageCall).params = s.params := rfl
@[simp] theorem dropPageCall_backendSel (s : State) : (s.dropPageCall).backendSel = s.backendSel := rfl
@[simp] theorem dropPageCall_halfPeriod (s : State) : (s.dropPageCall).halfPeriod = s.halfPeriod := rfl
@[simp] theorem dropPageCall_cs (s : State) : (s.dropPageCall).cs = s.cs := rfl
@[simp] theorem dropPageCall_sck (s : State) : (s.dropPageCall).sck = s.sck := rfl
@[simp] theorem dropPageCall_mosi (s : State) : (s.dropPageCall).mosi = s.mosi := rfl
@[simp] theorem dropPageCall_acc (s : State) : (s.dropPageCall).acc = s.acc := rfl
@[simp] theorem dropPageCall_cap (s : State) : (s.dropPageCall).cap = s.cap := rfl
@[simp] theorem dropPageCall_outBuf (s : State) : (s.dropPageCall).outBuf = s.outBuf := rfl
@[simp] theorem dropPageCall_inBuf (s : State) : (s.dropPageCall).inBuf = s.inBuf := rfl
@[simp] theorem dropPageCall_result (s : State) : (s.dropPageCall).result = s.result := rfl
@[simp] theorem dropPageCall_pres (s : State) : (s.dropPageCall).pres = s.pres := rfl
@[simp] theorem dropPageCall_sr (s : State) : (s.dropPageCall).sr = s.sr := rfl
@[simp] theorem dropPageCall_off (s : State) : (s.dropPageCall).off = s.off := rfl
@[simp] theorem dropPageCall_ovr (s : State) : (s.dropPageCall).ovr = s.ovr := rfl
@[simp] theorem dropPageCall_err (s : State) : (s.dropPageCall).err = s.err := rfl
@[simp] theorem dropPageCall_ops (s : State) : (s.dropPageCall).ops = s.ops := rfl
@[simp] theorem dropPageCall_hw (s : State) : (s.dropPageCall).hw = s.hw := rfl
@[simp] theorem dropPageCall_hr (s : State) : (s.dropPageCall).hr = s.hr := rfl
@[simp] theorem dropPageCall_top (s : State) : (s.dropPageCall).top = s.top := rfl
@[simp] theorem dropPageCall_initph (s : State) : (s.dropPageCall).initph = s.initph := rfl
@[simp] theorem dropPageCall_tx (s : State) : (s.dropPageCall).tx = s.tx := rfl
@[simp] theorem dropPageCall_rd (s : State) : (s.dropPageCall).rd = s.rd := rfl
@[simp] theorem dropPageCall_pp (s : State) : (s.dropPageCall).pp = s.pp := rfl
@[simp] theorem dropPageCall_span (s : State) : (s.dropPageCall).span = s.span := rfl
@[simp] theorem dropPageCall_trace (s : State) : (s.dropPageCall).trace = s.trace := rfl
@[simp] theorem dropPageCall_env (s : State) :
    (s.dropPageCall).env = { s.env with pageCalls := s.env.pageCalls.tail } := rfl

/-! ## dropStatusCall -/

@[simp] theorem dropStatusCall_params (s : State) : (s.dropStatusCall).params = s.params := rfl
@[simp] theorem dropStatusCall_backendSel (s : State) : (s.dropStatusCall).backendSel = s.backendSel := rfl
@[simp] theorem dropStatusCall_halfPeriod (s : State) : (s.dropStatusCall).halfPeriod = s.halfPeriod := rfl
@[simp] theorem dropStatusCall_cs (s : State) : (s.dropStatusCall).cs = s.cs := rfl
@[simp] theorem dropStatusCall_sck (s : State) : (s.dropStatusCall).sck = s.sck := rfl
@[simp] theorem dropStatusCall_mosi (s : State) : (s.dropStatusCall).mosi = s.mosi := rfl
@[simp] theorem dropStatusCall_acc (s : State) : (s.dropStatusCall).acc = s.acc := rfl
@[simp] theorem dropStatusCall_cap (s : State) : (s.dropStatusCall).cap = s.cap := rfl
@[simp] theorem dropStatusCall_outBuf (s : State) : (s.dropStatusCall).outBuf = s.outBuf := rfl
@[simp] theorem dropStatusCall_inBuf (s : State) : (s.dropStatusCall).inBuf = s.inBuf := rfl
@[simp] theorem dropStatusCall_result (s : State) : (s.dropStatusCall).result = s.result := rfl
@[simp] theorem dropStatusCall_pres (s : State) : (s.dropStatusCall).pres = s.pres := rfl
@[simp] theorem dropStatusCall_sr (s : State) : (s.dropStatusCall).sr = s.sr := rfl
@[simp] theorem dropStatusCall_off (s : State) : (s.dropStatusCall).off = s.off := rfl
@[simp] theorem dropStatusCall_ovr (s : State) : (s.dropStatusCall).ovr = s.ovr := rfl
@[simp] theorem dropStatusCall_err (s : State) : (s.dropStatusCall).err = s.err := rfl
@[simp] theorem dropStatusCall_ops (s : State) : (s.dropStatusCall).ops = s.ops := rfl
@[simp] theorem dropStatusCall_hw (s : State) : (s.dropStatusCall).hw = s.hw := rfl
@[simp] theorem dropStatusCall_hr (s : State) : (s.dropStatusCall).hr = s.hr := rfl
@[simp] theorem dropStatusCall_top (s : State) : (s.dropStatusCall).top = s.top := rfl
@[simp] theorem dropStatusCall_initph (s : State) : (s.dropStatusCall).initph = s.initph := rfl
@[simp] theorem dropStatusCall_tx (s : State) : (s.dropStatusCall).tx = s.tx := rfl
@[simp] theorem dropStatusCall_rd (s : State) : (s.dropStatusCall).rd = s.rd := rfl
@[simp] theorem dropStatusCall_pp (s : State) : (s.dropStatusCall).pp = s.pp := rfl
@[simp] theorem dropStatusCall_span (s : State) : (s.dropStatusCall).span = s.span := rfl
@[simp] theorem dropStatusCall_trace (s : State) : (s.dropStatusCall).trace = s.trace := rfl
@[simp] theorem dropStatusCall_env (s : State) :
    (s.dropStatusCall).env = { s.env with statusCalls := s.env.statusCalls.tail } := rfl

/-! ## writeHr -/

@[simp] theorem writeHr_params (s : State) (a : Nat) (bs : List Byte) : (s.writeHr a bs).params = s.params := rfl
@[simp] theorem writeHr_backendSel (s : State) (a : Nat) (bs : List Byte) :
    (s.writeHr a bs).backendSel = s.backendSel := rfl
@[simp] theorem writeHr_halfPeriod (s : State) (a : Nat) (bs : List Byte) :
    (s.writeHr a bs).halfPeriod = s.halfPeriod := rfl
@[simp] theorem writeHr_cs (s : State) (a : Nat) (bs : List Byte) : (s.writeHr a bs).cs = s.cs := rfl
@[simp] theorem writeHr_sck (s : State) (a : Nat) (bs : List Byte) : (s.writeHr a bs).sck = s.sck := rfl
@[simp] theorem writeHr_mosi (s : State) (a : Nat) (bs : List Byte) : (s.writeHr a bs).mosi = s.mosi := rfl
@[simp] theorem writeHr_acc (s : State) (a : Nat) (bs : List Byte) : (s.writeHr a bs).acc = s.acc := rfl
@[simp] theorem writeHr_cap (s : State) (a : Nat) (bs : List Byte) : (s.writeHr a bs).cap = s.cap := rfl
@[simp] theorem writeHr_outBuf (s : State) (a : Nat) (bs : List Byte) : (s.writeHr a bs).outBuf = s.outBuf := rfl
@[simp] theorem writeHr_inBuf (s : State) (a : Nat) (bs : List Byte) : (s.writeHr a bs).inBuf = s.inBuf := rfl
@[simp] theorem writeHr_result (s : State) (a : Nat) (bs : List Byte) : (s.writeHr a bs).result = s.result := rfl
@[simp] theorem writeHr_pres (s : State) (a : Nat) (bs : List Byte) : (s.writeHr a bs).pres = s.pres := rfl
@[simp] theorem writeHr_sr (s : State) (a : Nat) (bs : List Byte) : (s.writeHr a bs).sr = s.sr := rfl
@[simp] theorem writeHr_off (s : State) (a : Nat) (bs : List Byte) : (s.writeHr a bs).off = s.off := rfl
@[simp] theorem writeHr_ovr (s : State) (a : Nat) (bs : List Byte) : (s.writeHr a bs).ovr = s.ovr := rfl
@[simp] theorem writeHr_err (s : State) (a : Nat) (bs : List Byte) : (s.writeHr a bs).err = s.err := rfl
@[simp] theorem writeHr_ops (s : State) (a : Nat) (bs : List Byte) : (s.writeHr a bs).ops = s.ops := rfl
@[simp] theorem writeHr_hw (s : State) (a : Nat) (bs : List Byte) : (s.writeHr a bs).hw = s.hw := rfl
@[simp] theorem writeHr_hr (s : State) (a : Nat) (bs : List Byte) :
    (s.writeHr a bs).hr = memWriteRange s.hr a bs := rfl
@[simp] theorem writeHr_top (s : State) (a : Nat) (bs : List Byte) : (s.writeHr a bs).top = s.top := rfl
@[simp] theorem writeHr_initph (s : State) (a : Nat) (bs : List Byte) : (s.writeHr a bs).initph = s.initph := rfl
@[simp] theorem writeHr_tx (s : State) (a : Nat) (bs : List Byte) : (s.writeHr a bs).tx = s.tx := rfl
@[simp] theorem writeHr_rd (s : State) (a : Nat) (bs : List Byte) : (s.writeHr a bs).rd = s.rd := rfl
@[simp] theorem writeHr_pp (s : State) (a : Nat) (bs : List Byte) : (s.writeHr a bs).pp = s.pp := rfl
@[simp] theorem writeHr_span (s : State) (a : Nat) (bs : List Byte) : (s.writeHr a bs).span = s.span := rfl
@[simp] theorem writeHr_trace (s : State) (a : Nat) (bs : List Byte) : (s.writeHr a bs).trace = s.trace := rfl
@[simp] theorem writeHr_env (s : State) (a : Nat) (bs : List Byte) : (s.writeHr a bs).env = s.env := rfl

/-! ## storeIn -/

@[simp] theorem storeIn_params (s : State) (p : Nat) (u : Byte) : (storeIn p u s).params = s.params := rfl
@[simp] theorem storeIn_backendSel (s : State) (p : Nat) (u : Byte) : (storeIn p u s).backendSel = s.backendSel := rfl
@[simp] theorem storeIn_halfPeriod (s : State) (p : Nat) (u : Byte) : (storeIn p u s).halfPeriod = s.halfPeriod := rfl
@[simp] theorem storeIn_cs (s : State) (p : Nat) (u : Byte) : (storeIn p u s).cs = s.cs := rfl
@[simp] theorem storeIn_sck (s : State) (p : Nat) (u : Byte) : (storeIn p u s).sck = s.sck := rfl
@[simp] theorem storeIn_mosi (s : State) (p : Nat) (u : Byte) : (storeIn p u s).mosi = s.mosi := rfl
@[simp] theorem storeIn_acc (s : State) (p : Nat) (u : Byte) : (storeIn p u s).acc = s.acc := rfl
@[simp] theorem storeIn_cap (s : State) (p : Nat) (u : Byte) : (storeIn p u s).cap = s.cap := rfl
@[simp] theorem storeIn_outBuf (s : State) (p : Nat) (u : Byte) : (storeIn p u s).outBuf = s.outBuf := rfl
@[simp] theorem storeIn_inBuf (s : State) (p : Nat) (u : Byte) : (storeIn p u s).inBuf = memWrite s.inBuf p u := rfl
@[simp] theorem storeIn_result (s : State) (p : Nat) (u : Byte) : (storeIn p u s).result = s.result := rfl
@[simp] theorem storeIn_pres (s : State) (p : Nat) (u : Byte) : (storeIn p u s).pres = s.pres := rfl
@[simp] theorem storeIn_sr (s : State) (p : Nat) (u : Byte) : (storeIn p u s).sr = s.sr := rfl
@[simp] theorem storeIn_off (s : State) (p : Nat) (u : Byte) : (storeIn p u s).off = s.off := rfl
@[simp] theorem storeIn_ovr (s : State) (p : Nat) (u : Byte) : (storeIn p u s).ovr = s.ovr := rfl
@[simp] theorem storeIn_err (s : State) (p : Nat) (u : Byte) : (storeIn p u s).err = s.err := rfl
@[simp] theorem storeIn_ops (s : State) (p : Nat) (u : Byte) : (storeIn p u s).ops = s.ops := rfl
@[simp] theorem storeIn_hw (s : State) (p : Nat) (u : Byte) : (storeIn p u s).hw = s.hw := rfl
@[simp] theorem storeIn_hr (s : State) (p : Nat) (u : Byte) : (storeIn p u s).hr = s.hr := rfl
@[simp] theorem storeIn_top (s : State) (p : Nat) (u : Byte) : (storeIn p u s).top = s.top := rfl
@[simp] theorem storeIn_initph (s : State) (p : Nat) (u : Byte) : (storeIn p u s).initph = s.initph := rfl
@[simp] theorem storeIn_tx (s : State) (p : Nat) (u : Byte) : (storeIn p u s).tx = s.tx := rfl
@[simp] theorem storeIn_rd (s : State) (p : Nat) (u : Byte) : (storeIn p u s).rd = s.rd := rfl
@[simp] theorem storeIn_pp (s : State) (p : Nat) (u : Byte) : (storeIn p u s).pp = s.pp := rfl
@[simp] theorem storeIn_span (s : State) (p : Nat) (u : Byte) : (storeIn p u s).span = s.span := rfl
@[simp] theorem storeIn_trace (s : State) (p : Nat) (u : Byte) : (storeIn p u s).trace = s.trace := rfl
@[simp] theorem storeIn_env (s : State) (p : Nat) (u : Byte) : (storeIn p u s).env = s.env := rfl

/-! ## fillScratch -/

@[simp] theorem fillScratch_params (s : State) (wbytes : List Byte) (r : Nat) :
    (fillScratch wbytes r s).params = s.params := rfl
@[simp] theorem fillScratch_backendSel (s : State) (wbytes : List Byte) (r : Nat) :
    (fillScratch wbytes r s).backendSel = s.backendSel := rfl
@[simp] theorem fillScratch_halfPeriod (s : State) (wbytes : List Byte) (r : Nat) :
    (fillScratch wbytes r s).halfPeriod = s.halfPeriod := rfl
@[simp] theorem fillScratch_cs (s : State) (wbytes : List Byte) (r : Nat) : (fillScratch wbytes r s).cs = s.cs := rfl
@[simp] theorem fillScratch_sck (s : State) (wbytes : List Byte) (r : Nat) :
    (fillScratch wbytes r s).sck = s.sck := rfl
@[simp] theorem fillScratch_mosi (s : State) (wbytes : List Byte) (r : Nat) :
    (fillScratch wbytes r s).mosi = s.mosi := rfl
@[simp] theorem fillScratch_acc (s : State) (wbytes : List Byte) (r : Nat) :
    (fillScratch wbytes r s).acc = s.acc := rfl
@[simp] theorem fillScratch_cap (s : State) (wbytes : List Byte) (r : Nat) :
    (fillScratch wbytes r s).cap = s.cap := rfl
@[simp] theorem fillScratch_outBuf (s : State) (wbytes : List Byte) (r : Nat) :
    (fillScratch wbytes r s).outBuf = memWriteRange (memWriteRange s.outBuf 0 wbytes) wbytes.length (List.replicate r s.params.filler) := rfl
@[simp] theorem fillScratch_inBuf (s : State) (wbytes : List Byte) (r : Nat) :
    (fillScratch wbytes r s).inBuf = memWriteRange s.inBuf wbytes.length (List.replicate r s.params.sentinel) := rfl
@[simp] theorem fillScratch_result (s : State) (wbytes : List Byte) (r : Nat) :
    (fillScratch wbytes r s).result = s.result := rfl
@[simp] theorem fillScratch_pres (s : State) (wbytes : List Byte) (r : Nat) :
    (fillScratch wbytes r s).pres = s.pres := rfl
@[simp] theorem fillScratch_sr (s : State) (wbytes : List Byte) (r : Nat) : (fillScratch wbytes r s).sr = s.sr := rfl
@[simp] theorem fillScratch_off (s : State) (wbytes : List Byte) (r : Nat) :
    (fillScratch wbytes r s).off = s.off := rfl
@[simp] theorem fillScratch_ovr (s : State) (wbytes : List Byte) (r : Nat) :
    (fillScratch wbytes r s).ovr = s.ovr := rfl
@[simp] theorem fillScratch_err (s : State) (wbytes : List Byte) (r : Nat) :
    (fillScratch wbytes r s).err = s.err := rfl
@[simp] theorem fillScratch_ops (s : State) (wbytes : List Byte) (r : Nat) :
    (fillScratch wbytes r s).ops = s.ops := rfl
@[simp] theorem fillScratch_hw (s : State) (wbytes : List Byte) (r : Nat) : (fillScratch wbytes r s).hw = s.hw := rfl
@[simp] theorem fillScratch_hr (s : State) (wbytes : List Byte) (r : Nat) : (fillScratch wbytes r s).hr = s.hr := rfl
@[simp] theorem fillScratch_top (s : State) (wbytes : List Byte) (r : Nat) :
    (fillScratch wbytes r s).top = s.top := rfl
@[simp] theorem fillScratch_initph (s : State) (wbytes : List Byte) (r : Nat) :
    (fillScratch wbytes r s).initph = s.initph := rfl
@[simp] theorem fillScratch_tx (s : State) (wbytes : List Byte) (r : Nat) : (fillScratch wbytes r s).tx = s.tx := rfl
@[simp] theorem fillScratch_rd (s : State) (wbytes : List Byte) (r : Nat) : (fillScratch wbytes r s).rd = s.rd := rfl
@[simp] theorem fillScratch_pp (s : State) (wbytes : List Byte) (r : Nat) : (fillScratch wbytes r s).pp = s.pp := rfl
@[simp] theorem fillScratch_span (s : State) (wbytes : List Byte) (r : Nat) :
    (fillScratch wbytes r s).span = s.span := rfl
@[simp] theorem fillScratch_trace (s : State) (wbytes : List Byte) (r : Nat) :
    (fillScratch wbytes r s).trace = s.trace := rfl
@[simp] theorem fillScratch_env (s : State) (wbytes : List Byte) (r : Nat) :
    (fillScratch wbytes r s).env = s.env := rfl

/-! ## initLatch -/

@[simp] theorem initLatch_params (s : State) : (initLatch s).params = s.params := rfl
@[simp] theorem initLatch_backendSel (s : State) : (initLatch s).backendSel = s.ops.cfgBackend := rfl
@[simp] theorem initLatch_halfPeriod (s : State) : (initLatch s).halfPeriod = s.ops.cfgHalfPeriod := rfl
@[simp] theorem initLatch_cs (s : State) : (initLatch s).cs = s.cs := rfl
@[simp] theorem initLatch_sck (s : State) : (initLatch s).sck = s.sck := rfl
@[simp] theorem initLatch_mosi (s : State) : (initLatch s).mosi = s.mosi := rfl
@[simp] theorem initLatch_acc (s : State) : (initLatch s).acc = s.acc := rfl
@[simp] theorem initLatch_cap (s : State) : (initLatch s).cap = s.cap := rfl
@[simp] theorem initLatch_outBuf (s : State) : (initLatch s).outBuf = s.outBuf := rfl
@[simp] theorem initLatch_inBuf (s : State) : (initLatch s).inBuf = s.inBuf := rfl
@[simp] theorem initLatch_result (s : State) : (initLatch s).result = s.result := rfl
@[simp] theorem initLatch_pres (s : State) : (initLatch s).pres = s.pres := rfl
@[simp] theorem initLatch_sr (s : State) : (initLatch s).sr = s.sr := rfl
@[simp] theorem initLatch_off (s : State) : (initLatch s).off = s.off := rfl
@[simp] theorem initLatch_ovr (s : State) : (initLatch s).ovr = s.ovr := rfl
@[simp] theorem initLatch_err (s : State) : (initLatch s).err = s.err := rfl
@[simp] theorem initLatch_ops (s : State) : (initLatch s).ops = s.ops := rfl
@[simp] theorem initLatch_hw (s : State) : (initLatch s).hw = s.hw := rfl
@[simp] theorem initLatch_hr (s : State) : (initLatch s).hr = s.hr := rfl
@[simp] theorem initLatch_top (s : State) : (initLatch s).top = s.top := rfl
@[simp] theorem initLatch_initph (s : State) : (initLatch s).initph = s.initph := rfl
@[simp] theorem initLatch_tx (s : State) : (initLatch s).tx = s.tx := rfl
@[simp] theorem initLatch_rd (s : State) : (initLatch s).rd = s.rd := rfl
@[simp] theorem initLatch_pp (s : State) : (initLatch s).pp = s.pp := rfl
@[simp] theorem initLatch_span (s : State) : (initLatch s).span = s.span := rfl
@[simp] theorem initLatch_trace (s : State) : (initLatch s).trace = s.trace := rfl
@[simp] theorem initLatch_env (s : State) : (initLatch s).env = s.env := rfl

/-! ## atBitph -/

@[simp] theorem atBitph_params (s : State) (ph : BitPhase) : (s.atBitph ph).params = s.params := rfl
@[simp] theorem atBitph_backendSel (s : State) (ph : BitPhase) : (s.atBitph ph).backendSel = s.backendSel := rfl
@[simp] theorem atBitph_halfPeriod (s : State) (ph : BitPhase) : (s.atBitph ph).halfPeriod = s.halfPeriod := rfl
@[simp] theorem atBitph_cs (s : State) (ph : BitPhase) : (s.atBitph ph).cs = s.cs := rfl
@[simp] theorem atBitph_sck (s : State) (ph : BitPhase) : (s.atBitph ph).sck = s.sck := rfl
@[simp] theorem atBitph_mosi (s : State) (ph : BitPhase) : (s.atBitph ph).mosi = s.mosi := rfl
@[simp] theorem atBitph_acc (s : State) (ph : BitPhase) : (s.atBitph ph).acc = s.acc := rfl
@[simp] theorem atBitph_cap (s : State) (ph : BitPhase) : (s.atBitph ph).cap = s.cap := rfl
@[simp] theorem atBitph_outBuf (s : State) (ph : BitPhase) : (s.atBitph ph).outBuf = s.outBuf := rfl
@[simp] theorem atBitph_inBuf (s : State) (ph : BitPhase) : (s.atBitph ph).inBuf = s.inBuf := rfl
@[simp] theorem atBitph_result (s : State) (ph : BitPhase) : (s.atBitph ph).result = s.result := rfl
@[simp] theorem atBitph_pres (s : State) (ph : BitPhase) : (s.atBitph ph).pres = s.pres := rfl
@[simp] theorem atBitph_sr (s : State) (ph : BitPhase) : (s.atBitph ph).sr = s.sr := rfl
@[simp] theorem atBitph_off (s : State) (ph : BitPhase) : (s.atBitph ph).off = s.off := rfl
@[simp] theorem atBitph_ovr (s : State) (ph : BitPhase) : (s.atBitph ph).ovr = s.ovr := rfl
@[simp] theorem atBitph_err (s : State) (ph : BitPhase) : (s.atBitph ph).err = s.err := rfl
@[simp] theorem atBitph_ops (s : State) (ph : BitPhase) : (s.atBitph ph).ops = s.ops := rfl
@[simp] theorem atBitph_hw (s : State) (ph : BitPhase) : (s.atBitph ph).hw = s.hw := rfl
@[simp] theorem atBitph_hr (s : State) (ph : BitPhase) : (s.atBitph ph).hr = s.hr := rfl
@[simp] theorem atBitph_top (s : State) (ph : BitPhase) : (s.atBitph ph).top = s.top := rfl
@[simp] theorem atBitph_initph (s : State) (ph : BitPhase) : (s.atBitph ph).initph = s.initph := rfl
@[simp] theorem atBitph_tx (s : State) (ph : BitPhase) : (s.atBitph ph).tx = { s.tx with bitph := ph } := rfl
@[simp] theorem atBitph_rd (s : State) (ph : BitPhase) : (s.atBitph ph).rd = s.rd := rfl
@[simp] theorem atBitph_pp (s : State) (ph : BitPhase) : (s.atBitph ph).pp = s.pp := rfl
@[simp] theorem atBitph_span (s : State) (ph : BitPhase) : (s.atBitph ph).span = s.span := rfl
@[simp] theorem atBitph_trace (s : State) (ph : BitPhase) : (s.atBitph ph).trace = s.trace := rfl
@[simp] theorem atBitph_env (s : State) (ph : BitPhase) : (s.atBitph ph).env = s.env := rfl

/-! ## atTxs -/

@[simp] theorem atTxs_params (s : State) (ph : TxPhase) : (s.atTxs ph).params = s.params := rfl
@[simp] theorem atTxs_backendSel (s : State) (ph : TxPhase) : (s.atTxs ph).backendSel = s.backendSel := rfl
@[simp] theorem atTxs_halfPeriod (s : State) (ph : TxPhase) : (s.atTxs ph).halfPeriod = s.halfPeriod := rfl
@[simp] theorem atTxs_cs (s : State) (ph : TxPhase) : (s.atTxs ph).cs = s.cs := rfl
@[simp] theorem atTxs_sck (s : State) (ph : TxPhase) : (s.atTxs ph).sck = s.sck := rfl
@[simp] theorem atTxs_mosi (s : State) (ph : TxPhase) : (s.atTxs ph).mosi = s.mosi := rfl
@[simp] theorem atTxs_acc (s : State) (ph : TxPhase) : (s.atTxs ph).acc = s.acc := rfl
@[simp] theorem atTxs_cap (s : State) (ph : TxPhase) : (s.atTxs ph).cap = s.cap := rfl
@[simp] theorem atTxs_outBuf (s : State) (ph : TxPhase) : (s.atTxs ph).outBuf = s.outBuf := rfl
@[simp] theorem atTxs_inBuf (s : State) (ph : TxPhase) : (s.atTxs ph).inBuf = s.inBuf := rfl
@[simp] theorem atTxs_result (s : State) (ph : TxPhase) : (s.atTxs ph).result = s.result := rfl
@[simp] theorem atTxs_pres (s : State) (ph : TxPhase) : (s.atTxs ph).pres = s.pres := rfl
@[simp] theorem atTxs_sr (s : State) (ph : TxPhase) : (s.atTxs ph).sr = s.sr := rfl
@[simp] theorem atTxs_off (s : State) (ph : TxPhase) : (s.atTxs ph).off = s.off := rfl
@[simp] theorem atTxs_ovr (s : State) (ph : TxPhase) : (s.atTxs ph).ovr = s.ovr := rfl
@[simp] theorem atTxs_err (s : State) (ph : TxPhase) : (s.atTxs ph).err = s.err := rfl
@[simp] theorem atTxs_ops (s : State) (ph : TxPhase) : (s.atTxs ph).ops = s.ops := rfl
@[simp] theorem atTxs_hw (s : State) (ph : TxPhase) : (s.atTxs ph).hw = s.hw := rfl
@[simp] theorem atTxs_hr (s : State) (ph : TxPhase) : (s.atTxs ph).hr = s.hr := rfl
@[simp] theorem atTxs_top (s : State) (ph : TxPhase) : (s.atTxs ph).top = s.top := rfl
@[simp] theorem atTxs_initph (s : State) (ph : TxPhase) : (s.atTxs ph).initph = s.initph := rfl
@[simp] theorem atTxs_tx (s : State) (ph : TxPhase) : (s.atTxs ph).tx = { s.tx with txs := ph } := rfl
@[simp] theorem atTxs_rd (s : State) (ph : TxPhase) : (s.atTxs ph).rd = s.rd := rfl
@[simp] theorem atTxs_pp (s : State) (ph : TxPhase) : (s.atTxs ph).pp = s.pp := rfl
@[simp] theorem atTxs_span (s : State) (ph : TxPhase) : (s.atTxs ph).span = s.span := rfl
@[simp] theorem atTxs_trace (s : State) (ph : TxPhase) : (s.atTxs ph).trace = s.trace := rfl
@[simp] theorem atTxs_env (s : State) (ph : TxPhase) : (s.atTxs ph).env = s.env := rfl

/-! ## startTx -/

@[simp] theorem startTx_params (s : State) (job : Job) : (s.startTx job).params = s.params := rfl
@[simp] theorem startTx_backendSel (s : State) (job : Job) : (s.startTx job).backendSel = s.backendSel := rfl
@[simp] theorem startTx_halfPeriod (s : State) (job : Job) : (s.startTx job).halfPeriod = s.halfPeriod := rfl
@[simp] theorem startTx_cs (s : State) (job : Job) : (s.startTx job).cs = s.cs := rfl
@[simp] theorem startTx_sck (s : State) (job : Job) : (s.startTx job).sck = s.sck := rfl
@[simp] theorem startTx_mosi (s : State) (job : Job) : (s.startTx job).mosi = s.mosi := rfl
@[simp] theorem startTx_acc (s : State) (job : Job) : (s.startTx job).acc = s.acc := rfl
@[simp] theorem startTx_cap (s : State) (job : Job) : (s.startTx job).cap = s.cap := rfl
@[simp] theorem startTx_outBuf (s : State) (job : Job) : (s.startTx job).outBuf = s.outBuf := rfl
@[simp] theorem startTx_inBuf (s : State) (job : Job) : (s.startTx job).inBuf = s.inBuf := rfl
@[simp] theorem startTx_result (s : State) (job : Job) : (s.startTx job).result = s.result := rfl
@[simp] theorem startTx_pres (s : State) (job : Job) : (s.startTx job).pres = s.pres := rfl
@[simp] theorem startTx_sr (s : State) (job : Job) : (s.startTx job).sr = s.sr := rfl
@[simp] theorem startTx_off (s : State) (job : Job) : (s.startTx job).off = s.off := rfl
@[simp] theorem startTx_ovr (s : State) (job : Job) : (s.startTx job).ovr = s.ovr := rfl
@[simp] theorem startTx_err (s : State) (job : Job) : (s.startTx job).err = s.err := rfl
@[simp] theorem startTx_ops (s : State) (job : Job) : (s.startTx job).ops = s.ops := rfl
@[simp] theorem startTx_hw (s : State) (job : Job) : (s.startTx job).hw = s.hw := rfl
@[simp] theorem startTx_hr (s : State) (job : Job) : (s.startTx job).hr = s.hr := rfl
@[simp] theorem startTx_top (s : State) (job : Job) : (s.startTx job).top = s.top := rfl
@[simp] theorem startTx_initph (s : State) (job : Job) : (s.startTx job).initph = s.initph := rfl
@[simp] theorem startTx_tx (s : State) (job : Job) : (s.startTx job).tx = { TxSeq.rest with job := job } := rfl
@[simp] theorem startTx_rd (s : State) (job : Job) : (s.startTx job).rd = s.rd := rfl
@[simp] theorem startTx_pp (s : State) (job : Job) : (s.startTx job).pp = s.pp := rfl
@[simp] theorem startTx_span (s : State) (job : Job) : (s.startTx job).span = s.span := rfl
@[simp] theorem startTx_trace (s : State) (job : Job) : (s.startTx job).trace = s.trace := rfl
@[simp] theorem startTx_env (s : State) (job : Job) : (s.startTx job).env = s.env := rfl

/-! ## atPps -/

@[simp] theorem atPps_params (s : State) (pps : PpState) : (s.atPps pps).params = s.params := rfl
@[simp] theorem atPps_backendSel (s : State) (pps : PpState) : (s.atPps pps).backendSel = s.backendSel := rfl
@[simp] theorem atPps_halfPeriod (s : State) (pps : PpState) : (s.atPps pps).halfPeriod = s.halfPeriod := rfl
@[simp] theorem atPps_cs (s : State) (pps : PpState) : (s.atPps pps).cs = s.cs := rfl
@[simp] theorem atPps_sck (s : State) (pps : PpState) : (s.atPps pps).sck = s.sck := rfl
@[simp] theorem atPps_mosi (s : State) (pps : PpState) : (s.atPps pps).mosi = s.mosi := rfl
@[simp] theorem atPps_acc (s : State) (pps : PpState) : (s.atPps pps).acc = s.acc := rfl
@[simp] theorem atPps_cap (s : State) (pps : PpState) : (s.atPps pps).cap = s.cap := rfl
@[simp] theorem atPps_outBuf (s : State) (pps : PpState) : (s.atPps pps).outBuf = s.outBuf := rfl
@[simp] theorem atPps_inBuf (s : State) (pps : PpState) : (s.atPps pps).inBuf = s.inBuf := rfl
@[simp] theorem atPps_result (s : State) (pps : PpState) : (s.atPps pps).result = s.result := rfl
@[simp] theorem atPps_pres (s : State) (pps : PpState) : (s.atPps pps).pres = s.pres := rfl
@[simp] theorem atPps_sr (s : State) (pps : PpState) : (s.atPps pps).sr = s.sr := rfl
@[simp] theorem atPps_off (s : State) (pps : PpState) : (s.atPps pps).off = s.off := rfl
@[simp] theorem atPps_ovr (s : State) (pps : PpState) : (s.atPps pps).ovr = s.ovr := rfl
@[simp] theorem atPps_err (s : State) (pps : PpState) : (s.atPps pps).err = s.err := rfl
@[simp] theorem atPps_ops (s : State) (pps : PpState) : (s.atPps pps).ops = s.ops := rfl
@[simp] theorem atPps_hw (s : State) (pps : PpState) : (s.atPps pps).hw = s.hw := rfl
@[simp] theorem atPps_hr (s : State) (pps : PpState) : (s.atPps pps).hr = s.hr := rfl
@[simp] theorem atPps_top (s : State) (pps : PpState) : (s.atPps pps).top = s.top := rfl
@[simp] theorem atPps_initph (s : State) (pps : PpState) : (s.atPps pps).initph = s.initph := rfl
@[simp] theorem atPps_tx (s : State) (pps : PpState) : (s.atPps pps).tx = TxSeq.rest := rfl
@[simp] theorem atPps_rd (s : State) (pps : PpState) : (s.atPps pps).rd = s.rd := rfl
@[simp] theorem atPps_pp (s : State) (pps : PpState) : (s.atPps pps).pp = { s.pp with pps := pps } := rfl
@[simp] theorem atPps_span (s : State) (pps : PpState) : (s.atPps pps).span = s.span := rfl
@[simp] theorem atPps_trace (s : State) (pps : PpState) : (s.atPps pps).trace = s.trace := rfl
@[simp] theorem atPps_env (s : State) (pps : PpState) : (s.atPps pps).env = s.env := rfl

/-! ## loadByte -/

@[simp] theorem loadByte_params (s : State) : (loadByte s).params = s.params := rfl
@[simp] theorem loadByte_backendSel (s : State) : (loadByte s).backendSel = s.backendSel := rfl
@[simp] theorem loadByte_halfPeriod (s : State) : (loadByte s).halfPeriod = s.halfPeriod := rfl
@[simp] theorem loadByte_cs (s : State) : (loadByte s).cs = s.cs := rfl
@[simp] theorem loadByte_sck (s : State) : (loadByte s).sck = s.sck := rfl
@[simp] theorem loadByte_mosi (s : State) : (loadByte s).mosi = s.mosi := rfl
@[simp] theorem loadByte_acc (s : State) : (loadByte s).acc = 0 := rfl
@[simp] theorem loadByte_cap (s : State) : (loadByte s).cap = s.cap := rfl
@[simp] theorem loadByte_outBuf (s : State) : (loadByte s).outBuf = s.outBuf := rfl
@[simp] theorem loadByte_inBuf (s : State) : (loadByte s).inBuf = s.inBuf := rfl
@[simp] theorem loadByte_result (s : State) : (loadByte s).result = s.result := rfl
@[simp] theorem loadByte_pres (s : State) : (loadByte s).pres = s.pres := rfl
@[simp] theorem loadByte_sr (s : State) : (loadByte s).sr = s.sr := rfl
@[simp] theorem loadByte_off (s : State) : (loadByte s).off = s.off := rfl
@[simp] theorem loadByte_ovr (s : State) : (loadByte s).ovr = s.ovr := rfl
@[simp] theorem loadByte_err (s : State) : (loadByte s).err = s.err := rfl
@[simp] theorem loadByte_ops (s : State) : (loadByte s).ops = s.ops := rfl
@[simp] theorem loadByte_hw (s : State) : (loadByte s).hw = s.hw := rfl
@[simp] theorem loadByte_hr (s : State) : (loadByte s).hr = s.hr := rfl
@[simp] theorem loadByte_top (s : State) : (loadByte s).top = s.top := rfl
@[simp] theorem loadByte_initph (s : State) : (loadByte s).initph = s.initph := rfl
@[simp] theorem loadByte_tx (s : State) :
    (loadByte s).tx = { s.tx with outb := s.outAt s.tx.pos, bitpos := 7, bitph := .drive } := rfl
@[simp] theorem loadByte_rd (s : State) : (loadByte s).rd = s.rd := rfl
@[simp] theorem loadByte_pp (s : State) : (loadByte s).pp = s.pp := rfl
@[simp] theorem loadByte_span (s : State) : (loadByte s).span = s.span := rfl
@[simp] theorem loadByte_trace (s : State) : (loadByte s).trace = s.trace := rfl
@[simp] theorem loadByte_env (s : State) : (loadByte s).env = s.env := rfl

/-! ## accept -/

@[simp] theorem accept_params (s : State) (op : Op) : (s.accept op).params = s.params := rfl
@[simp] theorem accept_backendSel (s : State) (op : Op) : (s.accept op).backendSel = s.backendSel := rfl
@[simp] theorem accept_halfPeriod (s : State) (op : Op) : (s.accept op).halfPeriod = s.halfPeriod := rfl
@[simp] theorem accept_cs (s : State) (op : Op) : (s.accept op).cs = s.cs := rfl
@[simp] theorem accept_sck (s : State) (op : Op) : (s.accept op).sck = s.sck := rfl
@[simp] theorem accept_mosi (s : State) (op : Op) : (s.accept op).mosi = s.mosi := rfl
@[simp] theorem accept_acc (s : State) (op : Op) : (s.accept op).acc = s.acc := rfl
@[simp] theorem accept_cap (s : State) (op : Op) : (s.accept op).cap = s.cap := rfl
@[simp] theorem accept_outBuf (s : State) (op : Op) : (s.accept op).outBuf = s.outBuf := rfl
@[simp] theorem accept_inBuf (s : State) (op : Op) : (s.accept op).inBuf = s.inBuf := rfl
@[simp] theorem accept_result (s : State) (op : Op) : (s.accept op).result = s.result := rfl
@[simp] theorem accept_pres (s : State) (op : Op) : (s.accept op).pres = s.pres := rfl
@[simp] theorem accept_sr (s : State) (op : Op) : (s.accept op).sr = s.sr := rfl
@[simp] theorem accept_off (s : State) (op : Op) : (s.accept op).off = s.off := rfl
@[simp] theorem accept_ovr (s : State) (op : Op) : (s.accept op).ovr = s.ovr := rfl
@[simp] theorem accept_err (s : State) (op : Op) : (s.accept op).err = s.err := rfl
@[simp] theorem accept_ops (s : State) (op : Op) : (s.accept op).ops = s.ops := rfl
@[simp] theorem accept_hw (s : State) (op : Op) : (s.accept op).hw = s.hw := rfl
@[simp] theorem accept_hr (s : State) (op : Op) : (s.accept op).hr = s.hr := rfl
@[simp] theorem accept_top (s : State) (op : Op) : (s.accept op).top = .run op := rfl
@[simp] theorem accept_initph (s : State) (op : Op) : (s.accept op).initph = s.initph := rfl
@[simp] theorem accept_tx (s : State) (op : Op) : (s.accept op).tx = s.tx := rfl
@[simp] theorem accept_rd (s : State) (op : Op) : (s.accept op).rd = s.rd := rfl
@[simp] theorem accept_pp (s : State) (op : Op) : (s.accept op).pp = s.pp := rfl
@[simp] theorem accept_span (s : State) (op : Op) :
    (s.accept op).span = { caps := [s.cap], srs := [s.sr], offs := [s.off], pins := s.pins, mark := s.trace.length } := rfl
@[simp] theorem accept_trace (s : State) (op : Op) : (s.accept op).trace = s.trace := rfl
@[simp] theorem accept_env (s : State) (op : Op) : (s.accept op).env = s.env := rfl

/-! ## setCap -/

@[simp] theorem setCap_params (s : State) (cap : Nat) : (s.setCap cap).params = s.params := rfl
@[simp] theorem setCap_backendSel (s : State) (cap : Nat) : (s.setCap cap).backendSel = s.backendSel := rfl
@[simp] theorem setCap_halfPeriod (s : State) (cap : Nat) : (s.setCap cap).halfPeriod = s.halfPeriod := rfl
@[simp] theorem setCap_cs (s : State) (cap : Nat) : (s.setCap cap).cs = s.cs := rfl
@[simp] theorem setCap_sck (s : State) (cap : Nat) : (s.setCap cap).sck = s.sck := rfl
@[simp] theorem setCap_mosi (s : State) (cap : Nat) : (s.setCap cap).mosi = s.mosi := rfl
@[simp] theorem setCap_acc (s : State) (cap : Nat) : (s.setCap cap).acc = s.acc := rfl
@[simp] theorem setCap_cap (s : State) (cap : Nat) : (s.setCap cap).cap = cap := rfl
@[simp] theorem setCap_outBuf (s : State) (cap : Nat) : (s.setCap cap).outBuf = s.outBuf := rfl
@[simp] theorem setCap_inBuf (s : State) (cap : Nat) : (s.setCap cap).inBuf = s.inBuf := rfl
@[simp] theorem setCap_result (s : State) (cap : Nat) : (s.setCap cap).result = s.result := rfl
@[simp] theorem setCap_pres (s : State) (cap : Nat) : (s.setCap cap).pres = s.pres := rfl
@[simp] theorem setCap_sr (s : State) (cap : Nat) : (s.setCap cap).sr = s.sr := rfl
@[simp] theorem setCap_off (s : State) (cap : Nat) : (s.setCap cap).off = s.off := rfl
@[simp] theorem setCap_ovr (s : State) (cap : Nat) : (s.setCap cap).ovr = s.ovr := rfl
@[simp] theorem setCap_err (s : State) (cap : Nat) : (s.setCap cap).err = s.err := rfl
@[simp] theorem setCap_ops (s : State) (cap : Nat) : (s.setCap cap).ops = s.ops := rfl
@[simp] theorem setCap_hw (s : State) (cap : Nat) : (s.setCap cap).hw = s.hw := rfl
@[simp] theorem setCap_hr (s : State) (cap : Nat) : (s.setCap cap).hr = s.hr := rfl
@[simp] theorem setCap_top (s : State) (cap : Nat) : (s.setCap cap).top = s.top := rfl
@[simp] theorem setCap_initph (s : State) (cap : Nat) : (s.setCap cap).initph = s.initph := rfl
@[simp] theorem setCap_tx (s : State) (cap : Nat) : (s.setCap cap).tx = s.tx := rfl
@[simp] theorem setCap_rd (s : State) (cap : Nat) : (s.setCap cap).rd = s.rd := rfl
@[simp] theorem setCap_pp (s : State) (cap : Nat) : (s.setCap cap).pp = s.pp := rfl
@[simp] theorem setCap_span (s : State) (cap : Nat) :
    (s.setCap cap).span = { s.span with caps := s.span.caps.insert cap } := rfl
@[simp] theorem setCap_trace (s : State) (cap : Nat) : (s.setCap cap).trace = s.trace := rfl
@[simp] theorem setCap_env (s : State) (cap : Nat) : (s.setCap cap).env = s.env := rfl

/-! ## setSr -/

@[simp] theorem setSr_params (s : State) (sr : Byte) : (s.setSr sr).params = s.params := rfl
@[simp] theorem setSr_backendSel (s : State) (sr : Byte) : (s.setSr sr).backendSel = s.backendSel := rfl
@[simp] theorem setSr_halfPeriod (s : State) (sr : Byte) : (s.setSr sr).halfPeriod = s.halfPeriod := rfl
@[simp] theorem setSr_cs (s : State) (sr : Byte) : (s.setSr sr).cs = s.cs := rfl
@[simp] theorem setSr_sck (s : State) (sr : Byte) : (s.setSr sr).sck = s.sck := rfl
@[simp] theorem setSr_mosi (s : State) (sr : Byte) : (s.setSr sr).mosi = s.mosi := rfl
@[simp] theorem setSr_acc (s : State) (sr : Byte) : (s.setSr sr).acc = s.acc := rfl
@[simp] theorem setSr_cap (s : State) (sr : Byte) : (s.setSr sr).cap = s.cap := rfl
@[simp] theorem setSr_outBuf (s : State) (sr : Byte) : (s.setSr sr).outBuf = s.outBuf := rfl
@[simp] theorem setSr_inBuf (s : State) (sr : Byte) : (s.setSr sr).inBuf = s.inBuf := rfl
@[simp] theorem setSr_result (s : State) (sr : Byte) : (s.setSr sr).result = s.result := rfl
@[simp] theorem setSr_pres (s : State) (sr : Byte) : (s.setSr sr).pres = s.pres := rfl
@[simp] theorem setSr_sr (s : State) (sr : Byte) : (s.setSr sr).sr = sr := rfl
@[simp] theorem setSr_off (s : State) (sr : Byte) : (s.setSr sr).off = s.off := rfl
@[simp] theorem setSr_ovr (s : State) (sr : Byte) : (s.setSr sr).ovr = s.ovr := rfl
@[simp] theorem setSr_err (s : State) (sr : Byte) : (s.setSr sr).err = s.err := rfl
@[simp] theorem setSr_ops (s : State) (sr : Byte) : (s.setSr sr).ops = s.ops := rfl
@[simp] theorem setSr_hw (s : State) (sr : Byte) : (s.setSr sr).hw = s.hw := rfl
@[simp] theorem setSr_hr (s : State) (sr : Byte) : (s.setSr sr).hr = s.hr := rfl
@[simp] theorem setSr_top (s : State) (sr : Byte) : (s.setSr sr).top = s.top := rfl
@[simp] theorem setSr_initph (s : State) (sr : Byte) : (s.setSr sr).initph = s.initph := rfl
@[simp] theorem setSr_tx (s : State) (sr : Byte) : (s.setSr sr).tx = s.tx := rfl
@[simp] theorem setSr_rd (s : State) (sr : Byte) : (s.setSr sr).rd = s.rd := rfl
@[simp] theorem setSr_pp (s : State) (sr : Byte) : (s.setSr sr).pp = s.pp := rfl
@[simp] theorem setSr_span (s : State) (sr : Byte) :
    (s.setSr sr).span = { s.span with srs := s.span.srs.insert sr } := rfl
@[simp] theorem setSr_trace (s : State) (sr : Byte) : (s.setSr sr).trace = s.trace := rfl
@[simp] theorem setSr_env (s : State) (sr : Byte) : (s.setSr sr).env = s.env := rfl

/-! ## setOff -/

@[simp] theorem setOff_params (s : State) (off : Nat) : (s.setOff off).params = s.params := rfl
@[simp] theorem setOff_backendSel (s : State) (off : Nat) : (s.setOff off).backendSel = s.backendSel := rfl
@[simp] theorem setOff_halfPeriod (s : State) (off : Nat) : (s.setOff off).halfPeriod = s.halfPeriod := rfl
@[simp] theorem setOff_cs (s : State) (off : Nat) : (s.setOff off).cs = s.cs := rfl
@[simp] theorem setOff_sck (s : State) (off : Nat) : (s.setOff off).sck = s.sck := rfl
@[simp] theorem setOff_mosi (s : State) (off : Nat) : (s.setOff off).mosi = s.mosi := rfl
@[simp] theorem setOff_acc (s : State) (off : Nat) : (s.setOff off).acc = s.acc := rfl
@[simp] theorem setOff_cap (s : State) (off : Nat) : (s.setOff off).cap = s.cap := rfl
@[simp] theorem setOff_outBuf (s : State) (off : Nat) : (s.setOff off).outBuf = s.outBuf := rfl
@[simp] theorem setOff_inBuf (s : State) (off : Nat) : (s.setOff off).inBuf = s.inBuf := rfl
@[simp] theorem setOff_result (s : State) (off : Nat) : (s.setOff off).result = s.result := rfl
@[simp] theorem setOff_pres (s : State) (off : Nat) : (s.setOff off).pres = s.pres := rfl
@[simp] theorem setOff_sr (s : State) (off : Nat) : (s.setOff off).sr = s.sr := rfl
@[simp] theorem setOff_off (s : State) (off : Nat) : (s.setOff off).off = off := rfl
@[simp] theorem setOff_ovr (s : State) (off : Nat) : (s.setOff off).ovr = s.ovr := rfl
@[simp] theorem setOff_err (s : State) (off : Nat) : (s.setOff off).err = s.err := rfl
@[simp] theorem setOff_ops (s : State) (off : Nat) : (s.setOff off).ops = s.ops := rfl
@[simp] theorem setOff_hw (s : State) (off : Nat) : (s.setOff off).hw = s.hw := rfl
@[simp] theorem setOff_hr (s : State) (off : Nat) : (s.setOff off).hr = s.hr := rfl
@[simp] theorem setOff_top (s : State) (off : Nat) : (s.setOff off).top = s.top := rfl
@[simp] theorem setOff_initph (s : State) (off : Nat) : (s.setOff off).initph = s.initph := rfl
@[simp] theorem setOff_tx (s : State) (off : Nat) : (s.setOff off).tx = s.tx := rfl
@[simp] theorem setOff_rd (s : State) (off : Nat) : (s.setOff off).rd = s.rd := rfl
@[simp] theorem setOff_pp (s : State) (off : Nat) : (s.setOff off).pp = s.pp := rfl
@[simp] theorem setOff_span (s : State) (off : Nat) :
    (s.setOff off).span = { s.span with offs := s.span.offs.insert off } := rfl
@[simp] theorem setOff_trace (s : State) (off : Nat) : (s.setOff off).trace = s.trace := rfl
@[simp] theorem setOff_env (s : State) (off : Nat) : (s.setOff off).env = s.env := rfl

/-! ## progEntry -/

@[simp] theorem progEntry_params (s : State) : (progEntry s).params = s.params := rfl
@[simp] theorem progEntry_backendSel (s : State) : (progEntry s).backendSel = s.backendSel := rfl
@[simp] theorem progEntry_halfPeriod (s : State) : (progEntry s).halfPeriod = s.halfPeriod := rfl
@[simp] theorem progEntry_cs (s : State) : (progEntry s).cs = s.cs := rfl
@[simp] theorem progEntry_sck (s : State) : (progEntry s).sck = s.sck := rfl
@[simp] theorem progEntry_mosi (s : State) : (progEntry s).mosi = s.mosi := rfl
@[simp] theorem progEntry_acc (s : State) : (progEntry s).acc = s.acc := rfl
@[simp] theorem progEntry_cap (s : State) : (progEntry s).cap = s.cap := rfl
@[simp] theorem progEntry_outBuf (s : State) : (progEntry s).outBuf = s.outBuf := rfl
@[simp] theorem progEntry_inBuf (s : State) : (progEntry s).inBuf = s.inBuf := rfl
@[simp] theorem progEntry_result (s : State) : (progEntry s).result = s.result := rfl
@[simp] theorem progEntry_pres (s : State) : (progEntry s).pres = 0 := rfl
@[simp] theorem progEntry_sr (s : State) : (progEntry s).sr = s.sr := rfl
@[simp] theorem progEntry_off (s : State) : (progEntry s).off = 0 := rfl
@[simp] theorem progEntry_ovr (s : State) : (progEntry s).ovr = s.ovr := rfl
@[simp] theorem progEntry_err (s : State) : (progEntry s).err = s.err := rfl
@[simp] theorem progEntry_ops (s : State) : (progEntry s).ops = s.ops := rfl
@[simp] theorem progEntry_hw (s : State) : (progEntry s).hw = s.hw := rfl
@[simp] theorem progEntry_hr (s : State) : (progEntry s).hr = s.hr := rfl
@[simp] theorem progEntry_top (s : State) : (progEntry s).top = s.top := rfl
@[simp] theorem progEntry_initph (s : State) : (progEntry s).initph = s.initph := rfl
@[simp] theorem progEntry_tx (s : State) : (progEntry s).tx = s.tx := rfl
@[simp] theorem progEntry_rd (s : State) : (progEntry s).rd = s.rd := rfl
@[simp] theorem progEntry_pp (s : State) : (progEntry s).pp = s.pp := rfl
@[simp] theorem progEntry_span (s : State) : (progEntry s).span = { s.span with offs := [0] } := rfl
@[simp] theorem progEntry_trace (s : State) : (progEntry s).trace = s.trace := rfl
@[simp] theorem progEntry_env (s : State) : (progEntry s).env = s.env := rfl

end Sys2Proof.Machine
end

