-- ==== Sys2Proof/Laws/Primitives.lean ====
section
/-!
SUPPORT. Runs of pseudocode and the five primitives: what each can do, said once.
-/
namespace Sys2Proof.Machine

/-! ## Runs -/

@[simp] theorem Run.bind_ok {α β : Type} (a : α) (s : State) (k : α → State → Run β) :
    (Run.ok a s).bind k = k a s := rfl

@[simp] theorem Run.bind_halt {α β : Type} (s : State) (k : α → State → Run β) :
    (Run.halt s).bind k = .halt s := rfl

@[simp] theorem Run.bind_fault {α β : Type} (f : Fault) (k : α → State → Run β) :
    (Run.fault f).bind k = .fault f := rfl

/-- What holds of a run wherever it ends: `P` of the value and the state it goes on with, `Q` of the state it stops
in. -/
def Run.All {α : Type} (P : α → State → Prop) (Q : State → Prop) : Run α → Prop
  | .ok a s => P a s
  | .halt s => Q s
  | .fault _ => True

theorem Run.All.bind {α β : Type} {P : α → State → Prop} {P' : β → State → Prop} {Q : State → Prop}
    {r : Run α} {k : α → State → Run β} (h : r.All P Q) (hk : ∀ a s, P a s → (k a s).All P' Q) :
    (r.bind k).All P' Q := by
  cases r with
  | ok a s => exact hk a s h
  | halt s => exact h
  | fault f => trivial

theorem Run.All.imp {α : Type} {P P' : α → State → Prop} {Q Q' : State → Prop} {r : Run α} (h : r.All P Q)
    (hP : ∀ a s, P a s → P' a s) (hQ : ∀ s, Q s → Q' s) : r.All P' Q' := by
  cases r with
  | ok a s => exact hP a s h
  | halt s => exact hQ s h
  | fault f => trivial

/-! ## The selector -/

/-- All `resolve` can do: go on with at most one scripted pin-driver answer used up, or end fatally (R150, R248). -/
theorem resolve_cases (s : State) :
    ∃ pf : List Bool, resolve s = .ok () { s with env.pinFaults := pf }
      ∨ resolve s = .halt ({ s with env.pinFaults := pf }.raiseFatal codeNoBackend)
      ∨ resolve s = .halt ({ s with env.pinFaults := pf }.raiseFatal codeBackendFault) := by
  unfold resolve
  split
  · split
    · split
      · exact ⟨_, .inr (.inr rfl)⟩
      · exact ⟨_, .inl rfl⟩
      · split
        · exact ⟨s.env.pinFaults, .inr (.inr rfl)⟩
        · exact ⟨s.env.pinFaults, .inl rfl⟩
    · exact ⟨s.env.pinFaults, .inl rfl⟩
  · exact ⟨s.env.pinFaults, .inr (.inl rfl)⟩

theorem resolve_ready {s : State} (h : s.Ready) : resolve s = .ok () s := by
  simp [resolve, h.1, h.2]

theorem resolve_noBackend {s : State} (h : s.backendSel ∉ s.params.validBackends) :
    resolve s = .halt (s.raiseFatal codeNoBackend) := by
  simp [resolve, h]

/-! ## The primitives with a usable backend (R151 to R154) -/

theorem setCs_ready {s : State} (h : s.Ready) (l : Bit) :
    setCs l s = .ok () { s with cs := l, trace := .cs l :: s.trace } := by
  simp [setCs, resolve_ready h, State.emit]

theorem setSck_ready {s : State} (h : s.Ready) (l : Bit) :
    setSck l s = .ok () { s with sck := l, trace := .sck l :: s.trace } := by
  simp [setSck, resolve_ready h, State.emit]

theorem setMosi_ready {s : State} (h : s.Ready) (l : Bit) :
    setMosi l s = .ok () { s with mosi := l, trace := .mosi l :: s.trace } := by
  simp [setMosi, resolve_ready h, State.emit]

theorem getMiso_ready {s : State} (h : s.Ready) :
    getMiso s = .ok s.dataInNow
      { s with trace := .miso s.dataInNow :: s.trace, env.dataIn := s.env.dataIn.tail } := by
  simp [getMiso, resolve_ready h, State.emit]

theorem setMosi_noBackend {s : State} (h : s.backendSel ∉ s.params.validBackends) (l : Bit) :
    setMosi l s = .halt (s.raiseFatal codeNoBackend) := by
  simp [setMosi, resolve_noBackend h]

theorem setCs_noBackend {s : State} (h : s.backendSel ∉ s.params.validBackends) (l : Bit) :
    setCs l s = .halt (s.raiseFatal codeNoBackend) := by
  simp [setCs, resolve_noBackend h]

theorem dataInNow_eq (s : State) :
    s.dataInNow = s.env.dataIn.headD (Config.oracle s.env.world s.trace) := by
  unfold State.dataInNow
  cases s.env.dataIn <;> rfl

/-! ## Answered samples -/

/-- How many samples a sequence of events holds. -/
def sampleCount : List Event → Nat
  | [] => 0
  | .miso _ :: evs => sampleCount evs + 1
  | .cs _ :: evs => sampleCount evs
  | .sck _ :: evs => sampleCount evs
  | .mosi _ :: evs => sampleCount evs
  | .delay _ :: evs => sampleCount evs

theorem sampleCount_append (xs ys : List Event) : sampleCount (xs ++ ys) = sampleCount xs + sampleCount ys := by
  induction xs with
  | nil => simp [sampleCount]
  | cons e xs ih => cases e <;> (simp [sampleCount, ih]; try omega)

theorem answered_append (w : Nat) (script : List Bit) (sofar xs ys : List Event) :
    answered w script sofar (xs ++ ys)
      = (answered w script sofar xs && answered w (script.drop (sampleCount xs)) (xs.reverse ++ sofar) ys) := by
  induction xs generalizing script sofar with
  | nil => simp [answered, sampleCount]
  | cons e xs ih =>
    cases e <;>
      simp [answered, sampleCount, ih, Bool.and_assoc]

end Sys2Proof.Machine
end

