-- ==== Sys2Proof/Laws/Engine.lean ====
section
/-!
SUPPORT. The Bit and Byte Engines: with a usable backend, exactly what they do (R160, R162); with any, what they can
change.
-/
namespace Sys2Proof.Machine

/-! ## With a usable backend -/

/-- A bit cell with a usable backend: six events, one sample, ACC takes it in (R160). -/
theorem xbit_ready {s : State} (h : s.Ready) (o : Bit) :
    ∃ b : Bit,
      xbit o s = .ok b
        { s with
          mosi := o, sck := 0, acc := shiftIn s.acc b
          trace := (cellEvents o b s.halfPeriod).reverse ++ s.trace
          env.dataIn := s.env.dataIn.tail }
      ∧ answered s.env.world s.env.dataIn s.trace (cellEvents o b s.halfPeriod) = true := by
  refine ⟨s.env.dataIn.headD
    (Config.oracle s.env.world (.sck 1 :: .delay s.halfPeriod :: .mosi o :: s.trace)), ?_, ?_⟩
  · have h1 : State.Ready { s with mosi := o, trace := .delay s.halfPeriod :: .mosi o :: s.trace } := h
    have h2 : State.Ready
        { s with mosi := o, sck := 1, trace := .sck 1 :: .delay s.halfPeriod :: .mosi o :: s.trace } := h
    simp only [xbit, setMosi_ready h, Run.bind_ok, delay, State.emit, setSck_ready h1, getMiso_ready h2,
      dataInNow_eq]
    rw [setSck_ready (by exact h)]
    simp [cellEvents]
  · simp [cellEvents, answered]

/-- The cells of a byte as the sampled bits `bs`, bit position `k-1` first. -/
def cellsOf (v : Byte) (h : Word) : List Bit → List Event
  | [] => []
  | b :: bs => cellEvents (bitAt v bs.length) b h ++ cellsOf v h bs

theorem sampleCount_cellsOf (v : Byte) (h : Word) (bs : List Bit) : sampleCount (cellsOf v h bs) = bs.length := by
  induction bs with
  | nil => rfl
  | cons b bs ih => simp [cellsOf, cellEvents, sampleCount, ih]

/-- The cells of bit positions `k-1` down to 0 with a usable backend (R162). -/
theorem xbyteCells_ready (v : Byte) (k : Nat) {s : State} (h : s.Ready) :
    ∃ bs : List Bit, bs.length = k ∧
      xbyteCells v k s = .ok ()
        { s with
          mosi := if k = 0 then s.mosi else bitAt v 0
          sck := if k = 0 then s.sck else 0
          acc := bs.foldl shiftIn s.acc
          trace := (cellsOf v s.halfPeriod bs).reverse ++ s.trace
          env.dataIn := s.env.dataIn.drop k }
      ∧ answered s.env.world s.env.dataIn s.trace (cellsOf v s.halfPeriod bs) = true := by
  induction k generalizing s with
  | zero => exact ⟨[], rfl, by simp [xbyteCells, cellsOf], by simp [cellsOf, answered]⟩
  | succ k ih =>
    obtain ⟨b, hb, hans⟩ := xbit_ready h (bitAt v k)
    have h' : State.Ready
        { s with
          mosi := bitAt v k, sck := 0, acc := shiftIn s.acc b
          trace := (cellEvents (bitAt v k) b s.halfPeriod).reverse ++ s.trace
          env.dataIn := s.env.dataIn.tail } := h
    obtain ⟨bs, hlen, hbs, hans'⟩ := ih h'
    refine ⟨b :: bs, by simp [hlen], ?_, ?_⟩
    · simp only [xbyteCells, hb, Run.bind_ok, hbs]
      by_cases hk : k = 0
      · subst hk
        obtain rfl := List.eq_nil_of_length_eq_zero hlen
        simp [cellsOf]
      · simp [hk, cellsOf, hlen]
    · simp only [cellsOf, hlen, answered_append, hans, Bool.true_and]
      simpa [cellEvents, sampleCount] using hans'

/-- Eight bits as a byte, the first of them bit 7 (R121). -/
theorem foldl_shiftIn_eight (b7 b6 b5 b4 b3 b2 b1 b0 : Bit) :
    [b7, b6, b5, b4, b3, b2, b1, b0].foldl shiftIn 0 = b7 ++ b6 ++ b5 ++ b4 ++ b3 ++ b2 ++ b1 ++ b0 := by
  revert b7 b6 b5 b4 b3 b2 b1 b0
  decide

theorem bitAt_append_eight (b7 b6 b5 b4 b3 b2 b1 b0 : Bit) :
    let u : Byte := b7 ++ b6 ++ b5 ++ b4 ++ b3 ++ b2 ++ b1 ++ b0
    bitAt u 7 = b7 ∧ bitAt u 6 = b6 ∧ bitAt u 5 = b5 ∧ bitAt u 4 = b4 ∧ bitAt u 3 = b3 ∧ bitAt u 2 = b2
      ∧ bitAt u 1 = b1 ∧ bitAt u 0 = b0 := by
  revert b7 b6 b5 b4 b3 b2 b1 b0
  decide

theorem exists_byte_of_eight (bs : List Bit) (h : bs.length = 8) :
    ∃ u : Byte, bs.foldl shiftIn 0 = u ∧ byteLevels u = bs
      ∧ ∀ (v : Byte) (hp : Word), cellsOf v hp bs = byteEvents v u hp := by
  match bs, h with
  | [b7, b6, b5, b4, b3, b2, b1, b0], _ =>
    obtain ⟨h7, h6, h5, h4, h3, h2, h1, h0⟩ := bitAt_append_eight b7 b6 b5 b4 b3 b2 b1 b0
    refine ⟨b7 ++ b6 ++ b5 ++ b4 ++ b3 ++ b2 ++ b1 ++ b0, foldl_shiftIn_eight .., ?_, ?_⟩
    · simp only [byteLevels, h7, h6, h5, h4, h3, h2, h1, h0]
    · intro v hp
      simp only [cellsOf, byteEvents, cellsEvents, h7, h6, h5, h4, h3, h2, h1, h0, List.length_cons,
        List.length_nil]

/-- A byte with a usable backend: its 48 events, the result in ACC (R162). -/
theorem xbyte_ready {s : State} (h : s.Ready) (v : Byte) :
    ∃ u : Byte,
      xbyte v s = .ok u
        { s with
          mosi := bitAt v 0, sck := 0, acc := u
          trace := (byteEvents v u s.halfPeriod).reverse ++ s.trace
          env.dataIn := s.env.dataIn.drop 8 }
      ∧ answered s.env.world s.env.dataIn s.trace (byteEvents v u s.halfPeriod) = true := by
  have h' : State.Ready { s with acc := 0 } := h
  obtain ⟨bs, hlen, hbs, hans⟩ := xbyteCells_ready v 8 h'
  obtain ⟨u, hu, -, hev⟩ := exists_byte_of_eight bs hlen
  refine ⟨u, ?_, ?_⟩
  · simp only [xbyte, hbs, Run.bind_ok]
    simp only [hev, hu]
    simp
  · simpa [hev] using hans

theorem sampleCount_byteEvents (v u : Byte) (h : Word) : sampleCount (byteEvents v u h) = 8 := by
  simp [byteEvents, cellsEvents, cellEvents, sampleCount]

/-- The samples of a byte are the script's next eight levels when it has that many (R98, R154). -/
theorem answered_byteEvents_script (w : Nat) (u u' v : Byte) (h : Word) (rest : List Bit) (sofar : List Event)
    (ha : answered w (byteLevels u' ++ rest) sofar (byteEvents v u h) = true) : u = u' := by
  have hbits : ∀ a b : Byte, bitAt a 7 = bitAt b 7 → bitAt a 6 = bitAt b 6 → bitAt a 5 = bitAt b 5 →
      bitAt a 4 = bitAt b 4 → bitAt a 3 = bitAt b 3 → bitAt a 2 = bitAt b 2 → bitAt a 1 = bitAt b 1 →
      bitAt a 0 = bitAt b 0 → a = b := by
    intro a b h7 h6 h5 h4 h3 h2 h1 h0
    have hx : ∀ x : Byte, x = bitAt x 7 ++ bitAt x 6 ++ bitAt x 5 ++ bitAt x 4 ++ bitAt x 3 ++ bitAt x 2
        ++ bitAt x 1 ++ bitAt x 0 := by decide
    rw [hx a, hx b, h7, h6, h5, h4, h3, h2, h1, h0]
  simp only [byteLevels, byteEvents, cellsEvents, cellEvents, List.cons_append, List.nil_append, List.append_nil,
    answered, List.headD_cons, List.tail_cons, Bool.and_eq_true, beq_iff_eq, Bool.and_true] at ha
  obtain ⟨h7, h6, h5, h4, h3, h2, h1, h0⟩ := ha
  exact hbits u u' h7 h6 h5 h4 h3 h2 h1 h0

/-! ## With any backend -/

/-- What a byte may change: the clock and data-out, ACC, the trace, which only grows, and how much of the outside
world's scripts is used up. -/
structure BusMove (s t : State) : Prop where
  only : t = { s with
    sck := t.sck, mosi := t.mosi, acc := t.acc, trace := t.trace
    env := { s.env with dataIn := t.env.dataIn, pinFaults := t.env.pinFaults } }
  grows : s.trace <:+ t.trace

theorem BusMove.refl (s : State) : BusMove s s := ⟨rfl, List.suffix_rfl⟩

theorem BusMove.trans {s t u : State} (h : BusMove s t) (h' : BusMove t u) : BusMove s u :=
  ⟨by rw [h'.only, h.only], h.grows.trans h'.grows⟩

/-- A change of the listed fields that emits at most one event. -/
theorem BusMove.of_emit {s t : State} (h : t = { s with
      sck := t.sck, mosi := t.mosi, acc := t.acc, trace := t.trace
      env := { s.env with dataIn := t.env.dataIn, pinFaults := t.env.pinFaults } })
    (e : Event) (he : t.trace = e :: s.trace) : BusMove s t :=
  ⟨h, he ▸ List.suffix_cons e s.trace⟩

theorem BusMove.delay (s : State) : BusMove s (delay s) := .of_emit rfl (.delay s.halfPeriod) rfl

theorem BusMove.of_acc (s : State) (a : Byte) : BusMove s { s with acc := a } := ⟨rfl, List.suffix_rfl⟩

theorem BusMove.of_pinFaults (s : State) (pf : List Bool) : BusMove s { s with env.pinFaults := pf } :=
  ⟨rfl, List.suffix_rfl⟩

/-- A fatal end reached after what `R` allows: NoBackend or BackendFault (R150, R248). -/
def FatalAfter (R : State → State → Prop) (s t : State) : Prop :=
  ∃ u : State, R s u ∧ (t = u.raiseFatal codeNoBackend ∨ t = u.raiseFatal codeBackendFault)

theorem FatalAfter.imp {R R' : State → State → Prop} {s s' t : State} (h : FatalAfter R s t)
    (hR : ∀ u, R s u → R' s' u) : FatalAfter R' s' t := by
  obtain ⟨u, hu, ht⟩ := h
  exact ⟨u, hR u hu, ht⟩

theorem setMosi_all (l : Bit) (s : State) :
    (setMosi l s).All (fun _ t => BusMove s t ∧ t.sck = s.sck) (FatalAfter BusMove s) := by
  obtain ⟨pf, h | h | h⟩ := resolve_cases s <;> simp only [setMosi, h, Run.bind_ok, Run.bind_halt, Run.All]
  · exact ⟨.of_emit rfl _ rfl, rfl⟩
  · exact ⟨{ s with env.pinFaults := pf }, .of_pinFaults s pf, .inl rfl⟩
  · exact ⟨{ s with env.pinFaults := pf }, .of_pinFaults s pf, .inr rfl⟩

theorem setSck_all (l : Bit) (s : State) :
    (setSck l s).All (fun _ t => BusMove s t ∧ t.sck = l) (FatalAfter BusMove s) := by
  obtain ⟨pf, h | h | h⟩ := resolve_cases s <;> simp only [setSck, h, Run.bind_ok, Run.bind_halt, Run.All]
  · exact ⟨.of_emit rfl _ rfl, rfl⟩
  · exact ⟨{ s with env.pinFaults := pf }, .of_pinFaults s pf, .inl rfl⟩
  · exact ⟨{ s with env.pinFaults := pf }, .of_pinFaults s pf, .inr rfl⟩

theorem getMiso_all (s : State) :
    (getMiso s).All (fun _ t => BusMove s t ∧ t.sck = s.sck) (FatalAfter BusMove s) := by
  obtain ⟨pf, h | h | h⟩ := resolve_cases s <;> simp only [getMiso, h, Run.bind_ok, Run.bind_halt, Run.All]
  · exact ⟨.of_emit rfl _ rfl, rfl⟩
  · exact ⟨{ s with env.pinFaults := pf }, .of_pinFaults s pf, .inl rfl⟩
  · exact ⟨{ s with env.pinFaults := pf }, .of_pinFaults s pf, .inr rfl⟩

/-- What a bit cell can do, whatever the pin driver does (R160, R248). -/
theorem xbit_all (o : Bit) (s : State) :
    (xbit o s).All (fun _ t => BusMove s t ∧ t.sck = 0) (FatalAfter BusMove s) := by
  refine (setMosi_all o s).bind fun _ s1 h1 => ?_
  have e1 : BusMove s (delay s1) := h1.1.trans (.delay s1)
  refine ((setSck_all 1 (delay s1)).imp (fun _ _ h => h) fun _ h => h.imp fun _ h => e1.trans h).bind
    fun _ s2 h2 => ?_
  have e2 : BusMove s s2 := e1.trans h2.1
  refine ((getMiso_all s2).imp (fun _ _ h => h) fun _ h => h.imp fun _ h => e2.trans h).bind fun b s3 h3 => ?_
  have e3 : BusMove s (delay { s3 with acc := shiftIn s3.acc b }) :=
    ((e2.trans h3.1).trans (.of_acc s3 (shiftIn s3.acc b))).trans (.delay _)
  refine ((setSck_all 0 (delay { s3 with acc := shiftIn s3.acc b })).imp (fun _ _ h => h)
    fun _ h => h.imp fun _ h => e3.trans h).bind fun _ s4 h4 => ?_
  exact ⟨e3.trans h4.1, h4.2⟩

theorem xbyteCells_all (v : Byte) (k : Nat) (s : State) :
    (xbyteCells v k s).All (fun _ t => BusMove s t ∧ (s.sck = 0 ∨ 0 < k → t.sck = 0)) (FatalAfter BusMove s) := by
  induction k generalizing s with
  | zero =>
    refine ⟨BusMove.refl s, fun h => ?_⟩
    rcases h with h | h
    · exact h
    · omega
  | succ k ih =>
    refine (xbit_all (bitAt v k) s).bind fun _ s1 h1 => ?_
    refine (ih s1).imp (fun _ t h => ⟨h1.1.trans h.1, fun _ => h.2 (.inl h1.2)⟩)
      fun _ h => h.imp fun _ h => h1.1.trans h

/-- What a byte can do, whatever the pin driver does (R162, R248). -/
theorem xbyte_all (v : Byte) (s : State) :
    (xbyte v s).All (fun _ t => BusMove s t ∧ t.sck = 0) (FatalAfter BusMove s) := by
  have e : BusMove s { s with acc := 0 } := .of_acc s 0
  refine ((xbyteCells_all v 8 { s with acc := 0 }).imp (fun _ _ h => h)
    fun _ h => h.imp fun _ h => e.trans h).bind fun _ s1 h1 => ?_
  exact ⟨e.trans h1.1, h1.2 (.inr (by decide))⟩

end Sys2Proof.Machine
end

