-- ==== Sys2Proof/Laws/Memory.lean ====
section
/-!
SUPPORT. Byte spaces: what a write does to every read, and that every write keeps the canonical form.
-/
namespace Sys2Proof.Machine

/-! ## The canonical form -/

theorem memWf_iff_pairwise (m : Memory) : memWf m = true ↔ m.Pairwise (fun c d => c.1 < d.1) := by
  induction m with
  | nil => simp [memWf]
  | cons c m ih =>
    cases m with
    | nil => simp [memWf]
    | cons d m =>
      simp only [memWf, Bool.and_eq_true, decide_eq_true_eq, ih, List.pairwise_cons, List.mem_cons,
        forall_eq_or_imp]
      constructor
      · rintro ⟨hcd, hd, hm⟩
        exact ⟨⟨hcd, fun e he => Nat.lt_trans hcd (hd e he)⟩, hd, hm⟩
      · rintro ⟨⟨hcd, -⟩, hd, hm⟩
        exact ⟨hcd, hd, hm⟩

theorem memWf_nil : memWf [] = true := rfl

theorem mem_memCells {c : Host.Cell} {a : Nat} {bs : List Byte} (h : c ∈ memCells a bs) :
    a ≤ c.1 ∧ c.1 < a + bs.length := by
  induction bs generalizing a with
  | nil => simp [memCells] at h
  | cons b bs ih =>
    simp only [memCells, List.mem_cons] at h
    rcases h with rfl | h
    · simp
    · have := ih h
      simp only [List.length_cons]
      omega

theorem memCells_pairwise (a : Nat) (bs : List Byte) : (memCells a bs).Pairwise (fun c d => c.1 < d.1) := by
  induction bs generalizing a with
  | nil => simp [memCells]
  | cons b bs ih =>
    simp only [memCells, List.pairwise_cons]
    exact ⟨fun c hc => by have := (mem_memCells hc).1; omega, ih _⟩

/-- What is left after dropping the cells below `n` from a rising list lies at or above `n`. -/
theorem le_of_mem_dropWhile {m : Memory} (hm : m.Pairwise (fun c d => c.1 < d.1)) {n : Nat} {c : Host.Cell}
    (h : c ∈ m.dropWhile (fun c => decide (c.1 < n))) : n ≤ c.1 := by
  induction m with
  | nil => simp at h
  | cons d m ih =>
    rw [List.pairwise_cons] at hm
    rw [List.dropWhile_cons] at h
    by_cases hd : d.1 < n
    · simp only [hd, decide_true, if_true] at h
      exact ih hm.2 h
    · simp only [hd, decide_false, Bool.false_eq_true, if_false, List.mem_cons] at h
      rcases h with rfl | h
      · omega
      · have := hm.1 c h
        omega

theorem lt_of_mem_takeWhile {m : Memory} {n : Nat} {c : Host.Cell}
    (h : c ∈ m.takeWhile (fun c => decide (c.1 < n))) : c.1 < n := by
  induction m with
  | nil => simp at h
  | cons d m ih =>
    rw [List.takeWhile_cons] at h
    by_cases hd : d.1 < n
    · simp only [hd, decide_true, if_true, List.mem_cons] at h
      rcases h with rfl | h
      · exact hd
      · exact ih h
    · simp [hd] at h

theorem memWriteRange_wf {m : Memory} (hm : memWf m = true) (a : Nat) (bs : List Byte) :
    memWf (memWriteRange m a bs) = true := by
  rw [memWf_iff_pairwise] at hm ⊢
  simp only [memWriteRange, List.pairwise_append, List.mem_append]
  refine ⟨⟨hm.sublist (List.takeWhile_sublist _), memCells_pairwise a bs, ?_⟩,
    hm.sublist (List.dropWhile_sublist _), ?_⟩
  · intro c hc d hd
    have := lt_of_mem_takeWhile hc
    have := (mem_memCells hd).1
    omega
  · rintro c (hc | hc) d hd
    · have := lt_of_mem_takeWhile hc
      have := le_of_mem_dropWhile hm hd
      omega
    · have := (mem_memCells hc).2
      have := le_of_mem_dropWhile hm hd
      omega

theorem memWrite_wf {m : Memory} (hm : memWf m = true) (a : Nat) (b : Byte) : memWf (memWrite m a b) = true :=
  memWriteRange_wf hm a [b]

theorem memWriteRange_lt {m : Memory} {a n : Nat} {bs : List Byte} (hm : ∀ c ∈ m, c.1 < n)
    (ha : a + bs.length ≤ n) : ∀ c ∈ memWriteRange m a bs, c.1 < n := by
  intro c hc
  simp only [memWriteRange, List.mem_append] at hc
  rcases hc with (hc | hc) | hc
  · exact hm c ((List.takeWhile_sublist _).subset hc)
  · have := (mem_memCells hc).2
    omega
  · exact hm c ((List.dropWhile_sublist _).subset hc)

theorem memWrite_lt {m : Memory} {a n : Nat} {b : Byte} (hm : ∀ c ∈ m, c.1 < n) (ha : a < n) :
    ∀ c ∈ memWrite m a b, c.1 < n :=
  memWriteRange_lt hm (by simp only [List.length_cons, List.length_nil]; omega)

/-! ## Reads -/

theorem memRead_append (m m' : Memory) (i : Nat) :
    memRead (m ++ m') i = (memRead m i).or (memRead m' i) := by
  induction m with
  | nil => simp [memRead]
  | cons c m ih =>
    simp only [List.cons_append, memRead]
    split
    · simp
    · exact ih

theorem memRead_none_of_forall_ne {m : Memory} {i : Nat} (h : ∀ c ∈ m, c.1 ≠ i) : memRead m i = none := by
  induction m with
  | nil => rfl
  | cons c m ih =>
    simp only [List.mem_cons, forall_eq_or_imp] at h
    simp [memRead, h.1, ih h.2]

theorem memRead_memCells (a : Nat) (bs : List Byte) (i : Nat) :
    memRead (memCells a bs) i = if a ≤ i then bs[i - a]? else none := by
  induction bs generalizing a with
  | nil => simp [memCells, memRead]
  | cons b bs ih =>
    simp only [memCells, memRead]
    by_cases h : a = i
    · subst h; simp
    · rw [if_neg h, ih]
      by_cases h' : a ≤ i
      · have e : i - a = (i - (a + 1)) + 1 := by omega
        rw [if_pos (by omega), if_pos h', e, List.getElem?_cons_succ]
      · rw [if_neg (by omega), if_neg h']

/-- A read in the range just written gives the byte written there, whatever was in the space before. -/
theorem memRead_memWriteRange_in (m : Memory) (a : Nat) (bs : List Byte) (i : Nat) (h : a ≤ i)
    (h' : i < a + bs.length) : memRead (memWriteRange m a bs) i = bs[i - a]? := by
  have h1 : memRead (m.takeWhile (fun c => decide (c.1 < a))) i = none :=
    memRead_none_of_forall_ne fun c hc => by have := lt_of_mem_takeWhile hc; omega
  have h2 : bs[i - a]? = some (bs[i - a]'(by omega)) := List.getElem?_eq_getElem _
  simp only [memWriteRange, memRead_append, h1, memRead_memCells, if_pos h, h2, Option.none_or, Option.some_or]

theorem memRead_takeWhile_of_lt {m : Memory} (hm : m.Pairwise (fun c d => c.1 < d.1)) {a i : Nat} (h : i < a) :
    memRead (m.takeWhile (fun c => decide (c.1 < a))) i = memRead m i := by
  induction m with
  | nil => rfl
  | cons c m ih =>
    rw [List.pairwise_cons] at hm
    rw [List.takeWhile_cons]
    by_cases hc : c.1 < a
    · simp only [hc, decide_true, if_true, memRead, ih hm.2]
    · simp only [hc, decide_false, Bool.false_eq_true, if_false]
      symm
      apply memRead_none_of_forall_ne
      intro d hd
      rw [List.mem_cons] at hd
      rcases hd with rfl | hd
      · omega
      · have := hm.1 d hd
        omega

theorem memRead_dropWhile_of_le {m : Memory} {n i : Nat} (h : n ≤ i) :
    memRead (m.dropWhile (fun c => decide (c.1 < n))) i = memRead m i := by
  induction m with
  | nil => rfl
  | cons c m ih =>
    rw [List.dropWhile_cons]
    by_cases hc : c.1 < n
    · simp only [hc, decide_true, if_true, ih, memRead]
      rw [if_neg (by omega)]
    · simp only [hc, decide_false, Bool.false_eq_true, if_false]

/-- A read outside the range just written gives what it gave before. -/
theorem memRead_memWriteRange_out {m : Memory} (hm : memWf m = true) (a : Nat) (bs : List Byte) (i : Nat)
    (h : i < a ∨ a + bs.length ≤ i) : memRead (memWriteRange m a bs) i = memRead m i := by
  rw [memWf_iff_pairwise] at hm
  have hc : memRead (memCells a bs) i = none :=
    memRead_none_of_forall_ne fun c hc => by have := mem_memCells hc; omega
  simp only [memWriteRange, memRead_append, hc, Option.or_none]
  rcases h with h | h
  · rw [memRead_takeWhile_of_lt hm h]
    have : memRead (m.dropWhile (fun c => decide (c.1 < a + bs.length))) i = none :=
      memRead_none_of_forall_ne fun c hc => by have := le_of_mem_dropWhile hm hc; omega
    rw [this, Option.or_none]
  · rw [memRead_dropWhile_of_le h]
    have : memRead (m.takeWhile (fun c => decide (c.1 < a))) i = none :=
      memRead_none_of_forall_ne fun c hc => by have := lt_of_mem_takeWhile hc; omega
    rw [this, Option.none_or]

/-! ## Consecutive writes from index 0 on -/

theorem memCells_append (a : Nat) (bs cs : List Byte) :
    memCells a (bs ++ cs) = memCells a bs ++ memCells (a + bs.length) cs := by
  induction bs generalizing a with
  | nil => simp [memCells]
  | cons b bs ih =>
    simp only [List.cons_append, memCells, ih, List.length_cons]
    have e : a + 1 + bs.length = a + (bs.length + 1) := by omega
    rw [e]

theorem memCells_takeWhile (bs : List Byte) (a n : Nat) (h : a + bs.length ≤ n) (m : Memory) :
    (memCells a bs ++ m).takeWhile (fun c => decide (c.1 < n))
      = memCells a bs ++ m.takeWhile (fun c => decide (c.1 < n)) := by
  induction bs generalizing a with
  | nil => simp [memCells]
  | cons b bs ih =>
    simp only [List.length_cons] at h
    have h1 : a < n := by omega
    simp [memCells, h1, ih (a + 1) (by omega)]

theorem memCells_dropWhile (bs : List Byte) (a n : Nat) (h : a + bs.length ≤ n) (m : Memory) :
    (memCells a bs ++ m).dropWhile (fun c => decide (c.1 < n)) = m.dropWhile (fun c => decide (c.1 < n)) := by
  induction bs generalizing a with
  | nil => simp [memCells]
  | cons b bs ih =>
    simp only [List.length_cons] at h
    have h1 : a < n := by omega
    simp [memCells, h1, ih (a + 1) (by omega)]

theorem takeWhile_dropWhile_nil {α : Type} (p : α → Bool) (l : List α) : (l.dropWhile p).takeWhile p = [] := by
  induction l with
  | nil => rfl
  | cons x l ih =>
    rw [List.dropWhile_cons]
    split
    · exact ih
    · simp [*]

/-- A space whose first bytes are `us` and which holds nothing else below `us.length`: the shape that writing bytes
from index 0 on leaves, whatever was there before. -/
def memStartsWith (m : Memory) (us : List Byte) : Prop :=
  ∃ rest : Memory, m = memCells 0 us ++ rest.dropWhile (fun c => decide (c.1 < us.length))

theorem memStartsWith_nil (m : Memory) : memStartsWith m [] := by
  refine ⟨m, ?_⟩
  cases m <;> simp [memCells]

theorem memStartsWith_write {m : Memory} {us : List Byte} (h : memStartsWith m us) (vs : List Byte) :
    memStartsWith (memWriteRange m us.length vs) (us ++ vs) := by
  obtain ⟨rest, rfl⟩ := h
  refine ⟨(memCells 0 us ++ rest.dropWhile (fun c => decide (c.1 < us.length))), ?_⟩
  rw [memWriteRange, memCells_takeWhile _ _ _ (by omega), takeWhile_dropWhile_nil, memCells_append]
  simp

theorem memStartsWith_read {m : Memory} {us : List Byte} (h : memStartsWith m us) {i : Nat} (hi : i < us.length) :
    memRead m i = us[i]? := by
  obtain ⟨rest, rfl⟩ := h
  have h2 : us[i]? = some us[i] := List.getElem?_eq_getElem hi
  simp [memRead_append, memRead_memCells, h2]

end Sys2Proof.Machine
end

