-- ==== Sys2Proof/Laws/Transaction.lean ====
section
/-!
SUPPORT. A transaction: with a usable backend, exactly what it does (R170 to R176); with any, what it can change and
what it keeps.
-/
namespace Sys2Proof.Machine

/-! ## Small lemmas -/

theorem sampleCount_bytesEvents (h : Word) (vs us : List Byte) (hl : us.length = vs.length) :
    sampleCount (bytesEvents h vs us) = 8 * vs.length := by
  induction vs generalizing us with
  | nil => cases us <;> rfl
  | cons v vs ih =>
    match us, hl with
    | u :: us, hl =>
      simp only [List.length_cons, Nat.add_right_cancel_iff] at hl
      simp only [bytesEvents, sampleCount_append, sampleCount_byteEvents, ih us hl, List.length_cons]
      omega

theorem sampleCount_frameEvents (p : Params) (h : Word) (vs us : List Byte) (hl : us.length = vs.length) :
    sampleCount (frameEvents p h vs us) = 8 * vs.length := by
  simp [frameEvents, sampleCount, sampleCount_append, sampleCount_bytesEvents h vs us hl]

theorem length_byteEvents (v u : Byte) (h : Word) : (byteEvents v u h).length = 48 := rfl

/-- How many events a frame of `n` bytes has (R122). -/
theorem length_frameEvents (p : Params) (h : Word) (vs us : List Byte) (hl : us.length = vs.length) :
    (frameEvents p h vs us).length = 4 + 48 * vs.length := by
  have hb : (bytesEvents h vs us).length = 48 * vs.length := by
    induction vs generalizing us with
    | nil => cases us <;> rfl
    | cons v vs ih =>
      match us, hl with
      | u :: us, hl =>
        simp only [List.length_cons, Nat.add_right_cancel_iff] at hl
        simp only [bytesEvents, List.length_append, length_byteEvents, ih us hl, List.length_cons]
        omega
  simp only [frameEvents, List.length_cons, List.length_append, hb, List.length_nil]
  omega

theorem length_frameOut (p : Params) (wbytes : List Byte) (r : Nat) :
    (frameOut p wbytes r).length = wbytes.length + r := by
  simp [frameOut]

/-! ## With a usable backend -/

/-- Where a frame of `outs` leaves the machine, `us` having been sampled (R170): chip-select deasserted, the clock low,
data-out at the last bit sent, ACC at the last byte sampled. -/
def frameAfter (s : State) (outs us : List Byte) (ib : Memory) : State :=
  { s with
    cs := s.params.csDeassert
    sck := if outs = [] then s.sck else 0
    mosi := (outs.getLast?.map (bitAt · 0)).getD s.mosi
    acc := us.getLast?.getD s.acc
    inBuf := ib
    trace := (frameEvents s.params s.halfPeriod outs us).reverse ++ s.trace
    env.dataIn := s.env.dataIn.drop (8 * outs.length) }

/-- The bytes of a frame with a usable backend (R170 step 4). -/
theorem bytesLoop_ready (outs pre : List Byte) {s : State} (h : s.Ready) (hin : memStartsWith s.inBuf pre)
    (hout : ∀ j (hj : j < outs.length), s.outAt (pre.length + j) = outs[j]) :
    ∃ (us : List Byte) (ib : Memory), us.length = outs.length ∧
      bytesLoop outs.length pre.length s = .ok ()
        { s with
          sck := if outs = [] then s.sck else 0
          mosi := (outs.getLast?.map (bitAt · 0)).getD s.mosi
          acc := us.getLast?.getD s.acc
          inBuf := ib
          trace := (bytesEvents s.halfPeriod outs us).reverse ++ s.trace
          env.dataIn := s.env.dataIn.drop (8 * outs.length) }
      ∧ memStartsWith ib (pre ++ us)
      ∧ answered s.env.world s.env.dataIn s.trace (bytesEvents s.halfPeriod outs us) = true := by
  induction outs generalizing pre s with
  | nil =>
    refine ⟨[], s.inBuf, rfl, ?_, by simpa using hin, rfl⟩
    simp [bytesLoop, bytesEvents]
  | cons v outs ih =>
    have hv : s.outAt pre.length = v := hout 0 (by simp)
    obtain ⟨u, hu, hans⟩ := xbyte_ready h v
    let s' : State := storeIn pre.length u
      { s with
        mosi := bitAt v 0, sck := 0, acc := u
        trace := (byteEvents v u s.halfPeriod).reverse ++ s.trace
        env.dataIn := s.env.dataIn.drop 8 }
    have hin' : memStartsWith s'.inBuf (pre ++ [u]) := memStartsWith_write hin [u]
    have hout' : ∀ j (hj : j < outs.length), s'.outAt ((pre ++ [u]).length + j) = outs[j] := by
      intro j hj
      have := hout (j + 1) (by simpa using hj)
      simp only [List.getElem_cons_succ] at this
      rw [← this, List.length_append, List.length_singleton]
      have e : pre.length + 1 + j = pre.length + (j + 1) := by omega
      rw [e]
      rfl
    obtain ⟨us, ib, hlen, hrun, hib, hans'⟩ := ih (pre ++ [u]) (s := s') h hin' hout'
    refine ⟨u :: us, ib, by simp [hlen], ?_, by simpa using hib, ?_⟩
    · simp only [List.length_cons, bytesLoop, hv, hu, Run.bind_ok]
      rw [List.length_append, List.length_singleton] at hrun
      change bytesLoop outs.length (pre.length + 1) s' = _
      rw [hrun]
      simp only [s', storeIn, Run.ok.injEq, true_and, State.mk.injEq, bytesEvents, List.reverse_append,
        List.append_assoc, List.drop_drop]
      have e8 : 8 + 8 * outs.length = 8 * (outs.length + 1) := by omega
      refine ⟨by simp, ?_, ?_, by rw [e8]⟩
      · cases outs with
        | nil => simp
        | cons w outs => simp [List.getLast?_cons]
      · cases us with
        | nil => simp
        | cons w us => simp [List.getLast?_cons]
    · simp only [bytesEvents, answered_append, hans, Bool.true_and, sampleCount_byteEvents]
      exact hans'

theorem outAt_of_startsWith {s : State} {outs : List Byte} (h : memStartsWith s.outBuf outs) (j : Nat)
    (hj : j < outs.length) : s.outAt j = outs[j] := by
  simp [State.outAt, memStartsWith_read h hj, List.getElem?_eq_getElem hj]

/-- A frame with a usable backend (R122, R175). -/
theorem frameRun_ready (outs : List Byte) {s : State} (h : s.Ready) (hout : memStartsWith s.outBuf outs) :
    ∃ (us : List Byte) (ib : Memory), us.length = outs.length ∧
      frameRun outs.length s = .ok () (frameAfter s outs us ib) ∧ memStartsWith ib us
      ∧ answered s.env.world s.env.dataIn s.trace (frameEvents s.params s.halfPeriod outs us) = true := by
  let s1 : State := { s with cs := s.params.csAssert, trace := .cs s.params.csAssert :: s.trace }
  obtain ⟨us, ib, hlen, hrun, hib, hans⟩ := bytesLoop_ready outs [] (s := s1) h (memStartsWith_nil _)
    (fun j hj => by simpa using outAt_of_startsWith (s := s1) hout j hj)
  refine ⟨us, ib, hlen, ?_, by simpa using hib, ?_⟩
  · simp only [List.length_nil] at hrun
    simp only [frameRun, setCs_ready h, Run.bind_ok]
    change (bytesLoop outs.length 0 s1).bind _ = _
    rw [hrun]
    simp only [Run.bind_ok]
    rw [setCs_ready (by exact h)]
    simp [s1, delay, State.emit, frameAfter, frameEvents]
  · simp only [frameEvents, List.cons_append, answered, answered_append, Bool.and_true]
    exact hans

/-- `MemRead` of the response after a frame: the bytes sampled in the read field (R176). -/
theorem inBytes_of_startsWith {s : State} {us : List Byte} (h : memStartsWith s.inBuf us) (w r : Nat)
    (hl : us.length = w + r) : s.inBytes w r = us.drop w := by
  apply List.ext_getElem
  · simp [State.inBytes]
    omega
  · intro k hk hk'
    have hk2 : w + k < us.length := by
      simp only [List.length_drop] at hk'
      omega
    simp [State.inBytes, State.inAt, memStartsWith_read h hk2, List.getElem?_eq_getElem hk2]

/-- The growth of step 1, when it does not fail (R172). -/
theorem grow_ok {s : State} {req : Nat} (h : req ≤ max s.cap s.params.bufMax) :
    ∃ (ob ib : Memory) (sp : Span),
      grow req s = .ok () { s with cap := max s.cap req, outBuf := ob, inBuf := ib, span := sp } := by
  unfold grow
  by_cases hc : s.cap < req
  · have hb : ¬ s.params.bufMax < req := by omega
    refine ⟨[], [], (s.setCap req).span, ?_⟩
    have e : max s.cap req = req := by omega
    simp [hc, hb, e, State.setCap]
  · refine ⟨s.outBuf, s.inBuf, s.span, ?_⟩
    have e : max s.cap req = s.cap := by omega
    simp [hc, e]

/-- Where a completed transaction leaves the machine. -/
def txAfter (s : State) (wbytes : List Byte) (r : Nat) (us : List Byte) (ob ib : Memory) (sp : Span) :
    State :=
  frameAfter { s with cap := max s.cap (max (wbytes.length + r) s.params.floor), outBuf := ob, span := sp }
    (frameOut s.params wbytes r) us ib

/-- OUT after step 2 (R91, R174). -/
theorem fillScratch_startsWith (s : State) (wbytes : List Byte) (r : Nat) :
    memStartsWith (fillScratch wbytes r s).outBuf (frameOut s.params wbytes r) :=
  memStartsWith_write (memStartsWith_write (us := []) (memStartsWith_nil s.outBuf) wbytes)
    (List.replicate r s.params.filler)

/-- A transaction with a usable backend that passes the length check and whose buffers can hold it completes: its frame
is sent, its response is what was sampled in the read field (R170 to R176). -/
theorem transaction_ready (wbytes : List Byte) (r : Nat) {s : State} (h : s.Ready)
    (hl : wbytes.length + r ≤ s.params.ceiling)
    (hb : max (wbytes.length + r) s.params.floor ≤ max s.cap s.params.bufMax) :
    ∃ (us : List Byte) (ob ib : Memory) (sp : Span), us.length = wbytes.length + r ∧
      transaction wbytes r s = .ok (codeOk, us.drop wbytes.length) (txAfter s wbytes r us ob ib sp)
      ∧ memStartsWith ob (frameOut s.params wbytes r) ∧ memStartsWith ib us
      ∧ answered s.env.world s.env.dataIn s.trace
          (frameEvents s.params s.halfPeriod (frameOut s.params wbytes r) us) = true := by
  obtain ⟨ob0, ib0, sp, hgrow⟩ := grow_ok hb
  let s1 : State :=
    { s with cap := max s.cap (max (wbytes.length + r) s.params.floor), outBuf := ob0, inBuf := ib0, span := sp }
  have hs2 : State.Ready (fillScratch wbytes r s1) := h
  have hout : memStartsWith (fillScratch wbytes r s1).outBuf (frameOut s.params wbytes r) :=
    fillScratch_startsWith s1 wbytes r
  obtain ⟨us, ib, hlen, hrun, hib, hans⟩ := frameRun_ready (frameOut s.params wbytes r) hs2 hout
  rw [length_frameOut] at hlen hrun
  refine ⟨us, (fillScratch wbytes r s1).outBuf, ib, sp, hlen, ?_, hout, hib, hans⟩
  have hnot : ¬ s.params.ceiling < wbytes.length + r := by omega
  simp only [transaction, if_neg hnot, hgrow, Run.bind_ok]
  change (frameRun (wbytes.length + r) (fillScratch wbytes r s1)).bind _ = _
  rw [hrun]
  simp only [Run.bind_ok]
  rw [inBytes_of_startsWith (us := us) (by exact hib) _ _ hlen]
  rfl

/-- InvalidLength: refused before anything happens (R171). -/
theorem transaction_invalidLength (wbytes : List Byte) (r : Nat) {s : State}
    (h : s.params.ceiling < wbytes.length + r) : transaction wbytes r s = .ok (codeInvalidLength, []) s := by
  simp [transaction, h]

/-- NoBackend: steps 1 and 2 have run, no event (R245). -/
theorem transaction_noBackend (wbytes : List Byte) (r : Nat) {s : State}
    (h : s.backendSel ∉ s.params.validBackends) (hl : wbytes.length + r ≤ s.params.ceiling)
    (hb : max (wbytes.length + r) s.params.floor ≤ max s.cap s.params.bufMax) :
    ∃ ob ib : Memory, transaction wbytes r s = .halt
      ({ s with cap := max s.cap (max (wbytes.length + r) s.params.floor), outBuf := ob, inBuf := ib }.raiseFatal
        codeNoBackend) := by
  obtain ⟨ob0, ib0, sp, hgrow⟩ := grow_ok hb
  let s1 : State :=
    { s with cap := max s.cap (max (wbytes.length + r) s.params.floor), outBuf := ob0, inBuf := ib0, span := sp }
  refine ⟨(fillScratch wbytes r s1).outBuf, (fillScratch wbytes r s1).inBuf, ?_⟩
  have hnot : ¬ s.params.ceiling < wbytes.length + r := by omega
  have hcs : setCs s.params.csAssert (fillScratch wbytes r s1)
      = .halt ((fillScratch wbytes r s1).raiseFatal codeNoBackend) :=
    setCs_noBackend (s := fillScratch wbytes r s1) h _
  simp only [transaction, if_neg hnot, hgrow, Run.bind_ok, frameRun]
  change (Run.bind ((setCs s.params.csAssert (fillScratch wbytes r s1)).bind _) _) = _
  rw [hcs]
  rfl

/-! ## With any backend -/

/-- The part of `SpaceInv` about OUT and IN. -/
def ScratchInv (s : State) : Prop :=
  memWf s.outBuf = true ∧ memWf s.inBuf = true ∧ (∀ c ∈ s.outBuf, c.1 < s.cap) ∧ (∀ c ∈ s.inBuf, c.1 < s.cap)

/-- What a transaction may change, and what it keeps of the invariants. -/
structure TxMove (s t : State) : Prop where
  only : t = { s with
    cs := t.cs, sck := t.sck, mosi := t.mosi, acc := t.acc, cap := t.cap, outBuf := t.outBuf, inBuf := t.inBuf
    span := t.span, trace := t.trace
    env := { s.env with dataIn := t.env.dataIn, pinFaults := t.env.pinFaults } }
  cap_le : s.cap ≤ t.cap
  cap_range : t.cap = s.cap ∨ (s.params.floor ≤ t.cap ∧ t.cap ≤ s.params.bufMax)
  scratch : ScratchInv s → ScratchInv t
  grows : s.trace <:+ t.trace

theorem TxMove.refl (s : State) : TxMove s s := ⟨rfl, Nat.le_refl _, .inl rfl, id, List.suffix_rfl⟩

theorem TxMove.params_eq {s t : State} (h : TxMove s t) : t.params = s.params := by rw [h.only]

theorem TxMove.trans {s t u : State} (h : TxMove s t) (h' : TxMove t u) : TxMove s u where
  only := by rw [h'.only, h.only]
  cap_le := Nat.le_trans h.cap_le h'.cap_le
  cap_range := by
    rcases h'.cap_range with e | e
    · rw [e]; exact h.cap_range
    · rw [h.params_eq] at e; exact .inr e
  scratch := fun hs => h'.scratch (h.scratch hs)
  grows := h.grows.trans h'.grows

theorem BusMove.txMove {s t : State} (h : BusMove s t) : TxMove s t where
  only := by rw [h.only]
  cap_le := Nat.le_of_eq (congrArg State.cap h.only).symm
  cap_range := by rw [h.only]; exact .inl rfl
  scratch := by rw [h.only]; exact id
  grows := h.grows

/-- A fatal end inside a transaction, reached after what it may change (R242, R245, R248). -/
def TxFatal (s t : State) : Prop :=
  ∃ u : State, TxMove s u ∧
    (t = u.raiseFatal codeAllocationFailure ∨ t = u.raiseFatal codeNoBackend ∨ t = u.raiseFatal codeBackendFault)

theorem TxFatal.after {s s' t : State} (h : TxMove s s') (h' : TxFatal s' t) : TxFatal s t := by
  obtain ⟨u, hu, ht⟩ := h'
  exact ⟨u, h.trans hu, ht⟩

theorem FatalAfter.txFatal {s t : State} (h : FatalAfter BusMove s t) : TxFatal s t := by
  obtain ⟨u, hu, ht⟩ := h
  exact ⟨u, hu.txMove, .inr ht⟩

theorem setCs_all (l : Bit) (s : State) :
    (setCs l s).All (fun _ t => TxMove s t ∧ t.cs = l ∧ t.sck = s.sck ∧ t.cap = s.cap) (TxFatal s) := by
  obtain ⟨pf, h | h | h⟩ := resolve_cases s <;> simp only [setCs, h, Run.bind_ok, Run.bind_halt, Run.All]
  · exact ⟨⟨rfl, Nat.le_refl _, .inl rfl, id, List.suffix_cons _ _⟩, rfl, rfl, rfl⟩
  · exact ⟨{ s with env.pinFaults := pf }, (BusMove.of_pinFaults s pf).txMove, .inr (.inl rfl)⟩
  · exact ⟨{ s with env.pinFaults := pf }, (BusMove.of_pinFaults s pf).txMove, .inr (.inr rfl)⟩

theorem grow_all (req : Nat) (s : State) (hf : s.params.floor ≤ req) :
    (grow req s).All (fun _ t => TxMove s t ∧ req ≤ t.cap ∧ t.cs = s.cs ∧ t.sck = s.sck) (TxFatal s) := by
  unfold grow
  split
  · split
    · exact ⟨s, TxMove.refl s, .inl rfl⟩
    · refine ⟨⟨rfl, by simp only [setCap_cap]; omega, .inr ⟨hf, by simp only [setCap_cap]; omega⟩, fun _ => ?_,
        List.suffix_rfl⟩, Nat.le_refl _, rfl, rfl⟩
      exact ⟨rfl, rfl, by simp, by simp⟩
  · exact ⟨TxMove.refl s, by omega, rfl, rfl⟩

theorem fillScratch_txMove (wbytes : List Byte) (r : Nat) {s : State} (hc : wbytes.length + r ≤ s.cap) :
    TxMove s (fillScratch wbytes r s) where
  only := rfl
  cap_le := Nat.le_refl _
  cap_range := .inl rfl
  scratch := fun h => by
    refine ⟨memWriteRange_wf (memWriteRange_wf h.1 _ _) _ _, memWriteRange_wf h.2.1 _ _, ?_, ?_⟩
    · exact memWriteRange_lt (memWriteRange_lt h.2.2.1 (by simp only [fillScratch_cap]; omega)) (by simpa using hc)
    · exact memWriteRange_lt h.2.2.2 (by simpa using hc)
  grows := List.suffix_rfl

theorem storeIn_txMove (p : Nat) (u : Byte) {s : State} (hp : p < s.cap) : TxMove s (storeIn p u s) where
  only := rfl
  cap_le := Nat.le_refl _
  cap_range := .inl rfl
  scratch := fun h => ⟨h.1, memWrite_wf h.2.1 _ _, h.2.2.1, memWrite_lt h.2.2.2 hp⟩
  grows := List.suffix_rfl

theorem bytesLoop_all (k p : Nat) (s : State) (hp : p + k ≤ s.cap) :
    (bytesLoop k p s).All (fun _ t => TxMove s t ∧ t.cs = s.cs ∧ (s.sck = 0 → t.sck = 0)) (TxFatal s) := by
  induction k generalizing p s with
  | zero => exact ⟨TxMove.refl s, rfl, id⟩
  | succ k ih =>
    refine ((xbyte_all (s.outAt p) s).imp (fun _ _ h => h) fun _ h => h.txFatal).bind fun u s1 h1 => ?_
    have e1 : TxMove s s1 := h1.1.txMove
    have ecap : s1.cap = s.cap := by rw [h1.1.only]
    have ecs : s1.cs = s.cs := by rw [h1.1.only]
    have e2 : TxMove s (storeIn p u s1) := e1.trans (storeIn_txMove p u (by omega))
    refine (ih (p + 1) (storeIn p u s1) (by simp only [storeIn_cap]; omega)).imp
      (fun _ t h => ⟨e2.trans h.1, by rw [h.2.1, storeIn_cs, ecs], fun _ => h.2.2 h1.2⟩) fun _ h => h.after e2

theorem frameRun_all (n : Nat) (s : State) (hn : n ≤ s.cap) :
    (frameRun n s).All (fun _ t => TxMove s t ∧ t.cs = s.params.csDeassert ∧ (s.sck = 0 → t.sck = 0))
      (TxFatal s) := by
  refine (setCs_all s.params.csAssert s).bind fun _ s1 h1 => ?_
  refine ((bytesLoop_all n 0 s1 (by omega)).imp (fun _ _ h => h) fun _ h => h.after h1.1).bind fun _ s2 h2 => ?_
  have e2 : TxMove s s2 := h1.1.trans h2.1
  have e3 : TxMove s (delay s2) := e2.trans (BusMove.delay s2).txMove
  refine ((setCs_all s2.params.csDeassert (delay s2)).imp (fun _ _ h => h) fun _ h => h.after e3).bind
    fun _ s3 h3 => ?_
  refine ⟨(e3.trans h3.1).trans (BusMove.delay s3).txMove, ?_, ?_⟩
  · rw [delay_cs, h3.2.1, e2.params_eq]
  · intro h
    rw [delay_sck, h3.2.2.1, delay_sck]
    exact h2.2.2 (by rw [h1.2.2.1]; exact h)

/-- Everything a transaction can do: refuse the length and change nothing, complete, or end fatally (R170). -/
theorem transaction_all (wbytes : List Byte) (r : Nat) (s : State) :
    (transaction wbytes r s).All
      (fun res t => TxMove s t ∧ (s.sck = 0 → t.sck = 0) ∧
        ((res = (codeInvalidLength, []) ∧ t = s) ∨
          (res.1 = codeOk ∧ res.2.length = r ∧ t.cs = s.params.csDeassert
            ∧ max (wbytes.length + r) s.params.floor ≤ t.cap)))
      (TxFatal s) := by
  unfold transaction
  split
  · exact ⟨TxMove.refl s, id, .inl ⟨rfl, rfl⟩⟩
  · refine (grow_all (max (wbytes.length + r) s.params.floor) s (by omega)).bind fun _ s1 h1 => ?_
    have hcap : wbytes.length + r ≤ s1.cap := by omega
    have e2 : TxMove s (fillScratch wbytes r s1) := h1.1.trans (fillScratch_txMove wbytes r hcap)
    refine ((frameRun_all (wbytes.length + r) (fillScratch wbytes r s1) hcap).imp (fun _ _ h => h)
      fun _ h => h.after e2).bind fun _ s3 h3 => ?_
    refine ⟨e2.trans h3.1, fun h => h3.2.2 ?_, .inr ⟨rfl, by simp [State.inBytes], ?_, ?_⟩⟩
    · rw [fillScratch_sck, h1.2.2.2]; exact h
    · rw [h3.2.1, fillScratch_params, h1.1.params_eq]
    · have := h3.1.cap_le
      rw [fillScratch_cap] at this
      omega

end Sys2Proof.Machine
end

