-- ==== Sys2Proof/Laws/Sequencer.lean ====
section
/-!
SUPPORT. The sequencer: everything one phase of a running operation can do, said once.
-/
namespace Sys2Proof.Machine

/-- What a phase may change that goes on running, appending the events `evs` (newest first): neither the configuration
nor RESULT, ERR or TOP, nor what the host owns. -/
structure Phase (evs : List Event) (s t : State) : Prop where
  only : t = { s with
    cs := t.cs, sck := t.sck, mosi := t.mosi, acc := t.acc, cap := t.cap, outBuf := t.outBuf, inBuf := t.inBuf
    pres := t.pres, sr := t.sr, off := t.off, hr := t.hr, initph := t.initph, tx := t.tx, rd := t.rd, pp := t.pp
    span := t.span, trace := t.trace
    env := { s.env with
      dataIn := t.env.dataIn, pinFaults := t.env.pinFaults, pageCalls := t.env.pageCalls
      statusCalls := t.env.statusCalls } }
  cap_le : s.cap ≤ t.cap
  cap_range : t.cap = s.cap ∨ (s.params.floor ≤ t.cap ∧ t.cap ≤ s.params.bufMax)
  scratch : ScratchInv s → ScratchInv t
  hr_wf : memWf s.hr = true → memWf t.hr = true
  events : t.trace = evs ++ s.trace
  delays : ∀ d, Event.delay d ∈ evs → d = s.halfPeriod

theorem Phase.params_eq {evs : List Event} {s t : State} (h : Phase evs s t) : t.params = s.params := by rw [h.only]

theorem Phase.half_eq {evs : List Event} {s t : State} (h : Phase evs s t) : t.halfPeriod = s.halfPeriod := by
  rw [h.only]

theorem Phase.trans {xs ys : List Event} {s t u : State} (h : Phase xs s t) (h' : Phase ys t u) :
    Phase (ys ++ xs) s u where
  only := by rw [h'.only, h.only]
  cap_le := Nat.le_trans h.cap_le h'.cap_le
  cap_range := by
    rcases h'.cap_range with e | e
    · rw [e]; exact h.cap_range
    · rw [h.params_eq] at e; exact .inr e
  scratch := fun hs => h'.scratch (h.scratch hs)
  hr_wf := fun hw => h'.hr_wf (h.hr_wf hw)
  events := by rw [h'.events, h.events, List.append_assoc]
  delays := fun d hd => by
    rcases List.mem_append.mp hd with hd | hd
    · rw [h'.delays d hd, h.half_eq]
    · exact h.delays d hd

/-- A phase without an event that leaves CAP, the buffers and HR alone. -/
theorem Phase.quiet {s t : State} (h : t = { s with
    cs := t.cs, sck := t.sck, mosi := t.mosi, acc := t.acc, pres := t.pres, sr := t.sr, off := t.off
    initph := t.initph, tx := t.tx, rd := t.rd, pp := t.pp, span := t.span
    env := { s.env with
      dataIn := t.env.dataIn, pinFaults := t.env.pinFaults, pageCalls := t.env.pageCalls
      statusCalls := t.env.statusCalls } }) : Phase [] s t where
  only := by rw [h]
  cap_le := Nat.le_of_eq (congrArg State.cap h).symm
  cap_range := .inl (by have e := congrArg State.cap h; exact e)
  scratch := by rw [h]; exact id
  hr_wf := by rw [h]; exact id
  events := by have e := congrArg State.trace h; exact e
  delays := fun _ hd => by cases hd

theorem Phase.refl (s : State) : Phase [] s s := .quiet rfl

/-- A phase of one event that leaves CAP, the buffers and HR alone. -/
theorem Phase.one {s t : State} (e : Event) (h : t = { s with
    cs := t.cs, sck := t.sck, mosi := t.mosi, acc := t.acc, trace := e :: s.trace
    env := { s.env with dataIn := t.env.dataIn, pinFaults := t.env.pinFaults } })
    (hd : ∀ d, e = .delay d → d = s.halfPeriod) : Phase [e] s t where
  only := by rw [h]
  cap_le := Nat.le_of_eq (congrArg State.cap h).symm
  cap_range := .inl (by have e := congrArg State.cap h; exact e)
  scratch := by rw [h]; exact id
  hr_wf := by rw [h]; exact id
  events := by have e := congrArg State.trace h; exact e
  delays := fun d hm => hd d (List.mem_singleton.mp hm).symm

/-- A fatal end of a phase: no event of it (R242, R245, R248). -/
def PhaseFatal (s t : State) : Prop :=
  ∃ u : State, Phase [] s u ∧
    (t = u.raiseFatal codeAllocationFailure ∨ t = u.raiseFatal codeNoBackend ∨ t = u.raiseFatal codeBackendFault)

theorem PhaseFatal.after {s s' t : State} (h : Phase [] s s') (h' : PhaseFatal s' t) : PhaseFatal s t := by
  obtain ⟨u, hu, ht⟩ := h'
  exact ⟨u, h.trans hu, ht⟩

/-- A phase of one event at most. -/
def OnePhase (s t : State) : Prop := ∃ evs : List Event, evs.length ≤ 1 ∧ Phase evs s t

theorem Phase.onePhase {s t : State} (h : Phase [] s t) : OnePhase s t := ⟨[], by simp, h⟩

theorem OnePhase.quiet {s t u : State} (h : OnePhase s t) (h' : Phase [] t u) : OnePhase s u := by
  obtain ⟨evs, hl, h⟩ := h
  exact ⟨[] ++ evs, by simpa using hl, h.trans h'⟩

theorem OnePhase.after {s t u : State} (h : Phase [] s t) (h' : OnePhase t u) : OnePhase s u := by
  obtain ⟨evs, hl, h'⟩ := h'
  exact ⟨evs ++ [], by simpa using hl, h.trans h'⟩

theorem OnePhase.delay (s : State) : OnePhase s (delay s) :=
  ⟨[.delay s.halfPeriod], by simp, .one _ rfl fun d h => by cases h; rfl⟩

/-! ## Primitives -/

theorem setCs_phase (l : Bit) (s : State) : (setCs l s).All (fun _ t => OnePhase s t ∧ t.tx = s.tx) (PhaseFatal s) := by
  obtain ⟨pf, h | h | h⟩ := resolve_cases s <;> simp only [setCs, h, Run.bind_ok, Run.bind_halt, Run.All]
  · exact ⟨⟨[.cs l], by simp, .one _ rfl fun d h => by cases h⟩, rfl⟩
  · exact ⟨{ s with env.pinFaults := pf }, .quiet rfl, .inr (.inl rfl)⟩
  · exact ⟨{ s with env.pinFaults := pf }, .quiet rfl, .inr (.inr rfl)⟩

theorem setSck_phase (l : Bit) (s : State) : (setSck l s).All (fun _ t => OnePhase s t ∧ t.tx = s.tx) (PhaseFatal s) := by
  obtain ⟨pf, h | h | h⟩ := resolve_cases s <;> simp only [setSck, h, Run.bind_ok, Run.bind_halt, Run.All]
  · exact ⟨⟨[.sck l], by simp, .one _ rfl fun d h => by cases h⟩, rfl⟩
  · exact ⟨{ s with env.pinFaults := pf }, .quiet rfl, .inr (.inl rfl)⟩
  · exact ⟨{ s with env.pinFaults := pf }, .quiet rfl, .inr (.inr rfl)⟩

theorem setMosi_phase (l : Bit) (s : State) : (setMosi l s).All (fun _ t => OnePhase s t ∧ t.tx = s.tx) (PhaseFatal s) := by
  obtain ⟨pf, h | h | h⟩ := resolve_cases s <;> simp only [setMosi, h, Run.bind_ok, Run.bind_halt, Run.All]
  · exact ⟨⟨[.mosi l], by simp, .one _ rfl fun d h => by cases h⟩, rfl⟩
  · exact ⟨{ s with env.pinFaults := pf }, .quiet rfl, .inr (.inl rfl)⟩
  · exact ⟨{ s with env.pinFaults := pf }, .quiet rfl, .inr (.inr rfl)⟩

theorem getMiso_phase (s : State) : (getMiso s).All (fun _ t => OnePhase s t ∧ t.tx = s.tx) (PhaseFatal s) := by
  obtain ⟨pf, h | h | h⟩ := resolve_cases s <;> simp only [getMiso, h, Run.bind_ok, Run.bind_halt, Run.All]
  · exact ⟨⟨[.miso _], by simp, .one _ rfl fun d h => by cases h⟩, rfl⟩
  · exact ⟨{ s with env.pinFaults := pf }, .quiet rfl, .inr (.inl rfl)⟩
  · exact ⟨{ s with env.pinFaults := pf }, .quiet rfl, .inr (.inr rfl)⟩

/-! ## Bits, bytes, transactions -/

/-- Everything a phase of a bit cell can do (R62). -/
theorem bitTick_all (o : Bit) (s : State) :
    (bitTick o s).All (fun _ t => OnePhase s t ∧ t.tx = { s.tx with bitph := t.tx.bitph }) (PhaseFatal s) := by
  unfold bitTick
  split
  · exact (setMosi_phase o s).bind fun _ t h => ⟨h.1.quiet (.quiet rfl), by simp [State.atBitph, h.2]⟩
  · exact ⟨(OnePhase.delay s).quiet (.quiet rfl), rfl⟩
  · exact (setSck_phase 1 s).bind fun _ t h => ⟨h.1.quiet (.quiet rfl), by simp [State.atBitph, h.2]⟩
  · exact (getMiso_phase s).bind fun b t h => ⟨h.1.quiet (.quiet rfl), by simp [State.atBitph, h.2]⟩
  · exact ⟨(OnePhase.delay s).quiet (.quiet rfl), rfl⟩
  · exact (setSck_phase 0 s).bind fun _ t h => ⟨h.1.quiet (.quiet rfl), by simp [State.atBitph, h.2]⟩

/-- Everything a phase of a byte can do (R62). -/
theorem byteTick_all (v : Byte) (s : State) :
    (byteTick v s).All
      (fun _ t => OnePhase s t ∧ t.tx = { s.tx with bitph := t.tx.bitph, bitpos := t.tx.bitpos }) (PhaseFatal s) := by
  refine (bitTick_all _ s).bind fun ended t h => ?_
  split
  · exact ⟨h.1.quiet (.quiet rfl), by simp only; rw [h.2]⟩
  · exact ⟨h.1, by rw [h.2]⟩

theorem grow_phase (req : Nat) (s : State) (hf : s.params.floor ≤ req) :
    (grow req s).All (fun _ t => Phase [] s t) (PhaseFatal s) := by
  unfold grow
  split
  · split
    · exact ⟨s, .refl s, .inl rfl⟩
    · rename_i hc hb
      exact ⟨rfl, by simp only [setCap_cap]; omega, .inr ⟨hf, by simp only [setCap_cap]; omega⟩,
        fun _ => ⟨rfl, rfl, by simp, by simp⟩, id, rfl, fun _ hd => by cases hd⟩
  · exact .refl s

theorem fillScratch_phase (wbytes : List Byte) (r : Nat) {s : State} (hc : wbytes.length + r ≤ s.cap) :
    Phase [] s (fillScratch wbytes r s) :=
  let h := fillScratch_txMove wbytes r hc
  ⟨rfl, h.cap_le, h.cap_range, h.scratch, id, rfl, fun _ hd => by cases hd⟩

theorem storeIn_phase (p : Nat) (u : Byte) {s : State} (hp : p < s.cap) : Phase [] s (storeIn p u s) :=
  let h := storeIn_txMove p u hp
  ⟨rfl, h.cap_le, h.cap_range, h.scratch, id, rfl, fun _ hd => by cases hd⟩

theorem writeHr_phase (s : State) (a : Nat) (bs : List Byte) : Phase [] s (s.writeHr a bs) :=
  ⟨rfl, Nat.le_refl _, .inl rfl, id, fun h => memWriteRange_wf h a bs, rfl, fun _ hd => by cases hd⟩

theorem nextByte_phase (s : State) : Phase [] s (nextByte s) := by
  unfold nextByte
  split <;> exact .quiet rfl

theorem programReturned_phase (r : Word) (s : State) : Phase [] s (programReturned r s) := by
  unfold programReturned
  split <;> exact .quiet rfl

theorem substNext_phase (s : State) : Phase [] s (substNext s) := by
  unfold substNext
  split
  · split
    · exact .quiet rfl
    · exact (Phase.quiet rfl).trans (programReturned_phase s.pp.result { s with pp.result := 0 })
  · exact .quiet rfl

theorem substEnded_phase (s : State) : Phase [] s (substEnded s) :=
  (Phase.quiet rfl).trans (substNext_phase { s with pp.todo := s.pp.todo.tail })

theorem length_txWriteBytes (s : State) : (txWriteBytes s).length = txWriteLen s := by
  unfold txWriteBytes txWriteLen
  cases s.tx.job <;>
    simp [rdBytes, wrenBytes, ppBytes, rdsrBytes, flashOffset, length_offsetBytes, State.hwBytes, State.pageData] <;>
    omega

/-- An operation that has ended with a code of R240 that is not fatal. -/
def PhaseEnds (s t : State) : Prop :=
  ∃ (u : State) (code : Byte), OnePhase s u ∧ t = u.endOp code
    ∧ (code = codeOk ∨ code = codeInvalidLength ∨ code = codeProgramFailure ∨ code = codeTimeout)

/-- Where a phase can stop the operation: at its end, or fatally. -/
def PhaseStops (s t : State) : Prop := PhaseEnds s t ∨ PhaseFatal s t

theorem Phase.ends {s : State} (code : Byte)
    (h : code = codeOk ∨ code = codeInvalidLength ∨ code = codeProgramFailure ∨ code = codeTimeout) :
    PhaseStops s (s.endOp code) := .inl ⟨s, code, (Phase.refl s).onePhase, rfl, h⟩

/-- Everything a phase of a transaction can do (R61). -/
theorem txTick_all (s : State) : (txTick s).All (fun _ t => OnePhase s t) (PhaseStops s) := by
  unfold txTick
  split
  · split
    · unfold txRefused
      split
      · exact (Phase.quiet rfl).onePhase
      · exact Phase.ends _ (.inr (.inl rfl))
      · exact Phase.ends _ (.inr (.inl rfl))
      · exact (programReturned_phase _ s).onePhase
      · exact (programReturned_phase _ s).onePhase
      · trivial
      · exact (substEnded_phase s).onePhase
    · exact (Phase.quiet rfl).onePhase
  · refine ((grow_phase _ s (by omega)).imp (fun _ _ h => h) fun _ h => .inr h).bind fun _ t h => ?_
    exact (h.trans (.quiet rfl)).onePhase
  · split
    · rename_i hc
      simp only [Bool.and_eq_true, decide_eq_true_eq] at hc
      exact ((fillScratch_phase (txWriteBytes s) s.tx.rcnt (by rw [length_txWriteBytes]; exact hc.2)).trans
        (.quiet rfl)).onePhase
    · trivial
  · split
    · refine ((setCs_phase _ s).imp (fun _ _ h => h) fun _ h => .inr h).bind fun _ t h => ?_
      exact h.1.quiet ((Phase.quiet rfl).trans (nextByte_phase { t with tx.pos := 0 }))
    · trivial
  · split
    · rename_i hc
      simp only [Bool.and_eq_true, decide_eq_true_eq] at hc
      refine ((byteTick_all _ s).imp (fun _ _ h => h) fun _ h => .inr h).bind fun ended t h => ?_
      split
      · have hcap : t.tx.pos < t.cap := by
          obtain ⟨⟨evs, -, hp⟩, htx⟩ := h
          rw [htx]
          exact Nat.lt_of_lt_of_le hc.2 hp.cap_le
        exact h.1.quiet (((storeIn_phase t.tx.pos t.acc hcap).trans (.quiet rfl)).trans (nextByte_phase _))
      · exact h.1
    · trivial
  · exact (OnePhase.delay s).quiet (.quiet rfl)
  · refine ((setCs_phase _ s).imp (fun _ _ h => h) fun _ h => .inr h).bind fun _ t h => ?_
    exact h.1.quiet (.quiet rfl)
  · exact (OnePhase.delay s).quiet (.quiet rfl)
  · split
    · have hcopy : (txCopy s).All (fun _ t => Phase [] s t) (PhaseStops s) := by
        unfold txCopy
        split
        · exact .refl s
        · exact writeHr_phase s _ _
        · exact writeHr_phase s _ _
        · exact .refl s
        · exact .refl s
        · split
          · trivial
          · exact .quiet rfl
        · exact .refl s
      exact hcopy.bind fun _ t h => (h.trans (.quiet rfl)).onePhase
    · trivial
  · unfold txDone
    split
    · exact (Phase.quiet rfl).onePhase
    · exact Phase.ends _ (.inl rfl)
    · exact (Phase.quiet rfl).onePhase
    · exact (Phase.quiet rfl).onePhase
    · exact (programReturned_phase _ s).onePhase
    · exact (Phase.quiet rfl).onePhase
    · exact (substEnded_phase s).onePhase

/-! ## Operations -/

/-- Everything READ can do between two chunks (R190). -/
theorem readTick_all (s : State) : (readTick s).All (fun _ t => OnePhase s t) (PhaseStops s) := by
  unfold readTick
  split
  · split
    · trivial
    · exact (Phase.quiet rfl).onePhase
  · exact Phase.ends _ (.inl rfl)

/-- Everything PROG can do between two transactions (R210). -/
theorem ppTick_all (s : State) : (ppTick s).All (fun _ t => OnePhase s t) (PhaseStops s) := by
  unfold ppTick
  split
  · split
    · split
      · trivial
      · exact (Phase.quiet rfl).onePhase
    · exact (Phase.quiet rfl).onePhase
  · split
    · exact (Phase.quiet rfl).onePhase
    · exact ((Phase.quiet rfl).trans (substNext_phase _)).onePhase
  · split
    · exact (Phase.quiet rfl).onePhase
    · exact ((Phase.quiet rfl).trans (substNext_phase _)).onePhase
  · split
    · exact (Phase.quiet rfl).onePhase
    · split <;> exact (Phase.quiet rfl).onePhase
  · exact (Phase.quiet rfl).onePhase
  · exact Phase.ends _ (.inl rfl)
  · exact Phase.ends _ (.inr (.inr (.inl rfl)))
  · exact Phase.ends _ (.inr (.inr (.inr rfl)))

/-- What a phase of any operation leaves, from `s`: the state it goes on in; the end of the operation, with RESULT
written for XBIT and XBYTE (R160, R162); or a fatal end. INIT's first phase latches its operands (R230). -/
def TickNext (s t : State) : Prop :=
  ∃ s0 u : State, (s0 = s ∨ (s.top = .run .init ∧ s0 = initLatch s)) ∧ OnePhase s0 u ∧
    (t = u
      ∨ (∃ code, t = u.endOp code ∧
          (code = codeOk ∨ code = codeInvalidLength ∨ code = codeProgramFailure ∨ code = codeTimeout
            ∨ code = codeInvalidBackend))
      ∨ ((s.top = .run .xbit ∨ s.top = .run .xbyte) ∧ ∃ r, t = { u with result := r }.endOp codeOk)
      ∨ t = u.raiseFatal codeAllocationFailure ∨ t = u.raiseFatal codeNoBackend ∨ t = u.raiseFatal codeBackendFault)

theorem TickNext.of_phase {s t : State} (h : OnePhase s t) : TickNext s t := ⟨s, t, .inl rfl, h, .inl rfl⟩

theorem TickNext.of_fatal {s t : State} (h : PhaseFatal s t) : TickNext s t := by
  obtain ⟨u, hu, ht⟩ := h
  exact ⟨s, u, .inl rfl, hu.onePhase, .inr (.inr (.inr ht))⟩

theorem TickNext.of_stops {s t : State} (h : PhaseStops s t) : TickNext s t := by
  rcases h with ⟨u, code, hu, ht, hc⟩ | h
  · refine ⟨s, u, .inl rfl, hu, .inr (.inl ⟨code, ht, ?_⟩)⟩
    rcases hc with h | h | h | h <;> simp [h]
  · exact .of_fatal h

theorem initTick_all (s : State) (hs : s.top = .run .init) :
    (initTick s).All (fun _ t => TickNext s t) (TickNext s) := by
  unfold initTick
  split
  · split
    · exact ⟨initLatch s, initLatch s, .inr ⟨hs, rfl⟩, (Phase.refl _).onePhase,
        .inr (.inl ⟨_, rfl, .inr (.inr (.inr (.inr rfl)))⟩)⟩
    · exact ⟨initLatch s, _, .inr ⟨hs, rfl⟩, (Phase.quiet rfl).onePhase, .inl rfl⟩
  · exact ((setCs_phase _ s).imp (fun _ _ h => h) fun _ h => .of_fatal h).bind
      fun _ t h => .of_phase (h.1.quiet (.quiet rfl))
  · exact ((setSck_phase 0 s).imp (fun _ _ h => h) fun _ h => .of_fatal h).bind
      fun _ t h => ⟨s, t, .inl rfl, h.1, .inr (.inl ⟨_, rfl, .inl rfl⟩)⟩

theorem xbitTick_all (s : State) (hs : s.top = .run .xbit) :
    (xbitTick s).All (fun _ t => TickNext s t) (TickNext s) := by
  refine ((bitTick_all _ s).imp (fun _ _ h => h) fun _ h => .of_fatal h).bind fun ended t h => ?_
  split
  · exact ⟨s, t, .inl rfl, h.1, .inr (.inr (.inl ⟨.inl hs, _, rfl⟩))⟩
  · exact .of_phase h.1

theorem xbyteTick_all (s : State) (hs : s.top = .run .xbyte) :
    (xbyteTick s).All (fun _ t => TickNext s t) (TickNext s) := by
  refine ((byteTick_all _ s).imp (fun _ _ h => h) fun _ h => .of_fatal h).bind fun ended t h => ?_
  split
  · exact ⟨s, t, .inl rfl, h.1, .inr (.inr (.inl ⟨.inr hs, _, rfl⟩))⟩
  · exact .of_phase h.1

/-- Everything a phase of any operation can do (R60). -/
theorem opTick_all (op : Op) (s : State) (hs : s.top = .run op) :
    (opTick op s).All (fun _ t => TickNext s t) (TickNext s) := by
  have htx : (txTick s).All (fun _ t => TickNext s t) (TickNext s) :=
    (txTick_all s).imp (fun _ _ h => .of_phase h) fun _ h => .of_stops h
  cases op with
  | init => exact initTick_all s hs
  | xbit => exact xbitTick_all s hs
  | xbyte => exact xbyteTick_all s hs
  | exec => exact htx
  | read =>
    change (if s.tx.job = .none then readTick s else txTick s).All _ _
    split
    · exact (readTick_all s).imp (fun _ _ h => .of_phase h) fun _ h => .of_stops h
    · exact htx
  | prog =>
    change (if s.tx.job = .none then ppTick s else txTick s).All _ _
    split
    · exact (ppTick_all s).imp (fun _ _ h => .of_phase h) fun _ h => .of_stops h
    · exact htx

/-- Everything `tick` can answer with a next state: nothing while no operation runs, else what a phase leaves. -/
theorem tick_next {s t : State} (h : tick s = .next t) :
    (s.busyBit = 0 ∧ t = s) ∨ (s.busyBit = 1 ∧ TickNext s t) := by
  unfold tick at h
  split at h
  · rename_i hs
    exact .inl ⟨by simp [State.busyBit, hs], by simpa using h.symm⟩
  · rename_i hs
    exact .inl ⟨by simp [State.busyBit, hs], by simpa using h.symm⟩
  · rename_i op hs
    refine .inr ⟨by simp [State.busyBit, hs], ?_⟩
    have ha := opTick_all op s hs
    split at h
    · rename_i u hu
      rw [hu] at ha
      have e : u = t := by simpa using h
      exact e ▸ ha
    · rename_i u hu
      rw [hu] at ha
      have e : u = t := by simpa using h
      exact e ▸ ha
    · cases h

end Sys2Proof.Machine
end

