-- ==== Sys2Proof/Laws/HostPort.lean ====
section
/-!
SUPPORT. Register reads: everything one can answer (R67, U15), and what holds at every moment of a running operation.
-/
namespace Sys2Proof.Machine

/-- Everything a register read can do: refuse an access that is not an aligned word, show a register of U15 at a moment
of the running operation, or show what the register holds. -/
theorem hostReadReg_cases (off : Word) (s : State) :
    (off.toNat % 4 ≠ 0 ∧ hostReadReg off s = .refused .unalignedRegister)
      ∨ (off.toNat % 4 = 0 ∧ s.busyBit = 1 ∧ unsettled off.toNat = true
          ∧ hostReadReg off s = .next
              ({ s with env.fresh := s.env.fresh + 1 }.hostGets
                (regInOp off.toNat (Config.busyMoment s.env.fresh) s)))
      ∨ (off.toNat % 4 = 0 ∧ (s.busyBit = 0 ∨ unsettled off.toNat = false)
          ∧ hostReadReg off s = .next (s.hostGets (regValue off.toNat s))) := by
  have hb : s.busyBit = 0 ∨ s.busyBit = 1 := by
    cases h : s.top <;> simp [State.busyBit, h]
  unfold hostReadReg
  split
  · rename_i ha
    exact .inl ⟨ha, rfl⟩
  · rename_i ha
    refine .inr ?_
    split
    · rename_i hu
      simp only [State.busy, Bool.and_eq_true, beq_iff_eq] at hu
      exact .inl ⟨by omega, hu.1, hu.2, rfl⟩
    · rename_i hu
      refine .inr ⟨by omega, ?_, rfl⟩
      rcases hb with h | h
      · exact .inl h
      · exact .inr (by simpa [State.busy, h] using hu)

/-- What every phase keeps holds at every moment ahead. -/
theorem ahead_keeps {P : State → Prop} (hP : ∀ u t, P u → tick u = .next t → P t) (n : Nat) (s : State) (hs : P s) :
    P (s.ahead n) := by
  induction n generalizing s with
  | zero => exact hs
  | succ n ih =>
    unfold State.ahead
    split
    · rename_i t ht
      exact ih t (hP s t hs ht)
    · exact hs
    · exact hs

/-- A register of U15 at a moment of the operation shows a value already shown, or the one it has some phases on. -/
theorem regInOp_cases (off moment : Nat) (s : State) :
    regInOp off moment s ∈ shownSoFar off s ∨ ∃ n, regInOp off moment s = regValue off ((s.withHost []).ahead n) := by
  unfold regInOp
  split
  · rename_i v hv
    exact .inl (List.mem_of_getElem? hv)
  · exact .inr ⟨_, rfl⟩

end Sys2Proof.Machine
end

