-- ==== Sys2Proof/Laws/Jobs.lean ====
section
/-!
SUPPORT. READ's chunks and PROG's pages: everything each can do, said once.
-/
namespace Sys2Proof.Machine

/-! ## Issue -/

theorem issue_idle {s : State} (h : s.top = .idle) (op : Op) (body : State → Host.Outcome State Fault Refusal) :
    issue op body s = body (s.accept op) := if_pos h

theorem issue_notIdle {s : State} (h : s.top ≠ .idle) (op : Op) (body : State → Host.Outcome State Fault Refusal) :
    issue op body s = .next { s with ovr := 1 } := if_neg h

/-- What a finished run of pseudocode answers, from everything the run can do. -/
theorem finish_next {r : Run Byte} {P : Byte → State → Prop} {Q : State → Prop} (h : r.All P Q) {t : State}
    (ht : finish r = .next t) : (∃ code u, P code u ∧ t = u.endOp code) ∨ Q t := by
  cases r with
  | ok code u => exact .inl ⟨code, u, h, by simpa [finish] using ht.symm⟩
  | halt u => exact .inr (by
    have e : u = t := by simpa [finish] using ht
    rw [← e]; exact h)
  | fault f => simp [finish] at ht

/-! ## READ -/

/-- What READ may change, and what it keeps: HR from `length` on, and the invariants. -/
structure ReadMove (length : Nat) (s t : State) : Prop where
  only : t = { s with
    cs := t.cs, sck := t.sck, mosi := t.mosi, acc := t.acc, cap := t.cap, outBuf := t.outBuf, inBuf := t.inBuf
    hr := t.hr, span := t.span, trace := t.trace
    env := { s.env with dataIn := t.env.dataIn, pinFaults := t.env.pinFaults } }
  cap_le : s.cap ≤ t.cap
  cap_range : t.cap = s.cap ∨ (s.params.floor ≤ t.cap ∧ t.cap ≤ s.params.bufMax)
  scratch : ScratchInv s → ScratchInv t
  grows : s.trace <:+ t.trace
  hr_wf : memWf s.hr = true → memWf t.hr = true
  hr_out : memWf s.hr = true → ∀ a, length ≤ a → memRead t.hr a = memRead s.hr a

theorem ReadMove.params_eq {l : Nat} {s t : State} (h : ReadMove l s t) : t.params = s.params := by rw [h.only]

theorem ReadMove.trans {l : Nat} {s t u : State} (h : ReadMove l s t) (h' : ReadMove l t u) : ReadMove l s u where
  only := by rw [h'.only, h.only]
  cap_le := Nat.le_trans h.cap_le h'.cap_le
  cap_range := by
    rcases h'.cap_range with e | e
    · rw [e]; exact h.cap_range
    · rw [h.params_eq] at e; exact .inr e
  scratch := fun hs => h'.scratch (h.scratch hs)
  grows := h.grows.trans h'.grows
  hr_wf := fun hw => h'.hr_wf (h.hr_wf hw)
  hr_out := fun hw a ha => (h'.hr_out (h.hr_wf hw) a ha).trans (h.hr_out hw a ha)

theorem TxMove.readMove {s t : State} (h : TxMove s t) (l : Nat) : ReadMove l s t where
  only := by rw [h.only]
  cap_le := h.cap_le
  cap_range := h.cap_range
  scratch := h.scratch
  grows := h.grows
  hr_wf := fun hw => by rw [h.only]; exact hw
  hr_out := fun _ a _ => by rw [h.only]

theorem ReadMove.writeHr {l a : Nat} {bs : List Byte} (s : State) (hl : a + bs.length ≤ l) :
    ReadMove l s (s.writeHr a bs) where
  only := rfl
  cap_le := Nat.le_refl _
  cap_range := .inl rfl
  scratch := id
  grows := List.suffix_rfl
  hr_wf := fun hw => memWriteRange_wf hw a bs
  hr_out := fun hw i hi => memRead_memWriteRange_out hw a bs i (by omega)

/-- A fatal end of READ, reached after what it may change. -/
def ReadFatal (l : Nat) (s t : State) : Prop :=
  ∃ u : State, ReadMove l s u ∧
    (t = u.raiseFatal codeAllocationFailure ∨ t = u.raiseFatal codeNoBackend ∨ t = u.raiseFatal codeBackendFault)

theorem TxFatal.readFatal {l : Nat} {s s' t : State} (h : ReadMove l s s') (h' : TxFatal s' t) : ReadFatal l s t := by
  obtain ⟨u, hu, ht⟩ := h'
  exact ⟨u, h.trans (hu.readMove l), ht⟩

/-- Everything READ's loop can do (R190): move on and end with status 0 or InvalidLength, chip-select where it was or
deasserted, or end fatally. -/
theorem readLoop_all (start length fuel done : Nat) (s : State) :
    (readLoop start length fuel done s).All
      (fun code t => ReadMove length s t ∧ (code = codeOk ∨ code = codeInvalidLength)
        ∧ (t.cs = s.cs ∨ t.cs = s.params.csDeassert) ∧ (s.sck = 0 → t.sck = 0))
      (ReadFatal length s) := by
  induction fuel generalizing done s with
  | zero => exact ⟨(TxMove.refl s).readMove _, .inl rfl, .inl rfl, id⟩
  | succ fuel ih =>
    unfold readLoop
    split
    · rename_i hd
      split
      · trivial
      · refine ((transaction_all (rdBytes s.params (start + done)) (chunkLen s.params length done) s).imp
          (fun _ _ h => h) fun _ h => h.readFatal ((TxMove.refl s).readMove _)).bind fun res s1 h1 => ?_
        obtain ⟨hm, hsck, h1⟩ := h1
        have e1 : ReadMove length s s1 := hm.readMove _
        split
        · rename_i hres
          rcases h1 with ⟨hr, hs⟩ | ⟨hr, -⟩
          · refine ⟨e1, .inr (by rw [hr]), .inl (by rw [hs]), hsck⟩
          · exact absurd hr hres
        · rename_i hres
          rcases h1 with ⟨hr, -⟩ | ⟨hr, hlen, hcs, -⟩
          · rw [hr] at hres
            exact absurd (by decide) hres
          · have hl : done + res.2.length ≤ length := by
              rw [hlen]
              simp only [chunkLen]
              omega
            have e2 := e1.trans (ReadMove.writeHr s1 hl)
            refine (ih _ (s1.writeHr done res.2)).imp (fun code t h => ?_) fun t h => ?_
            · refine ⟨e2.trans h.1, h.2.1, ?_, fun hz => h.2.2.2 (by simpa using hsck hz)⟩
              right
              rcases h.2.2.1 with hc | hc
              · rw [hc]; simpa using hcs
              · rw [hc]; simp [hm.params_eq]
            · obtain ⟨u, hu, ht⟩ := h
              exact ⟨u, e2.trans hu, ht⟩
    · exact ⟨(TxMove.refl s).readMove _, .inl rfl, .inl rfl, id⟩

/-! ## PROG -/

/-- What PROG may change, wherever it is, and what it keeps of the invariants. -/
structure ProgMove (s t : State) : Prop where
  only : t = { s with
    cs := t.cs, sck := t.sck, mosi := t.mosi, acc := t.acc, cap := t.cap, outBuf := t.outBuf, inBuf := t.inBuf
    pres := t.pres, sr := t.sr, off := t.off, span := t.span, trace := t.trace
    env := { s.env with
      dataIn := t.env.dataIn, pinFaults := t.env.pinFaults, pageCalls := t.env.pageCalls
      statusCalls := t.env.statusCalls } }
  cap_le : s.cap ≤ t.cap
  cap_range : t.cap = s.cap ∨ (s.params.floor ≤ t.cap ∧ t.cap ≤ s.params.bufMax)
  scratch : ScratchInv s → ScratchInv t
  grows : s.trace <:+ t.trace

theorem ProgMove.params_eq {s t : State} (h : ProgMove s t) : t.params = s.params := by rw [h.only]

theorem ProgMove.trans {s t u : State} (h : ProgMove s t) (h' : ProgMove t u) : ProgMove s u where
  only := by rw [h'.only, h.only]
  cap_le := Nat.le_trans h.cap_le h'.cap_le
  cap_range := by
    rcases h'.cap_range with e | e
    · rw [e]; exact h.cap_range
    · rw [h.params_eq] at e; exact .inr e
  scratch := fun hs => h'.scratch (h.scratch hs)
  grows := h.grows.trans h'.grows

theorem TxMove.progMove {s t : State} (h : TxMove s t) : ProgMove s t where
  only := by rw [h.only]
  cap_le := h.cap_le
  cap_range := h.cap_range
  scratch := h.scratch
  grows := h.grows

/-- PROG between two transactions: the clock low if it was, chip-select where it was or deasserted. -/
structure ProgGoes (s t : State) : Prop where
  move : ProgMove s t
  sck_low : s.sck = 0 → t.sck = 0
  cs_idle : t.cs = s.cs ∨ t.cs = s.params.csDeassert

theorem ProgGoes.trans {s t u : State} (h : ProgGoes s t) (h' : ProgGoes t u) : ProgGoes s u where
  move := h.move.trans h'.move
  sck_low := fun hz => h'.sck_low (h.sck_low hz)
  cs_idle := by
    rcases h'.cs_idle with e | e
    · rw [e]; exact h.cs_idle
    · rw [e, h.move.params_eq]; exact .inr rfl

/-- A change of nothing but the results of PROG, their record and the scripts of its primitives. -/
theorem ProgGoes.of_results (s : State) (pres : Word) (sr : Byte) (off : Nat) (sp : Span) (pc sc : List PrimCall) :
    ProgGoes s
      { s with pres := pres, sr := sr, off := off, span := sp, env.pageCalls := pc, env.statusCalls := sc } where
  move := ⟨rfl, Nat.le_refl _, .inl rfl, id, List.suffix_rfl⟩
  sck_low := id
  cs_idle := .inl rfl

theorem ProgGoes.refl (s : State) : ProgGoes s s :=
  .of_results s s.pres s.sr s.off s.span s.env.pageCalls s.env.statusCalls

/-- A fatal end of PROG, reached after what it may change. -/
def ProgFatal (s t : State) : Prop :=
  ∃ u : State, ProgMove s u ∧
    (t = u.raiseFatal codeAllocationFailure ∨ t = u.raiseFatal codeNoBackend ∨ t = u.raiseFatal codeBackendFault)

theorem ProgFatal.after {s s' t : State} (h : ProgMove s s') (h' : ProgFatal s' t) : ProgFatal s t := by
  obtain ⟨u, hu, ht⟩ := h'
  exact ⟨u, h.trans hu, ht⟩

/-- PROG stopped to wait in its poll loop (log 8). -/
def ProgWaits (s t : State) : Prop :=
  ∃ (u : State) (total plen npoll : Nat), ProgGoes s u ∧ t = u.waitPoll total plen npoll

theorem ProgWaits.after {s s' t : State} (h : ProgGoes s s') (h' : ProgWaits s' t) : ProgWaits s t := by
  obtain ⟨u, total, plen, npoll, hu, ht⟩ := h'
  exact ⟨u, total, plen, npoll, h.trans hu, ht⟩

theorem transaction_prog (wbytes : List Byte) (r : Nat) (s : State) :
    (transaction wbytes r s).All (fun res t => ProgGoes s t ∧ (res.1 = codeOk ∨ res.1 = codeInvalidLength))
      (ProgFatal s) := by
  refine (transaction_all wbytes r s).imp (fun res t h => ?_) fun t h => ?_
  · obtain ⟨hm, hz, ⟨hr, hs⟩ | ⟨hr, -, hc, -⟩⟩ := h
    · exact ⟨⟨hm.progMove, hz, .inl (by rw [hs])⟩, .inr (by rw [hr])⟩
    · exact ⟨⟨hm.progMove, hz, .inr hc⟩, .inl hr⟩
  · obtain ⟨u, hu, ht⟩ := h
    exact ⟨u, hu.progMove, ht⟩

theorem runSubst_all (txs : List (List Byte × Nat)) (s : State) :
    (runSubst txs s).All (fun _ t => ProgGoes s t) (ProgFatal s) := by
  induction txs generalizing s with
  | nil => exact .refl s
  | cons tx rest ih =>
    refine (transaction_prog tx.1 tx.2 s).bind fun _ s1 h1 => ?_
    exact (ih s1).imp (fun _ _ h => h1.1.trans h) fun _ h => h.after h1.1.move

/-- Everything the default ProgramPage can do (R203). -/
theorem programDefault_all (off : Nat) (bytes : List Byte) (s : State) :
    (programDefault off bytes s).All (fun _ t => ProgGoes s t) (ProgFatal s) := by
  unfold programDefault
  split
  · refine (transaction_prog (wrenBytes s.params) 0 s).bind fun res s1 h1 => ?_
    split
    · exact h1.1
    · refine ((transaction_prog (ppBytes s1.params off bytes) 0 s1).imp (fun _ _ h => h)
        fun _ h => h.after h1.1.move).bind fun _ s2 h2 => ?_
      exact h1.1.trans h2.1
  · exact (transaction_prog (ppBytes s.params off bytes) 0 s).bind fun _ s2 h2 => h2.1

theorem statusDefault_all (s : State) :
    (statusDefault s).All (fun _ t => ProgGoes s t) (ProgFatal s) := by
  refine (transaction_prog (rdsrBytes s.params) s.params.rdsrReadLen s).bind fun res s1 h1 => ?_
  split
  · exact h1.1
  · trivial

theorem ProgGoes.dropPageCall (s : State) : ProgGoes s s.dropPageCall :=
  .of_results s s.pres s.sr s.off s.span s.env.pageCalls.tail s.env.statusCalls

theorem ProgGoes.dropStatusCall (s : State) : ProgGoes s s.dropStatusCall :=
  .of_results s s.pres s.sr s.off s.span s.env.pageCalls s.env.statusCalls.tail

/-- Everything ProgramPage can do (R203). -/
theorem programPage_all (off : Nat) (bytes : List Byte) (s : State) :
    (programPage off bytes s).All (fun _ t => ProgGoes s t) (ProgFatal s) := by
  have e := ProgGoes.dropPageCall s
  unfold programPage
  split
  · exact (programDefault_all off bytes s.dropPageCall).imp (fun _ _ h => e.trans h) fun _ h => h.after e.move
  · refine ((runSubst_all _ s.dropPageCall).imp (fun _ _ h => h) fun _ h => h.after e.move).bind fun _ s1 h1 => ?_
    exact e.trans h1

/-- Everything ReadStatus can do (R204). -/
theorem readStatus_all (s : State) : (readStatus s).All (fun _ t => ProgGoes s t) (ProgFatal s) := by
  have e := ProgGoes.dropStatusCall s
  unfold readStatus
  split
  · exact (statusDefault_all s.dropStatusCall).imp (fun _ _ h => e.trans h) fun _ h => h.after e.move
  · refine ((runSubst_all _ s.dropStatusCall).imp (fun _ _ h => h) fun _ h => h.after e.move).bind fun _ s1 h1 => ?_
    exact e.trans h1

/-- Where PROG can stop within a run: fatally, or waiting in its poll loop. -/
def ProgStops (s t : State) : Prop := ProgFatal s t ∨ ProgWaits s t

theorem ProgStops.after {s s' t : State} (h : ProgGoes s s') (h' : ProgStops s' t) : ProgStops s t :=
  h'.imp (fun h' => h'.after h.move) fun h' => h'.after h

/-- Everything the poll loop can do (R205, R207, R209). -/
theorem pollLoop_all (total plen fuel npoll : Nat) (s : State) :
    (pollLoop total plen fuel npoll s).All
      (fun code t => ProgGoes s t ∧ (code = codeOk ∨ code = codeTimeout)) (ProgStops s) := by
  induction fuel generalizing npoll s with
  | zero => exact .inr ⟨s, total, plen, npoll, .refl s, rfl⟩
  | succ fuel ih =>
    refine ((readStatus_all s).imp (fun _ _ h => h) fun _ h => .inl h).bind fun sr s1 h1 => ?_
    have e : ProgGoes s (s1.setSr sr) :=
      h1.trans (.of_results s1 s1.pres sr s1.off (s1.setSr sr).span s1.env.pageCalls s1.env.statusCalls)
    split
    · exact ⟨e, .inl rfl⟩
    · split
      · exact ⟨e, .inr rfl⟩
      · split
        · exact .inr ⟨_, total, plen, npoll + 1, e, rfl⟩
        · exact (ih (npoll + 1) (s1.setSr sr)).imp (fun _ _ h => ⟨e.trans h.1, h.2⟩) fun _ h => h.after e

/-- Everything the page loop can do (R200): status 0, ProgramFailure or Timeout; a fatal end; a wait in the poll loop. -/
theorem pageLoop_all (total fuel : Nat) (s : State) :
    (pageLoop total fuel s).All
      (fun code t => ProgGoes s t ∧ (code = codeOk ∨ code = codeProgramFailure ∨ code = codeTimeout))
      (ProgStops s) := by
  induction fuel generalizing s with
  | zero => exact ⟨.refl s, .inl rfl⟩
  | succ fuel ih =>
    unfold pageLoop
    split
    · split
      · trivial
      · refine ((programPage_all s.off _ s).imp (fun _ _ h => h) fun _ h => .inl h).bind fun r s1 h1 => ?_
        split
        · exact ⟨h1.trans (.of_results s1 r s1.sr s1.off s1.span s1.env.pageCalls s1.env.statusCalls), .inr (.inl rfl)⟩
        · refine ((pollLoop_all total _ (pollFuel s1) 0 s1).imp (fun _ _ h => h) fun _ h => h.after h1).bind
            fun code s2 h2 => ?_
          split
          · rename_i hc
            rcases h2.2 with h | h
            · exact absurd h hc
            · exact ⟨h1.trans h2.1, .inr (.inr h)⟩
          · have e : ProgGoes s (s2.setOff (s2.off + s2.params.page)) :=
              (h1.trans h2.1).trans (.of_results s2 s2.pres s2.sr _ _ s2.env.pageCalls s2.env.statusCalls)
            exact (ih (s2.setOff (s2.off + s2.params.page))).imp (fun _ _ h => ⟨e.trans h.1, h.2⟩)
              fun _ h => h.after e
    · exact ⟨.refl s, .inl rfl⟩

end Sys2Proof.Machine
end

