-- ==== Sys2Proof/Laws/PerInstr.lean ====
section
/-!
SUPPORT. Laws made per instruction. The family `Encoding`: in every build that keeps the constraints of
92_eei_decisions.md, a well-formed instruction's word has its row's form, a command word from 1 to 6 (R132) or a frame
that begins with its row's first byte and fits a transaction (R125, R171).
-/
namespace Sys2Proof.Laws.Encoding

/-- The form of a word: a command word from 1 to 6, or a frame with one of the build's four first bytes and at most
CEILING bytes in its two fields. -/
def inForm (p : Params) : Code → Prop
  | .cmd w => 1 ≤ w.toNat ∧ w.toNat ≤ 6
  | .frame wbytes r =>
    (∃ op : Byte, wbytes.head? = some op ∧
      (op = p.rdsrOpcode ∨ op = p.wrenOpcode ∨ op = p.ppOpcode ∨ op = p.readOpcode))
    ∧ wbytes.length + r ≤ p.ceiling

/-- A well-formed instruction's word is in form. -/
def Statement (i : Instr) : Prop := ∀ p : Params, p.wf = true → i.wf p = true → inForm p (encode p i)

theorem init : Statement .init := fun _ _ _ => ⟨by decide, by decide⟩
theorem xbit : Statement .xbit := fun _ _ _ => ⟨by decide, by decide⟩
theorem xbyte : Statement .xbyte := fun _ _ _ => ⟨by decide, by decide⟩
theorem exec : Statement .exec := fun _ _ _ => ⟨by decide, by decide⟩
theorem read : Statement .read := fun _ _ _ => ⟨by decide, by decide⟩
theorem prog : Statement .prog := fun _ _ _ => ⟨by decide, by decide⟩

/-- The frames of a build that keeps its constraints fit a transaction (92_eei_decisions.md, last paragraph). -/
theorem frames_fit {p : Params} (h : p.wf = true) :
    1 + p.addrBytes + p.page ≤ p.ceiling ∧ 1 + p.rdsrReadLen ≤ p.ceiling
      ∧ 1 + p.addrBytes + p.chunkDataMax ≤ p.ceiling := by
  simp only [Params.wf, Bool.and_eq_true, decide_eq_true_eq] at h
  omega

theorem rdsr : Statement .rdsr := by
  intro p hp _
  have h := (frames_fit hp).2.1
  refine ⟨⟨_, rfl, .inl rfl⟩, ?_⟩
  simp only [List.length_cons, List.length_nil]
  omega

theorem wren : Statement .wren := by
  intro p hp _
  have h := (frames_fit hp).2.1
  refine ⟨⟨_, rfl, .inr (.inl rfl)⟩, ?_⟩
  simp only [List.length_cons, List.length_nil]
  omega

theorem pp (addr : Nat) (data : List Byte) : Statement (.pp addr data) := by
  intro p hp hi
  have h := (frames_fit hp).1
  simp only [Instr.wf, Bool.and_eq_true, decide_eq_true_eq] at hi
  refine ⟨⟨_, rfl, .inr (.inr (.inl rfl))⟩, ?_⟩
  simp only [List.cons_append, List.length_cons, List.length_append, length_offsetBytes]
  omega

theorem rd (addr : Nat) (n : Nat) : Statement (.rd addr n) := by
  intro p hp hi
  have h := (frames_fit hp).2.2
  simp only [Instr.wf, Bool.and_eq_true, decide_eq_true_eq] at hi
  refine ⟨⟨_, rfl, .inr (.inr (.inr rfl))⟩, ?_⟩
  simp only [List.length_cons, length_offsetBytes]
  omega

end Sys2Proof.Laws.Encoding
end

