-- ==== Sys2Proof/Tests/Slice0.lean ====
section
/-!
SUPPORT. The model's own tests, each about one step on a small state: ill-formed terms, words written out from the
spec's encodings, vectors of 95_test_vectors.md (each named in its test), and, for every statement with hypotheses, a
witness that meets them. Numbers are the spec's or computed by hand from its rules.
-/
namespace Sys2Proof.Tests

open Sys2Proof Sys2Proof.Machine

/-! ## Small states -/

/-- Idle after an INIT with backend 1 and half period 5 (V1). -/
def ready : State := { State.reset with backendSel := 1, halfPeriod := 5 }

/-- A build with two-byte pages, chunks of three bytes, one-byte units and at most two polls of a page. -/
def tiny : Params :=
  { Params.default with page := 2, maxChunk := 7, sizeScale := 1, pollLimit := some 2, floor := 4, bufMax := 16 }

/-- The same without a limit on polls. -/
def tinyEndless : Params := { tiny with pollLimit := none }

/-- A build with other codes, two offset bytes, two status bytes and another filler (R25: each an argument). -/
def other : Params :=
  { Params.default with
    rdsrOpcode := 0x35, rdsrReadLen := 2, wrenOpcode := 0x50, ppOpcode := 0xA2, readOpcode := 0x0B, addrBytes := 2
    filler := 0xFF }

/-- Idle and initialised in the tiny build, three bytes to program, four to read. -/
def small : State :=
  { ready with params := tiny, ops := { OperandRegs.reset with sizeUnits := 3, length := 4, start := 0x00FFFF } }

/-- What a next state shows. -/
def shows {α : Type} (o : Host.Outcome State Fault Refusal) (f : State → α) : Option α :=
  match o with
  | .next s => some (f s)
  | .fault _ => none
  | .refused _ => none

/-- The instruction a decoder reads. -/
def reads (r : Except Reject Instr) : Option Instr :=
  match r with
  | .ok i => some i
  | .error _ => none

/-- The reason a decoder rejects. -/
def rejects (r : Except Reject Instr) : Option Reject :=
  match r with
  | .ok _ => none
  | .error e => some e

/-! ## Well-formedness -/

theorem test_wf_pp_needs_data : Instr.wf Params.default (.pp 0 []) = false := by decide

theorem test_wf_pp_at_most_a_page :
    Instr.wf Params.default (.pp 0 (List.replicate 257 0)) = false
      ∧ Instr.wf Params.default (.pp 0xFFFFFF (List.replicate 256 0)) = true := by
  simp only [Instr.wf, List.length_replicate]
  decide

theorem test_wf_offset_fits :
    Instr.wf Params.default (.pp 0x1000000 [0]) = false ∧ Instr.wf Params.default (.rd 0x1000000 1) = false
      ∧ Instr.wf other (.rd 0x10000 1) = false ∧ Instr.wf other (.rd 0xFFFF 1) = true := by decide

theorem test_wf_rd_needs_a_byte : Instr.wf Params.default (.rd 0 0) = false := by decide

theorem test_wf_rd_at_most_a_chunk :
    Instr.wf Params.default (.rd 0 65533) = false ∧ Instr.wf Params.default (.rd 0 65532) = true := by decide

/-! ## Decoding, word by word (R125, R132, R134) -/

theorem test_decode_init : reads (decodeCmd 0b00000000000000000000000000000001) = some .init := by decide
theorem test_decode_xbit : reads (decodeCmd 0b00000000000000000000000000000010) = some .xbit := by decide
theorem test_decode_xbyte : reads (decodeCmd 0b00000000000000000000000000000011) = some .xbyte := by decide
theorem test_decode_exec : reads (decodeCmd 0b00000000000000000000000000000100) = some .exec := by decide
theorem test_decode_read : reads (decodeCmd 0b00000000000000000000000000000101) = some .read := by decide
theorem test_decode_prog : reads (decodeCmd 0b00000000000000000000000000000110) = some .prog := by decide
theorem test_decode_rdsr : reads (decodeFrame Params.default [0b00000101] 1) = some .rdsr := by decide
theorem test_decode_wren : reads (decodeFrame Params.default [0b00000110] 0) = some .wren := by decide

/-- The offset 0x123456, most significant byte first, and two data bytes. -/
theorem test_decode_pp : reads (decodeFrame Params.default [0b00000010, 0x12, 0x34, 0x56, 0xAA, 0xBB] 0)
    = some (.pp 0x123456 [0xAA, 0xBB]) := by
  decide

/-- The offset 0x00FFFC, and three bytes to read. -/
theorem test_decode_rd :
    reads (decodeFrame Params.default [0b00000011, 0x00, 0xFF, 0xFC] 3) = some (.rd 0x00FFFC 3) := by decide

/-- The same rows in another build: its codes, two offset bytes, two status bytes (R25, R138). -/
theorem test_decode_other_build :
    reads (decodeFrame other [0x35] 2) = some .rdsr ∧ reads (decodeFrame other [0x50] 0) = some .wren
      ∧ reads (decodeFrame other [0xA2, 0x12, 0x34, 0xAA] 0) = some (.pp 0x1234 [0xAA])
      ∧ reads (decodeFrame other [0x0B, 0x12, 0x34] 1) = some (.rd 0x1234 1)
      ∧ rejects (decodeFrame other [0x05] 1) = some (.unknownOpcode 0x05) := by decide

theorem test_decode_reserved :
    rejects (decodeCmd 0x00000000) = some (.reservedOp 0) ∧ rejects (decodeCmd 0x00000007) = some (.reservedOp 7)
      ∧ rejects (decodeCmd 0x000000FF) = some (.reservedOp 0xFF) ∧ rejects (decodeCmd 0x00000101) = some .upperBits
      ∧ rejects (decodeCmd 0x80000001) = some .upperBits := by decide

theorem test_decode_bad_frames :
    rejects (decodeFrame Params.default [] 0) = some .emptyFrame
      ∧ rejects (decodeFrame Params.default [0x9F] 3) = some (.unknownOpcode 0x9F)
      ∧ rejects (decodeFrame Params.default [0x05] 0) = some .frameLength
      ∧ rejects (decodeFrame Params.default [0x05] 2) = some .frameLength
      ∧ rejects (decodeFrame Params.default [0x06, 0] 0) = some .frameLength
      ∧ rejects (decodeFrame Params.default [0x06] 1) = some .frameLength
      ∧ rejects (decodeFrame Params.default [0x02, 0, 0, 0] 0) = some .frameLength
      ∧ rejects (decodeFrame Params.default [0x02, 0, 0, 0, 0] 1) = some .frameLength
      ∧ rejects (decodeFrame Params.default [0x03, 0, 0, 0] 0) = some .frameLength
      ∧ rejects (decodeFrame Params.default [0x03, 0, 0] 1) = some .frameLength := by
  decide

/-! ## Memory -/

theorem test_reset_memories_canonical :
    memWf State.reset.outBuf = true ∧ memWf State.reset.inBuf = true ∧ memWf State.reset.hw = true
      ∧ memWf State.reset.hr = true := by decide

theorem test_memory_write_keeps_order :
    memWrite (memWrite [] 7 0xAA) 3 0xBB = [(3, 0xBB), (7, 0xAA)]
      ∧ memWrite [(3, 0xBB), (7, 0xAA)] 7 0xCC = [(3, 0xBB), (7, 0xCC)] ∧ memWf [(3, 0), (3, 1)] = false := by decide

/-! ## Vectors -/

/-- V1, and STATUS = 0x00000008. -/
theorem test_V1_init :
    shows (execInit { State.reset with ops.cfgBackend := 1, ops.cfgHalfPeriod := 5 })
      (fun t => (t.backendSel, t.halfPeriod, t.events, t.statusWord)) = some (1, 5, [.cs 1, .sck 0], 0x00000008) := by
  decide

/-- V3: backend 2 is not valid but latched; STATUS = 0x00000700. -/
theorem test_V3_init_invalid :
    shows (execInit { State.reset with ops.cfgBackend := 2, ops.cfgHalfPeriod := 9 })
      (fun t => (t.backendSel, t.halfPeriod, t.events, t.statusWord)) = some (2, 9, [], 0x00000700) := by decide

/-- V5: XBYTE without INIT is fatal, STATUS = 0x00000402. -/
theorem test_V5_nobackend : shows (execXbyte State.reset)
      (fun t => (t.statusWord, t.trace)) = some (0x00000402, []) := by decide

/-- V5: a later CMD write sets OVR, STATUS = 0x00000406. -/
theorem test_V5_overrun :
    shows (step { State.reset with top := .fatal, err := 4, env.host := [.write 0 1] }) (·.statusWord)
      = some 0x00000406 := by decide

/-- V7. -/
theorem test_V7_xbit :
    shows (execXbit { ready with ops.arg := 1, acc := 0x5A, env.dataIn := [1] })
      (fun t => (t.result, t.acc, t.mosi, t.sck, t.events))
      = some (1, 0xB5, 1, 0, [.mosi 1, .delay 5, .sck 1, .miso 1, .delay 5, .sck 0]) := by decide

/-- V9: the old bit 7 is dropped. -/
theorem test_V9_xbit :
    shows (execXbit { ready with acc := 0xFF, env.dataIn := [1] }) (fun t => (t.acc, t.mosi)) = some (0xFF, 0) := by
  decide

/-- V10. -/
theorem test_V10_xbyte :
    shows (execXbyte { ready with ops.arg := 0xA5, env.dataIn := [0, 0, 1, 1, 1, 1, 0, 0] })
      (fun t => (t.result, t.acc, t.mosi, t.sck, t.trace.length)) = some (0x3C, 0x3C, 1, 0, 48) := by decide

/-- V18: EXEC [05], 1, the read field answers 03. -/
theorem test_V18_exec :
    shows (execExec { ready with
        ops.wcount := 1, ops.rcount := 1, hw := [(0, 0x05)], env.dataIn := byteLevels 0x00 ++ byteLevels 0x03 })
      (fun t => (t.hrAt 0, t.cap, t.acc, t.mosi, t.cs, t.trace.length)) = some (0x03, 260, 0x03, 0, 1, 100) := by
  decide

/-- V24: the sum 2^32 does not wrap to 0. -/
theorem test_V24_exec_no_wrap :
    shows (execExec { ready with ops.wcount := 0xFFFFFFFF, ops.rcount := 1 }) (fun t => (t.err, t.trace, t.cap))
      = some (0x01, [], 0) := by decide

/-- PROG_RESULT is read as PRES also while BUSY (R51, R67; U15 does not list it). -/
theorem test_prog_result_while_busy :
    shows (step { ready with top := .run .prog, pres := 7, env.host := [.read 0x2C] }) (·.env.hostRead) = some 7 := by
  decide

/-- The values CAP takes while an EXEC of no byte runs from CAP = 0, read after its growth: 260 and 0 have been shown,
and every moment to come shows 260 (R172, U15). -/
theorem test_cap_while_busy :
    let s : State := { ready with env.host := [.write 0 4] }
    shows (Host.Core.run core 3 s) (fun t => (regInOp 0x30 0 t, regInOp 0x30 1 t, regInOp 0x30 2 t))
      = some (260, 0, 260) := by decide

/-- PINS while XBIT with ARG = 1 runs, read when data-out has been driven: 1 (CS), then 5 (CS, MOSI), then 7 with the
clock high, which is still to come (R67, R160, U15). -/
theorem test_pins_while_busy :
    let s : State := { ready with ops.arg := 1, env.dataIn := [0], env.host := [.write 0 2] }
    shows (Host.Core.run core 2 s)
      (fun t => (regInOp 0x3C 0 t, regInOp 0x3C 1 t, regInOp 0x3C 2 t, regInOp 0x3C 4 t, regInOp 0x3C 9 t))
      = some (1, 5, 5, 7, 5) := by decide

/-- READ in two chunks of 3 and 1 bytes: the second frame's offset is 0x00FFFF + 3 = 0x010002, its byte lands at HR[3]
(the shape of V32). -/
theorem test_read_two_chunks :
    shows (execRead { small with env.dataIn := List.replicate 48 0 ++ byteLevels 0xBE ++ List.replicate 32 0
                                  ++ byteLevels 0xEF })
      (fun t => (t.err, t.hrAt 2, t.hrAt 3, t.outAt 1, t.outAt 2, t.outAt 3))
      = some (0, 0xBE, 0xEF, 0x01, 0x00, 0x02) := by
  decide +kernel

/-- READ of nothing (V30). -/
theorem test_V30_read_empty : shows (execRead State.reset) (fun t => (t.err, t.trace, t.hr)) = some (0, [], []) := by
  decide

/-- PROG of three bytes in pages of two, the device ready: OFF ends at 4, two pages of three frames; their events are
52 + (4 + 48 * 6) + 100 and 52 + (4 + 48 * 5) + 100. -/
theorem test_prog_two_pages :
    shows (execProg { small with env.dataIn := List.replicate 400 0 })
      (fun t => (t.err, t.off, t.sr, t.pres, t.trace.length)) = some (0, 4, 0, 0, 840) := by decide +kernel

/-- PROG whose device stays busy ends in Timeout after POLL_LIMIT = 2 polls (the shape of V39). -/
theorem test_prog_timeout :
    shows (execProg { small with env.dataIn := List.replicate 400 1 }) (fun t => (t.err, t.off, t.sr, t.top))
      = some (0x05, 0, 0xFF, .idle) := by decide +kernel

/-- RDSR: HR[0] is the byte the device answers; HW[0], WCOUNT and RCOUNT are those of EXEC [05], 1. -/
theorem test_rdsr :
    shows (execRdsr { ready with env.dataIn := byteLevels 0xFF ++ byteLevels 0x42 })
      (fun t => (t.hrAt 0, t.hwAt 0, t.ops.wcount, t.ops.rcount)) = some (0x42, 0x05, 1, 1) := by decide

/-- WREN is V19: one byte out, nothing returned. -/
theorem test_wren :
    shows (execWren { ready with env.dataIn := byteLevels 0xFF }) (fun t => (t.acc, t.mosi, t.trace.length, t.hr))
      = some (0xFF, 0, 52, []) := by decide

/-- PP: the offset goes out most significant byte first, then the data. -/
theorem test_pp :
    shows (execPp 0x010203 [0xAA] { ready with env.dataIn := List.replicate 40 0 })
      (fun t => (t.ops.wcount, t.ops.rcount, t.outAt 0, t.outAt 1, t.outAt 3, t.outAt 4))
      = some (5, 0, 0x02, 0x01, 0x03, 0xAA) := by decide +kernel

/-- RD: the response byte follows the four bytes of the prefix. -/
theorem test_rd :
    shows (execRd 0x010203 1 { ready with env.dataIn := List.replicate 32 1 ++ byteLevels 0x5A })
      (fun t => (t.ops.wcount, t.ops.rcount, t.outAt 0, t.outAt 2, t.hrAt 0)) = some (4, 1, 0x03, 0x02, 0x5A) := by
  decide +kernel

/-- Program P2: EXEC [9F], 3 with the device's answer C2 20 18; to the block its byte is any byte (R182). -/
theorem test_P2_identification :
    shows (step { ready with
        env.host := [.frame [0x9F] 3]
        env.dataIn := List.replicate 8 1 ++ byteLevels 0xC2 ++ byteLevels 0x20 ++ byteLevels 0x18 })
      (fun t => (t.err, t.outAt 0, t.hrAt 0, t.hrAt 1, t.hrAt 2)) = some (0, 0x9F, 0xC2, 0x20, 0x18) := by
  decide +kernel

/-- A PP of no data byte is the EXEC of its four bytes (R138). -/
theorem test_pp_without_data :
    shows (step { ready with env.host := [.frame [0x02, 0, 1, 0] 0], env.dataIn := List.replicate 32 0 })
      (fun t => (t.err, t.ops.wcount, t.ops.rcount, t.trace.length)) = some (0, 4, 0, 196) := by decide +kernel

/-- An RD of more bytes than any transaction takes is InvalidLength (R171), with no event. -/
theorem test_rd_too_long :
    shows (step { ready with env.host := [.frame [0x03, 0, 0, 0] 4294967296] }) (fun t => (t.err, t.trace))
      = some (0x01, []) := by decide

/-! ## Witnesses: each shows a state and operands that meet every hypothesis of the statement it is named after -/

/-- The state with a host action to come. -/
def doing (s : State) (acts : List HostAct) : State := { s with env.host := acts }

/-- FATAL after NoBackend. -/
def dead : State := { State.reset with top := .fatal, err := 0x04 }

/-- PROG in the tiny build without a poll limit, at a state of the Page Programmer. -/
def inPps (pps : PpState) : State :=
  { small with params := tinyEndless, top := .run .prog, pp := { PpSeq.rest with pps := pps, total := 3 } }

theorem witness_HardwareReset : (doing dead [.reset]).env.host = .reset :: [] := by decide

theorem witness_DecodeEncodeAgree :
    [Params.default.rdsrOpcode, Params.default.wrenOpcode, Params.default.ppOpcode,
        Params.default.readOpcode].Nodup
      ∧ Instr.wf Params.default .init = true ∧ Instr.wf Params.default (.pp 0xFFFFFF [0xFF]) = true
      ∧ Instr.wf Params.default (.rd 0xFFFFFF 65532) = true
      ∧ [other.rdsrOpcode, other.wrenOpcode, other.ppOpcode, other.readOpcode].Nodup
      ∧ Instr.wf other (.pp 0xFFFF [0xFF]) = true := by decide

theorem witness_FramesDecodeSoundly :
    decodeFrame Params.default [0x06] 0 = .ok .wren ∧ decodeFrame other [0x50] 0 = .ok .wren := ⟨rfl, rfl⟩

theorem witness_IllegalCommandOnlyErr :
    (doing ready [.call 0]).top = .idle ∧ (0 : Word).extractLsb' 0 8 = 0
      ∧ 7 ≤ ((7 : Word).extractLsb' 0 8).toNat ∧ 7 ≤ ((0xFF : Word).extractLsb' 0 8).toNat
      ∧ (0x104 : Word).extractLsb' 8 24 ≠ 0 ∧ (doing ready [.call 0]).env.host = [.call 0]
      ∧ (doing ready [.write 0 7]).env.host = [.write 0x00 7] := by decide

theorem witness_StepRunsDecoded_call :
    (doing ready [.call 0x00000006]).env.host = [.call 0x00000006] ∧ decodeCmd 0x00000006 = .ok .prog := ⟨rfl, rfl⟩

theorem witness_StepRunsDecoded_frame :
    (doing ready [.frame [0x05] 1]).env.host = [.frame [0x05] 1] ∧ decodeFrame ready.params [0x05] 1 = .ok .rdsr :=
  ⟨rfl, rfl⟩

theorem witness_FetchWordRuns :
    decodeTableWord 32 6 = some .prog ∧ decodeTableWord 8 2 = some (.pp 0 [0])
      ∧ decodeTableWord 8 3 = some (.rd 0 1) ∧ ready.params = Params.default
      ∧ decodeTableWordIn { ready with params := other }.params 8 0xA2 = some (.pp 0 [0]) := by decide

theorem witness_CommandDiscardedUnlessIdle :
    dead.top ≠ .idle ∧ (doing dead [.call 1]).env.host = [.call 1]
      ∧ (doing (inPps .poll) [.write 0 1]).top ≠ .idle
      ∧ (doing (inPps .poll) [.write 0 1]).env.host = [.write 0x00 1]
      ∧ (doing dead [.frame [0x9F] 3]).env.host = [.frame [0x9F] 3] := by decide

theorem witness_OverrunSticky :
    ∃ t : State, step (doing dead [.call 1]) = .next t ∧ (doing dead [.call 1]).env.host.head? ≠ some .reset
      ∧ t.ovr ≠ (doing dead [.call 1]).ovr := ⟨_, rfl, by decide, by decide⟩

theorem witness_OverrunSticky_set :
    ∃ t : State, step { dead with ovr := 1 } = .next t ∧ ({ dead with ovr := 1 } : State).ovr = 1 :=
  ⟨_, rfl, by decide⟩

/-- Each form of a CMD write sets OVR. -/
theorem witness_OverrunSticky_when :
    ∃ t : State, step (doing dead [.frame [0x06] 0]) = .next t ∧ (doing dead [.frame [0x06] 0]).top ≠ .idle
      ∧ (doing dead [.frame [0x06] 0]).env.host.head? = some (.frame [0x06] 0)
      ∧ (doing dead [.call 9]).env.host.head? = some (.call 9)
      ∧ (doing dead [.write 0 9]).env.host.head? = some (.write 0x00 9) :=
  ⟨_, rfl, by decide, by decide, by decide, by decide⟩

theorem witness_InitLatchesAndDrives :
    State.reset.top = .idle
      ∧ ({ State.reset with ops.cfgBackend := 1 } : State).ops.cfgBackend ∈ State.reset.params.validBackends
      ∧ State.reset.params.backendFallible = false
      ∧ State.reset.ops.cfgBackend ∉ State.reset.params.validBackends := by decide

theorem witness_ConfigurationOnlyByInit :
    ∃ t : State, step (doing ready [.call 2]) = .next t ∧ (doing ready [.call 2]).env.host.head? ≠ some .reset
      ∧ ready.top ≠ .run .init ∧ (doing ready [.call 2]).env.host.head? ≠ some (.call 0x00000001) :=
  ⟨_, rfl, by decide, by decide, by decide⟩

theorem witness_XbitTransfersOneBit : ready.top = .idle ∧ ready.Ready := by decide

theorem witness_XbyteTransfersOneByte : ready.top = .idle ∧ ready.Ready := by decide

theorem witness_LoopbackLaw :
    ready.top = .idle ∧ ready.Ready
      ∧ ({ ready with ops.arg := 0xA5, env.dataIn := [1, 0, 1, 0, 0, 1, 0, 1, 1] } : State).env.dataIn
        = byteLevels 0xA5 ++ [1]
      ∧ ({ ready with mosi := 1, ops.arg := 0xA5, env.dataIn := [1, 1, 0, 1, 0, 0, 1, 0] } : State).env.dataIn
        = 1 :: (byteLevels 0xA5).dropLast ++ [] := by decide

theorem witness_EightXbitsMakeAByte :
    let s := doing { ready with env.dataIn := byteLevels 0xA5 } (List.replicate 8 (.call 0x00000002))
    s.top = .idle ∧ s.Ready ∧ s.env.dataIn = byteLevels 0xA5 ++ []
      ∧ s.env.host = List.replicate 8 (.call 0x00000002) := by decide

theorem witness_InvalidLengthRule_transaction :
    ready.params.ceiling < ([] : List Byte).length + 65537
      ∧ transaction [] 65537 ready = .ok (0x01, []) ready := ⟨by decide, rfl⟩

theorem witness_InvalidLengthRule :
    ready.top = .idle ∧ ready.params.ceiling < (65537 : Word).toNat + (0 : Word).toNat
      ∧ ready.params.ceiling < (0xFFFFFFFF : Word).toNat + (1 : Word).toNat := by decide

theorem witness_InvalidLengthRule_ends :
    ∃ t : State, exec .exec { ready with ops.wcount := 1, ops.rcount := 65536 } = .next t ∧ t.err = 0x01 :=
  ⟨_, rfl, by decide⟩

/-- No byte, and a transaction of exactly CEILING bytes. -/
theorem witness_ExecCompletes :
    ready.top = .idle ∧ ready.Ready ∧ 0 + 0 ≤ ready.params.ceiling
      ∧ max (0 + 0) ready.params.floor ≤ max ready.cap ready.params.bufMax
      ∧ (4 : Word).toNat + (65532 : Word).toNat ≤ ready.params.ceiling
      ∧ max ((4 : Word).toNat + (65532 : Word).toNat) ready.params.floor ≤ max ready.cap ready.params.bufMax := by
  decide

theorem witness_ExecFrame :
    ∃ t : State, ready.top = .idle ∧ exec .exec ready = .next t ∧ t.err = 0x00 ∧ SpaceInv ready :=
  ⟨_, by decide, rfl, by decide, by decide⟩

theorem witness_ExecFrame_error :
    ∃ t : State, State.reset.top = .idle ∧ exec .exec State.reset = .next t ∧ t.err ≠ 0x00 :=
  ⟨_, by decide, rfl, by decide⟩

theorem witness_ExecFrame_same_capacity :
    ∃ t : State, exec .exec { ready with cap := 260 } = .next t ∧ t.cap = ({ ready with cap := 260 } : State).cap :=
  ⟨_, rfl, by decide⟩

theorem witness_AllocationFailureIsFatal :
    let s : State := { ready with params.bufMax := 1024, cap := 1024, ops.wcount := 4, ops.rcount := 1021 }
    s.top = .idle ∧ 1025 = s.ops.wcount.toNat + s.ops.rcount.toNat ∧ 1025 ≤ s.params.ceiling
      ∧ s.cap < max 1025 s.params.floor ∧ s.params.bufMax < max 1025 s.params.floor
      ∧ ([] : List Byte).length + 1025 = 1025 := by
  decide

theorem witness_NoBackendIsFatal :
    let s : State := { State.reset with ops.length := 1, ops.sizeUnits := 1 }
    s.top = .idle ∧ s.backendSel ∉ s.params.validBackends ∧ 0 + 0 ≤ s.params.ceiling
      ∧ max (0 + 0) s.params.floor ≤ max s.cap s.params.bufMax ∧ s.Roomy ∧ 0 < s.ops.length.toNat
      ∧ 0 < s.progTotal ∧ s.progTotal ≤ 4294967296 ∧ s.env.pageCalls = [] ∧ s.env.statusCalls = [] := by decide

theorem witness_ResponseIsSampled :
    let s : State := { ready with ops.rcount := 1, env.dataIn := List.replicate 8 1 }
    s.top = .idle ∧ s.Ready ∧ 1 ≤ s.params.ceiling ∧ max 1 s.params.floor ≤ max s.cap s.params.bufMax
      ∧ s.ops.wcount.toNat + s.ops.rcount.toNat = 1 ∧ s.env.dataIn = List.replicate (8 * 1) 1 ++ [] := by decide

theorem witness_ReadCompletes :
    ready.top = .idle ∧ ready.Ready ∧ ready.Roomy ∧ small.top = .idle ∧ small.Ready ∧ small.Roomy
      ∧ 1 < chunkCount small.params small.ops.length.toNat := by decide

theorem witness_ReadFrame :
    ∃ t : State, ready.top = .idle ∧ exec .read ready = .next t ∧ SpaceInv ready ∧ t.cap = ready.cap :=
  ⟨_, by decide, rfl, by decide, by decide⟩

theorem witness_EmptyJobsSucceed :
    State.reset.top = .idle ∧ State.reset.ops.length = 0 ∧ State.reset.ops.sizeUnits = 0 := by decide

/-- Two pages of the tiny build: 2 * ((1 + 1 + 3) + 2) + 3 bytes. -/
theorem witness_ProgCompletesWhenReady :
    let s : State := { small with env.dataIn := List.replicate 137 0 }
    s.top = .idle ∧ s.Ready ∧ s.Roomy ∧ s.progTotal ≤ 4294967296
      ∧ s.env.pageCalls = [] ∧ s.env.statusCalls = []
      ∧ s.env.dataIn = List.replicate
          (8 * (pageCount s.params s.progTotal * (bytesBeforePoll s.params 0 + bytesOfPoll s.params) + s.progTotal)) 0
        ++ [0] := by decide

theorem witness_ProgOutcomes :
    small.top = .idle ∧ small.Ready ∧ small.Roomy ∧ small.progTotal ≤ 4294967296
      ∧ small.env.pageCalls = [] ∧ small.env.statusCalls = []
      ∧ 0 < small.progTotal := by decide

/-- The second page fails after one whole page of (1 + 1 + 3 + 2) + 2 bytes. -/
theorem witness_ProgramFailureStops :
    let s : State := { small with env.pageCalls := [.default, .custom [] 7], env.dataIn := List.replicate 72 0 }
    s.top = .idle ∧ s.Ready ∧ s.Roomy ∧ s.progTotal ≤ 4294967296 ∧ (7 : Word) ≠ 0
      ∧ 1 < pageCount s.params s.progTotal
      ∧ s.env.pageCalls = List.replicate 1 .default ++ .custom [] 7 :: [] ∧ s.env.statusCalls = []
      ∧ s.env.dataIn = List.replicate
          (8 * (1 * (bytesBeforePoll s.params s.params.page + bytesOfPoll s.params))) 0 ++ [] := by decide

/-- (1 + 1 + 3 + 2) bytes and two polls of two. -/
theorem witness_TimeoutAfterPollLimit :
    let s : State := { small with env.dataIn := List.replicate 88 1 }
    s.top = .idle ∧ s.Ready ∧ s.Roomy ∧ 0 < s.progTotal ∧ s.progTotal ≤ 4294967296
      ∧ s.env.pageCalls = [] ∧ s.env.statusCalls = []
      ∧ s.params.pollLimit = some 2 ∧ s.params.wipMask ≠ 0
      ∧ s.env.dataIn = List.replicate
          (8 * (bytesBeforePoll s.params (min s.params.page s.progTotal) + 2 * bytesOfPoll s.params)) 1 ++ [] := by
  decide

theorem witness_PollingNeverEnds_call :
    let s : State := { small with params := tinyEndless, env.dataIn := List.replicate 72 1 }
    s.top = .idle ∧ s.Ready ∧ s.Roomy ∧ 0 < s.progTotal ∧ s.progTotal ≤ 4294967296
      ∧ s.env.pageCalls = [] ∧ s.env.statusCalls = []
      ∧ s.params.pollLimit = none ∧ s.params.wipMask ≠ 0 ∧ 0 < 1
      ∧ s.env.dataIn = List.replicate
          (8 * (bytesBeforePoll s.params (min s.params.page s.progTotal) + 1 * bytesOfPoll s.params)) 1 := by
  decide

theorem witness_PollingNeverEnds_poll :
    let s : State := { inPps .poll with env.dataIn := List.replicate 16 1 }
    s.top = .run .prog ∧ s.tx.job = .none ∧ s.pp.pps = .poll ∧ s.Ready ∧ s.Roomy ∧ s.params.pollLimit = none
      ∧ s.params.wipMask ≠ 0 ∧ s.env.host = [] ∧ s.env.statusCalls = []
      ∧ s.env.dataIn = List.replicate (8 * bytesOfPoll s.params) 1 ++ [] := by decide

theorem witness_ProgFrame :
    ∃ t : State, ready.top = .idle ∧ exec .prog ready = .next t ∧ SpaceInv ready ∧ ready.env.pageCalls = []
      ∧ ready.env.statusCalls = [] ∧ t.cap = ready.cap :=
  ⟨_, by decide, rfl, by decide, by decide, by decide, by decide⟩

theorem witness_ProgNeedsItsData :
    let s : State := { ready with params.sizeScale := 4294967297, ops.sizeUnits := 1 }
    s.top = .idle ∧ 4294967296 < s.params.sizeScale * s.ops.sizeUnits.toNat := by decide

theorem witness_PseudoOperationsComplete :
    ready.top = .idle ∧ ready.Ready ∧ expansion ready.params .rdsr = some ([0x05], 1)
      ∧ expansion ready.params .wren = some ([0x06], 0)
      ∧ expansion ready.params (.pp 0x010203 [0xAA]) = some ([0x02, 0x01, 0x02, 0x03, 0xAA], 0)
      ∧ expansion ready.params (.rd 0x010203 65532) = some ([0x03, 0x01, 0x02, 0x03], 65532)
      ∧ 4 + 65532 ≤ ready.params.ceiling ∧ 4 + 65532 < 4294967296
      ∧ max (4 + 65532) ready.params.floor ≤ max ready.cap ready.params.bufMax := by decide

/-- A frame of no row, one of a row with no data byte, and a frame of a row. -/
theorem witness_PseudoOperationsComplete_line :
    (doing ready [.frame [0x9F] 3]).env.host = [.frame [0x9F] 3]
      ∧ (doing ready [.frame [0x02, 0, 0, 0] 0]).env.host = [.frame [0x02, 0, 0, 0] 0]
      ∧ (doing ready [.frame [0x06] 0]).env.host = [.frame [0x06] 0] := by decide

theorem witness_PseudoFrame :
    ∃ t : State, expansion State.reset.params .wren = some ([0x06], 0) ∧ State.reset.top = .idle
      ∧ exec .wren State.reset = .next t ∧ t.err ≠ 0x00 ∧ SpaceInv State.reset :=
  ⟨_, by decide, by decide, rfl, by decide, by decide⟩

theorem witness_PseudoFrame_same_capacity :
    ∃ t : State, exec .wren { State.reset with cap := 260 } = .next t
      ∧ t.cap = ({ State.reset with cap := 260 } : State).cap := ⟨_, rfl, by decide⟩

theorem witness_AcceptanceRaisesBusy :
    ready.top = .idle ∧ (doing ready [.write 0 6]).env.host = [.write 0x00 6] ∧ decodeOp 6 = .ok .prog
      ∧ ready.progTotal ≤ 4294967296 := ⟨by decide, by decide, rfl, by decide⟩

/-- EXEC accepted, at its length check. -/
theorem witness_TransactionPhasesInOrder :
    let s : State := { ready with top := .run .exec, tx := { TxSeq.rest with job := .exec } }
    ∃ t : State, s.env.host = [] ∧ s.top = .run .exec ∧ s.tx.job ≠ .none ∧ s.tx.txs ≠ .done
      ∧ txWriteLen s + txReadLen s ≤ s.params.ceiling
      ∧ step s = .next t ∧ t.top = s.top := ⟨_, by decide, by decide, by decide, by decide, by decide, rfl, by decide⟩

/-- Each row of the table has a state: the last page starts below TOTAL = 3 and ends above; polls below, at and without
a limit. -/
theorem witness_PageProgrammerTable :
    (inPps .next).env.host = [] ∧ (inPps .next).top = .run .prog ∧ (inPps .next).tx.job = .none
      ∧ (inPps .next).off < (inPps .next).pp.total ∧ 1 ≤ (inPps .next).params.page
      ∧ ({ inPps .next with off := 3 } : State).pp.total ≤ 3
      ∧ (inPps .program).pp.pps = .program ∧ (inPps .program).env.pageCalls = [] ∧ (inPps .poll).env.statusCalls = []
      ∧ ({ inPps .program with env.pageCalls := [.custom [] 7] } : State).env.pageCalls = .custom [] 7 :: []
      ∧ (7 : Word) ≠ 0
      ∧ ({ inPps .poll with env.statusCalls := [.custom [] 7] } : State).env.statusCalls = .custom [] 7 :: []
      ∧ (inPps .poll).pp.pps = .poll ∧ (inPps .test).sr &&& (inPps .test).params.wipMask = 0
      ∧ (0x03 : Byte) &&& tiny.wipMask ≠ 0 ∧ tiny.pollLimit = some 2 ∧ tinyEndless.pollLimit = none
      ∧ (inPps .advance).pp.pps = .advance ∧ (inPps .ok).pp.pps = .ok ∧ (inPps .fail).pp.pps = .fail
      ∧ (inPps .timeout).pp.pps = .timeout
      ∧ ({ inPps .program with tx := { TxSeq.rest with job := .pp, txs := .done } } : State).tx.txs = .done
      ∧ ({ inPps .poll with tx := { TxSeq.rest with job := .rdsr, txs := .done } } : State).tx.job = .rdsr := by decide

theorem witness_ShortOperationsAgree :
    ∃ t : State, ready.top = .idle ∧ (doing ready [.write 0 1]).env.host = [.write 0x00 (encodeOp .init)]
      ∧ exec (Op.instr .init) { doing ready [.write 0 1] with env.host := [] } = .next t :=
  ⟨_, by decide, by decide, rfl⟩

theorem witness_ExecAgrees :
    ∃ t : State, (doing ready [.write 0 4]).env.host = [.write 0x00 0x00000004]
      ∧ exec .exec { doing ready [.write 0 4] with env.host := [] } = .next t := ⟨_, by decide, rfl⟩

theorem witness_ReadAgrees :
    ∃ t : State, (doing ready [.write 0 5]).env.host = [.write 0x00 0x00000005]
      ∧ exec .read { doing ready [.write 0 5] with env.host := [] } = .next t := ⟨_, by decide, rfl⟩

theorem witness_ProgAgrees :
    ∃ t : State, (doing ready [.write 0 6]).env.host = [.write 0x00 0x00000006]
      ∧ exec .prog { doing ready [.write 0 6] with env.host := [] } = .next t := ⟨_, by decide, rfl⟩

theorem witness_FatalIsFinal :
    ∃ t : State, dead.top = .fatal ∧ (doing dead [.read 4]).env.host.head? ≠ some .reset
      ∧ step (doing dead [.read 4]) = .next t := ⟨_, by decide, by decide, rfl⟩

theorem witness_PinFaultIsFatal :
    let s : State := { ready with params.backendFallible := true, env.pinFaults := [true] }
    s.backendSel ∈ s.params.validBackends ∧ s.params.backendFallible = true ∧ s.env.pinFaults = true :: []
      ∧ s.top = .idle := by decide

theorem witness_PinPrimitives :
    ready.Ready ∧ State.reset.backendSel ∉ State.reset.params.validBackends := by decide

theorem witness_ErrHoldsWhileBusy :
    ∃ t : State, step (inPps .poll) = .next t ∧ (inPps .poll).env.host.head? ≠ some .reset ∧ t.busyBit = 1 :=
  ⟨_, rfl, by decide, by decide⟩

theorem witness_ResultOnlyByTransfers :
    ∃ t : State, step (doing { ready with env.dataIn := [1] } [.call 2]) = .next t
      ∧ t.result ≠ (doing { ready with env.dataIn := [1] } [.call 2]).result :=
  ⟨_, rfl, by decide⟩

theorem witness_OperandRegisters :
    ready.top = .idle ∧ (0x08 : Word) = 0x08 ∧ (0xFF : Word) = 0xFF
      ∧ (doing ready [.write 0x08 0xABCD, .read 0x08]).env.host = [.write 0x08 0xABCD, .read 0x08] := by decide

theorem witness_OperandRegisters_hold :
    ∃ t : State, (inPps .poll).top ≠ .idle ∧ (doing (inPps .poll) [.write 0x10 7]).env.host.head? ≠ some .reset
      ∧ step (doing (inPps .poll) [.write 0x10 7]) = .next t := ⟨_, by decide, by decide, rfl⟩

theorem witness_IgnoredWrites :
    (doing ready [.write 0x04 1]).env.host = [.write 0x04 1] ∧ (0x04 : Word).toNat % 4 = 0
      ∧ 0x28 ≤ (0x28 : Word).toNat ∧ (0x28 : Word).toNat % 4 = 0 ∧ 0x28 ≤ (0xFFFFFFFC : Word).toNat
      ∧ (0xFFFFFFFC : Word).toNat % 4 = 0 ∧ dead.top ≠ .idle ∧ 0x08 ≤ (0x08 : Word).toNat
      ∧ (0x08 : Word).toNat % 4 = 0 := by decide

/-- The offsets where the clauses meet: the last operand register, the first result register, the last register, the
first reserved offset; the last three of these while idle, and PROG_RESULT also while BUSY. -/
theorem witness_RegisterMapReads :
    (doing ready [.read 0x3C]).env.host = [.read 0x3C] ∧ ready.busyBit = 0 ∧ (0x3C : Word).toNat % 4 = 0
      ∧ (inPps .poll).busyBit = 1 ∧ (0x24 : Word).toNat < 0x28 ∧ (0x24 : Word).toNat % 4 = 0
      ∧ ¬ (0x28 : Word).toNat < 0x28 ∧ 0x40 ≤ (0x40 : Word).toNat ∧ (0x40 : Word).toNat % 4 = 0
      ∧ (0x2C : Word).toNat % 4 = 0 ∧ (doing (inPps .poll) [.read 0x2C]).env.host = [.read 0x2C] := by decide

/-- A register of U15 while BUSY; RESULT in an operation that does not write it. -/
theorem witness_RegisterMapReads_busy :
    (doing (inPps .poll) [.read 0x28]).env.host = [.read 0x28] ∧ (0x28 : Word).toNat % 4 = 0
      ∧ (doing (inPps .poll) [.read 0x28]).busyBit = 1 ∧ (inPps .poll).top ≠ .run .xbit
      ∧ (inPps .poll).top ≠ .run .xbyte ∧ (doing (inPps .poll) [.read 0x3C]).env.host = [.read 0x3C]
      ∧ (0x30 : Word).toNat % 4 = 0 ∧ (0x34 : Word).toNat % 4 = 0 ∧ (0x38 : Word).toNat % 4 = 0 := by decide

theorem witness_HostDataAccess :
    ready.top = .idle ∧ (doing ready [.putHw 0xFFFFFFFF 0xAA]).env.host = [.putHw 0xFFFFFFFF 0xAA]
      ∧ SpaceInv (doing ready [.putHw 0xFFFFFFFF 0xAA]) ∧ (doing ready [.getHr 0]).env.host = [.getHr 0] := by decide

theorem witness_HostMisuseIsRefused :
    (inPps .poll).busyBit = 1 ∧ (doing (inPps .poll) [.putHw 0 1]).env.host = [.putHw 0 1]
      ∧ (doing (inPps .poll) [.getHr 0]).env.host = [.getHr 0] ∧ (0x05 : Word).toNat % 4 ≠ 0
      ∧ (doing ready [.write 5 0]).env.host = [.write 5 0] ∧ (doing ready [.read 5]).env.host = [.read 5] := by decide

theorem witness_CapacityNeverShrinks :
    ∃ t : State, step (doing ready [.call 4]) = .next t ∧ (doing ready [.call 4]).env.host.head? ≠ some .reset :=
  ⟨_, rfl, by decide⟩

theorem witness_CapacityNeverShrinks_completed :
    ∃ (rbytes : List Byte) (t : State), transaction [] 0 ready = .ok (0x00, rbytes) t := ⟨_, _, rfl⟩

theorem witness_CapacityNeverShrinks_stopped :
    ∃ t : State, transaction [] 0 State.reset = .halt t ∧ t.err ≠ 0x02 := ⟨_, rfl, by decide⟩

theorem witness_StepKeepsSpaces :
    ∃ t : State, SpaceInv (doing ready [.putHw 3 1]) ∧ step (doing ready [.putHw 3 1]) = .next t :=
  ⟨_, by decide, rfl⟩

theorem witness_StepKeepsCapacity :
    ∃ t : State, CapInv (doing ready [.call 4]) ∧ step (doing ready [.call 4]) = .next t := ⟨_, by decide, rfl⟩

theorem witness_StepKeepsErrorCode :
    ∃ t : State, ErrInv (doing State.reset [.call 4]) ∧ step (doing State.reset [.call 4]) = .next t :=
  ⟨_, by decide, rfl⟩

/-- The rising edge of a bit cell of XBIT. -/
theorem witness_StepKeepsLines :
    let s : State := { ready with top := .run .xbit, tx := { TxSeq.rest with bitph := .rise } }
    ∃ t : State, LineInv s ∧ step s = .next t := ⟨_, by decide, rfl⟩

theorem witness_ParametersNeverChange : ∃ t : State, step (doing dead [.reset]) = .next t := ⟨_, rfl⟩

theorem witness_EventsOfAStep :
    let s : State := { ready with top := .run .xbit, tx := { TxSeq.rest with bitph := .wait1 } }
    ∃ t : State, step s = .next t ∧ s.env.host.head? ≠ some .reset ∧ s.env.host = [] := ⟨_, rfl, by decide, by decide⟩

end Sys2Proof.Tests
end

section
/-!
SUPPORT. What a step can do, said once: the host's part first, then at most one of a phase, a called operation, an
accepted operation and a reset. From it: no step changes the parameters of the build (00_scope.md R13 to R28; log 5).
-/
namespace Sys2Proof.Machine

/-! ## The host's part of a step -/

/-- What the host's action does by itself: its list and what it reads, the operand registers, HW, and the flags OVR and
ERR of a command that is discarded. -/
def HostMove (s u : State) : Prop :=
  u = { s with
    ovr := u.ovr, err := u.err, ops := u.ops, hw := u.hw
    env := { s.env with host := u.env.host, hostRead := u.env.hostRead, fresh := u.env.fresh } }

theorem HostMove.refl (s : State) : HostMove s s := rfl

theorem HostMove.trans {s u v : State} (h : HostMove s u) (h' : HostMove u v) : HostMove s v := by
  unfold HostMove at h h' ⊢
  rw [h', h]

theorem HostMove.params_eq {s u : State} (h : HostMove s u) : u.params = s.params := by rw [h]

theorem HostMove.withHost (s : State) (rest : List HostAct) : HostMove s (s.withHost rest) := rfl

theorem HostMove.hostGets (s : State) (v : Word) : HostMove s (s.hostGets v) := rfl

theorem HostMove.stageExec (wbytes : List Byte) (r : Nat) (s : State) : HostMove s (stageExec wbytes r s) := by
  unfold Machine.stageExec
  split <;> rfl

theorem HostMove.illegalCommand (s : State) : HostMove s (illegalCommand s) := by
  unfold Machine.illegalCommand
  split <;> rfl

/-- How a step goes on from the state `u` the host's part has left: not at all, with a phase of the running operation,
with an operation called or accepted, or with a reset. -/
def GoesOn (u t : State) : Prop :=
  t = u ∨ tick u = .next t ∨ (∃ op : Op, exec op.instr u = .next t) ∨ (∃ op, startOp op u = .next t)
    ∨ t = u.hardReset

/-- What a step does from `s`: the host's part, and then how it goes on. -/
def HostThen (s t : State) : Prop := ∃ u, HostMove s u ∧ GoesOn u t

/-- The host's part alone. -/
theorem HostMove.stays {s t : State} (h : HostMove s t) : HostThen s t := ⟨t, h, .inl rfl⟩

/-- One more part of the host's before. -/
theorem HostThen.after {s s' t : State} (h : HostMove s s') (h' : HostThen s' t) : HostThen s t := by
  obtain ⟨u, hu, ht⟩ := h'
  exact ⟨u, h.trans hu, ht⟩

/-- Every instruction is a host operation, called at once or after the writes of its line `EXEC` (R138). -/
theorem exec_eq_op (i : Instr) (s : State) : ∃ (op : Op) (u : State), HostMove s u ∧ exec i s = exec op.instr u := by
  cases i with
  | init => exact ⟨.init, s, .refl s, rfl⟩
  | xbit => exact ⟨.xbit, s, .refl s, rfl⟩
  | xbyte => exact ⟨.xbyte, s, .refl s, rfl⟩
  | exec => exact ⟨.exec, s, .refl s, rfl⟩
  | read => exact ⟨.read, s, .refl s, rfl⟩
  | prog => exact ⟨.prog, s, .refl s, rfl⟩
  | rdsr => exact ⟨.exec, _, .stageExec _ _ s, rfl⟩
  | wren => exact ⟨.exec, _, .stageExec _ _ s, rfl⟩
  | pp addr data => exact ⟨.exec, _, .stageExec _ _ s, rfl⟩
  | rd addr n => exact ⟨.exec, _, .stageExec _ _ s, rfl⟩

theorem exec_hostThen {i : Instr} {s t : State} (h : exec i s = .next t) : HostThen s t := by
  obtain ⟨op, u, hu, e⟩ := exec_eq_op i s
  exact ⟨u, hu, .inr (.inr (.inl ⟨op, e ▸ h⟩))⟩

theorem hostWrite_hostThen {off v : Word} {s t : State} (h : hostWrite off v s = .next t) : HostThen s t := by
  unfold hostWrite at h
  split at h
  · cases h
  · split at h
    · unfold writeCmd at h
      split at h
      · split at h
        · rename_i op _
          exact ⟨s, .refl s, .inr (.inr (.inr (.inl ⟨op, h⟩)))⟩
        · cases h
          exact (HostMove.illegalCommand s).stays
      · cases h
        exact HostMove.stays rfl
    · split at h <;> cases h <;> exact HostMove.stays rfl

theorem hostReadReg_hostThen {off : Word} {s t : State} (h : hostReadReg off s = .next t) : HostThen s t := by
  rcases hostReadReg_cases off s with ⟨-, e⟩ | ⟨-, -, -, e⟩ | ⟨-, -, e⟩ <;> rw [e] at h <;> cases h
  · exact HostMove.stays rfl
  · exact (HostMove.hostGets s _).stays

theorem hostPoll_hostThen {rest : List HostAct} {s t : State} (h : hostPoll rest s = .next t) : HostThen s t := by
  unfold hostPoll at h
  split at h
  · exact ⟨_, .hostGets s _, .inr (.inl h)⟩
  · cases h
    exact ((HostMove.withHost s rest).trans (.hostGets _ _)).stays

theorem hostPutHw_hostThen {addr : Word} {b : Byte} {s t : State} (h : hostPutHw addr b s = .next t) : HostThen s t := by
  unfold hostPutHw at h
  split at h <;> cases h
  · exact HostMove.stays rfl
  · exact (HostMove.refl s).stays

theorem hostGetHr_hostThen {addr : Word} {s t : State} (h : hostGetHr addr s = .next t) : HostThen s t := by
  unfold hostGetHr at h
  split at h <;> cases h <;> exact (HostMove.hostGets s _).stays

/-- Everything `step` can answer with a next state: the host's part, and how the step goes on from there. -/
theorem step_next {s t : State} (h : step s = .next t) : HostThen s t := by
  unfold step at h
  split at h
  · exact ⟨s, .refl s, .inr (.inl h)⟩
  · exact ⟨_, .withHost s _, .inr (.inl h)⟩
  · exact hostPoll_hostThen h
  · split at h
    · exact HostThen.after (.withHost s _) (exec_hostThen h)
    · cases h
      exact ((HostMove.withHost s _).trans (.illegalCommand _)).stays
  · split at h
    · exact HostThen.after (.withHost s _) (exec_hostThen h)
    · exact HostThen.after ((HostMove.withHost s _).trans (.stageExec _ _ _)) (exec_hostThen h)
  · exact HostThen.after (.withHost s _) (hostWrite_hostThen h)
  · exact HostThen.after (.withHost s _) (hostReadReg_hostThen h)
  · exact HostThen.after (.withHost s _) (hostPutHw_hostThen h)
  · exact HostThen.after (.withHost s _) (hostGetHr_hostThen h)
  · cases h
    exact ⟨_, .withHost s _, .inr (.inr (.inr (.inr rfl)))⟩

/-! ## The parameters in a phase, an acceptance and a reset -/

@[simp] theorem hardReset_params (s : State) : s.hardReset.params = s.params := rfl

theorem TickNext.params_eq {s t : State} (h : TickNext s t) : t.params = s.params := by
  obtain ⟨s0, u, hs0, ⟨evs, -, hu⟩, ht⟩ := h
  have e0 : s0.params = s.params := by
    rcases hs0 with rfl | ⟨-, rfl⟩
    · rfl
    · exact initLatch_params s
  have e : u.params = s.params := hu.params_eq.trans e0
  rcases ht with rfl | ⟨code, rfl, -⟩ | ⟨-, r, rfl⟩ | rfl | rfl | rfl <;> exact e

theorem tick_params {s t : State} (h : tick s = .next t) : t.params = s.params := by
  rcases tick_next h with ⟨-, rfl⟩ | ⟨-, ht⟩
  · rfl
  · exact ht.params_eq

theorem startOp_params {op : Op} {s t : State} (h : startOp op s = .next t) : t.params = s.params := by
  cases op with
  | prog =>
    simp only [startOp] at h
    split at h
    · cases h
    · cases h; rfl
  | init => cases h; rfl
  | xbit => cases h; rfl
  | xbyte => cases h; rfl
  | exec => cases h; rfl
  | read => cases h; rfl

/-! ## The parameters in a called operation -/

/-- Wherever the run ends, the build is the one with parameters `p`. -/
def Run.InBuild {α : Type} (p : Params) (r : Run α) : Prop := r.All (fun _ t => t.params = p) (fun t => t.params = p)

theorem Run.InBuild.bind {α β : Type} {p : Params} {r : Run α} {k : α → State → Run β} (h : r.InBuild p)
    (hk : ∀ a s, s.params = p → (k a s).InBuild p) : (r.bind k).InBuild p := Run.All.bind h hk

theorem BusMove.params_eq {s t : State} (h : BusMove s t) : t.params = s.params := by rw [h.only]

theorem FatalAfter.params_eq {s t : State} (h : FatalAfter BusMove s t) : t.params = s.params := by
  obtain ⟨u, hu, rfl | rfl⟩ := h <;> exact hu.params_eq

theorem TxFatal.params_eq {s t : State} (h : TxFatal s t) : t.params = s.params := by
  obtain ⟨u, hu, rfl | rfl | rfl⟩ := h <;> exact hu.params_eq

theorem ReadFatal.params_eq {l : Nat} {s t : State} (h : ReadFatal l s t) : t.params = s.params := by
  obtain ⟨u, hu, rfl | rfl | rfl⟩ := h <;> exact hu.params_eq

theorem ProgStops.params_eq {s t : State} (h : ProgStops s t) : t.params = s.params := by
  rcases h with ⟨u, hu, rfl | rfl | rfl⟩ | ⟨u, total, plen, npoll, hu, rfl⟩
  · exact hu.params_eq
  · exact hu.params_eq
  · exact hu.params_eq
  · exact hu.move.params_eq

theorem runInit_inBuild (s : State) : (runInit s).InBuild s.params := by
  have hcs (l : Bit) (u : State) : (setCs l u).InBuild u.params :=
    (setCs_all l u).imp (fun _ _ h => h.1.params_eq) fun _ h => h.params_eq
  have hsck (l : Bit) (u : State) : (setSck l u).InBuild u.params :=
    (setSck_all l u).imp (fun _ _ h => h.1.params_eq) fun _ h => h.params_eq
  unfold runInit
  split
  · exact initLatch_params s
  · refine (hcs _ (initLatch s)).bind fun _ s1 h1 => ?_
    have h2 := hsck 0 s1
    rw [h1] at h2
    exact h2.bind fun _ _ h => h

theorem runXbit_inBuild (s : State) : (runXbit s).InBuild s.params :=
  ((xbit_all s.argBit s).imp (fun _ _ h => h) fun _ h => h.params_eq).bind fun _ _ h => h.1.params_eq

theorem runXbyte_inBuild (s : State) : (runXbyte s).InBuild s.params :=
  ((xbyte_all s.ops.arg s).imp (fun _ _ h => h) fun _ h => h.params_eq).bind fun _ _ h => h.1.params_eq

theorem runExec_inBuild (s : State) : (runExec s).InBuild s.params := by
  unfold runExec
  split
  · exact rfl
  · exact ((transaction_all _ _ s).imp (fun _ _ h => h) fun _ h => h.params_eq).bind fun _ _ h => h.1.params_eq

theorem runRead_inBuild (s : State) : (runRead s).InBuild s.params :=
  (readLoop_all _ _ _ 0 s).imp (fun _ _ h => h.1.params_eq) fun _ h => h.params_eq

theorem runProg_inBuild (s : State) : (runProg s).InBuild s.params :=
  (pageLoop_all _ _ (progEntry s)).imp (fun _ _ h => h.1.move.params_eq) fun _ h => h.params_eq

theorem finish_params {p : Params} {r : Run Byte} (hr : r.InBuild p) {t : State} (h : finish r = .next t) :
    t.params = p := by
  rcases finish_next hr h with ⟨code, u, hu, rfl⟩ | ht
  · exact hu
  · exact ht

/-- An issued operation keeps the parameters when its body does; a discarded one sets OVR alone (R56). -/
theorem issue_params {op : Op} {body : State → Host.Outcome State Fault Refusal} {s t : State}
    (hbody : ∀ u, body u = .next t → t.params = u.params) (h : issue op body s = .next t) : t.params = s.params := by
  by_cases hs : s.top = .idle
  · rw [issue_idle hs] at h
    exact (hbody _ h).trans (accept_params s op)
  · rw [issue_notIdle hs] at h
    cases h
    rfl

theorem exec_op_params {op : Op} {s t : State} (h : exec op.instr s = .next t) : t.params = s.params := by
  cases op with
  | init => exact issue_params (fun u hu => finish_params (runInit_inBuild u) hu) h
  | xbit => exact issue_params (fun u hu => finish_params (runXbit_inBuild u) hu) h
  | xbyte => exact issue_params (fun u hu => finish_params (runXbyte_inBuild u) hu) h
  | exec => exact issue_params (fun u hu => finish_params (runExec_inBuild u) hu) h
  | read => exact issue_params (fun u hu => finish_params (runRead_inBuild u) hu) h
  | prog =>
    have h : execProg s = .next t := h
    refine issue_params (fun u hu => ?_) h
    split at hu
    · cases hu
    · exact finish_params (runProg_inBuild u) hu

theorem GoesOn.params_eq {u t : State} (h : GoesOn u t) : t.params = u.params := by
  rcases h with rfl | h | ⟨op, h⟩ | ⟨op, h⟩ | rfl
  · rfl
  · exact tick_params h
  · exact exec_op_params h
  · exact startOp_params h
  · exact hardReset_params u

/-- Settles O59: neither the host's part of a step nor what follows it writes the parameters. -/
theorem parametersNeverChange : Obligations.ParametersNeverChange := by
  intro s t h
  obtain ⟨u, hu, ht⟩ := step_next h
  exact ht.params_eq.trans hu.params_eq

end Sys2Proof.Machine
end

section
/-!
SUPPORT. The host's bytes in HW and HR while the block is idle (20_memory.md R90, R93, R94).
-/
namespace Sys2Proof.Machine

/-- A byte just written reads back. -/
theorem memRead_memWrite_same (m : Memory) (a : Nat) (b : Byte) : memRead (memWrite m a b) a = some b := by
  have h := memRead_memWriteRange_in m a [b] a (Nat.le_refl a) (by simp)
  rwa [Nat.sub_self] at h

/-- Writing one byte changes no other. -/
theorem memRead_memWrite_other {m : Memory} (hm : memWf m = true) {a j : Nat} (b : Byte) (h : j ≠ a) :
    memRead (memWrite m a b) j = memRead m j :=
  memRead_memWriteRange_out hm a [b] j (by simp only [List.length_cons, List.length_nil]; omega)

theorem hostPutHw_idle {s : State} (h : s.top = .idle) (a : Word) (b : Byte) :
    hostPutHw a b s = .next { s with hw := memWrite s.hw a.toNat b } := by
  simp only [hostPutHw, h]

theorem hostGetHr_idle {s : State} (h : s.top = .idle) (a : Word) :
    hostGetHr a s = .next (s.hostGets ((s.hrAt a.toNat).setWidth 32)) := by
  simp only [hostGetHr, h]

theorem step_putHw {s : State} {a : Word} {b : Byte} {rest : List HostAct} (h : s.env.host = .putHw a b :: rest) :
    step s = hostPutHw a b (s.withHost rest) := by
  simp only [step, h]

theorem step_getHr {s : State} {a : Word} {rest : List HostAct} (h : s.env.host = .getHr a :: rest) :
    step s = hostGetHr a (s.withHost rest) := by
  simp only [step, h]

/-- Settles O51: the step is the host's access, and a write of HW is one `memWrite`. -/
theorem hostDataAccess : Obligations.HostDataAccess := by
  intro s a rest hidle
  refine ⟨fun b hhost hinv => ?_, fun hhost => ?_⟩
  · obtain ⟨-, -, hhw, -⟩ := hinv
    refine ⟨_, (step_putHw hhost).trans (hostPutHw_idle (s := s.withHost rest) hidle a b), rfl, ?_, fun j hj => ?_⟩
    · simp only [State.hwAt, withHost_hw, memRead_memWrite_same, Option.getD_some]
    · simp only [State.hwAt, withHost_hw, memRead_memWrite_other hhw b hj, withHost_env]
  · exact (step_getHr hhost).trans (hostGetHr_idle (s := s.withHost rest) hidle a)

end Sys2Proof.Machine
end

section
/-!
SUPPORT. What EXEC and READ leave unchanged (20_memory.md R94; 42_transaction_controller.md R170, R182;
43_chunked_reader.md R190): OUT and IN beyond the longest frame where the buffers do not grow, HR beyond the response,
and every field neither writes.
-/
namespace Sys2Proof.Machine

/-- Both things a run does wherever it ends. -/
theorem Run.All.and {α : Type} {P P' : α → State → Prop} {Q Q' : State → Prop} {r : Run α} (h : r.All P Q)
    (h' : r.All P' Q') : r.All (fun a s => P a s ∧ P' a s) (fun s => Q s ∧ Q' s) := by
  cases r with
  | ok a s => exact ⟨h, h'⟩
  | halt s => exact ⟨h, h'⟩
  | fault f => trivial

/-! ## OUT and IN beyond a frame -/

/-- OUT and IN are in canonical form. -/
def ScratchWf (s : State) : Prop := memWf s.outBuf = true ∧ memWf s.inBuf = true

/-- From `s` to `t` the buffers do not shrink, and where they do not grow OUT and IN are as they were from index `n`
on. Growth forgets their content (R172; log 10). -/
structure ScratchFrame (n : Nat) (s t : State) : Prop where
  cap_le : s.cap ≤ t.cap
  wf : ScratchWf s → ScratchWf t
  kept : ScratchWf s → t.cap = s.cap → ∀ a, n ≤ a →
    memRead t.outBuf a = memRead s.outBuf a ∧ memRead t.inBuf a = memRead s.inBuf a

theorem ScratchFrame.trans {n : Nat} {s t u : State} (h : ScratchFrame n s t) (h' : ScratchFrame n t u) :
    ScratchFrame n s u where
  cap_le := Nat.le_trans h.cap_le h'.cap_le
  wf := fun hw => h'.wf (h.wf hw)
  kept := fun hw hc a ha => by
    have hle := h.cap_le
    have hle' := h'.cap_le
    have e := h.kept hw (by omega) a ha
    have e' := h'.kept (h.wf hw) (by omega) a ha
    exact ⟨e'.1.trans e.1, e'.2.trans e.2⟩

theorem ScratchFrame.mono {n m : Nat} {s t : State} (h : ScratchFrame n s t) (hnm : n ≤ m) : ScratchFrame m s t :=
  ⟨h.cap_le, h.wf, fun hw hc a ha => h.kept hw hc a (Nat.le_trans hnm ha)⟩

/-- Whatever leaves CAP, OUT and IN alone. -/
theorem ScratchFrame.of_same {n : Nat} {s t : State} (hcap : t.cap = s.cap) (hout : t.outBuf = s.outBuf)
    (hin : t.inBuf = s.inBuf) : ScratchFrame n s t where
  cap_le := Nat.le_of_eq hcap.symm
  wf := by unfold ScratchWf; rw [hout, hin]; exact id
  kept := fun _ _ a _ => by rw [hout, hin]; exact ⟨rfl, rfl⟩

theorem ScratchFrame.refl (n : Nat) (s : State) : ScratchFrame n s s := .of_same rfl rfl rfl

theorem BusMove.scratchFrame {s t : State} (h : BusMove s t) (n : Nat) : ScratchFrame n s t :=
  .of_same (by rw [h.only]) (by rw [h.only]) (by rw [h.only])

theorem FatalAfter.scratchFrame {s t : State} (h : FatalAfter BusMove s t) (n : Nat) : ScratchFrame n s t := by
  obtain ⟨u, hu, rfl | rfl⟩ := h <;> exact (hu.scratchFrame n).trans (.of_same rfl rfl rfl)

theorem setCs_scratch (n : Nat) (l : Bit) (s : State) :
    (setCs l s).All (fun _ t => ScratchFrame n s t) (ScratchFrame n s) := by
  obtain ⟨pf, h | h | h⟩ := resolve_cases s <;> simp only [setCs, h, Run.bind_ok, Run.bind_halt, Run.All] <;>
    exact .of_same rfl rfl rfl

theorem xbyte_scratch (n : Nat) (v : Byte) (s : State) :
    (xbyte v s).All (fun _ t => ScratchFrame n s t) (ScratchFrame n s) :=
  (xbyte_all v s).imp (fun _ _ h => h.1.scratchFrame n) fun _ h => h.scratchFrame n

/-- Growth makes CAP larger, so that nothing is claimed of the forgotten bytes. -/
theorem grow_scratch (n req : Nat) (s : State) :
    (grow req s).All (fun _ t => ScratchFrame n s t) (ScratchFrame n s) := by
  unfold grow
  split
  · rename_i hlt
    split
    · exact .of_same rfl rfl rfl
    · exact ⟨Nat.le_of_lt hlt, fun _ => ⟨memWf_nil, memWf_nil⟩, fun _ hc => absurd hc (Nat.ne_of_gt hlt)⟩
  · exact .refl n s

theorem fillScratch_scratch (wbytes : List Byte) (r : Nat) (s : State) :
    ScratchFrame (wbytes.length + r) s (fillScratch wbytes r s) where
  cap_le := Nat.le_refl _
  wf := fun h => ⟨memWriteRange_wf (memWriteRange_wf h.1 _ _) _ _, memWriteRange_wf h.2 _ _⟩
  kept := fun h _ a ha => by
    have out (bs : List Byte) (i : Nat) (m : Memory) (hm : memWf m = true) (hl : i + bs.length ≤ wbytes.length + r) :
        memRead (memWriteRange m i bs) a = memRead m a :=
      memRead_memWriteRange_out hm i bs a (.inr (by omega))
    constructor
    · rw [fillScratch_outBuf, out _ _ _ (memWriteRange_wf h.1 _ _) (by simp), out _ _ _ h.1 (by simp)]
    · rw [fillScratch_inBuf, out _ _ _ h.2 (by simp)]

theorem storeIn_scratch {n p : Nat} (hp : p < n) (u : Byte) (s : State) : ScratchFrame n s (storeIn p u s) where
  cap_le := Nat.le_refl _
  wf := fun h => ⟨h.1, memWrite_wf h.2 p u⟩
  kept := fun h _ a ha => ⟨rfl, memRead_memWrite_other h.2 u (by omega)⟩

theorem bytesLoop_scratch {n : Nat} (k p : Nat) (s : State) (hp : p + k ≤ n) :
    (bytesLoop k p s).All (fun _ t => ScratchFrame n s t) (ScratchFrame n s) := by
  induction k generalizing p s with
  | zero => exact .refl n s
  | succ k ih =>
    refine (xbyte_scratch n (s.outAt p) s).bind fun u s1 h1 => ?_
    have e : ScratchFrame n s (storeIn p u s1) := h1.trans (storeIn_scratch (by omega) u s1)
    exact (ih (p + 1) (storeIn p u s1) (by omega)).imp (fun _ _ h => e.trans h) fun _ h => e.trans h

theorem frameRun_scratch (n : Nat) (s : State) :
    (frameRun n s).All (fun _ t => ScratchFrame n s t) (ScratchFrame n s) := by
  have hdelay (u : State) : ScratchFrame n u (delay u) := (BusMove.delay u).scratchFrame n
  refine (setCs_scratch n _ s).bind fun _ s1 h1 => ?_
  refine ((bytesLoop_scratch n 0 s1 (by omega)).imp (fun _ _ h => h1.trans h) fun _ h => h1.trans h).bind
    fun _ s2 h2 => ?_
  have e : ScratchFrame n s (delay s2) := h2.trans (hdelay s2)
  exact ((setCs_scratch n _ (delay s2)).imp (fun _ _ h => e.trans h) fun _ h => e.trans h).bind
    fun _ s3 h3 => h3.trans (hdelay s3)

/-- A transaction accesses OUT and IN inside its frame only, and within the ceiling its status is 0 (R170, R171). -/
theorem transaction_scratch (wbytes : List Byte) (r : Nat) (s : State) :
    (transaction wbytes r s).All
      (fun res t => ScratchFrame (wbytes.length + r) s t
        ∧ (s.params.ceiling < wbytes.length + r ∨ res.1 = codeOk))
      (ScratchFrame (wbytes.length + r) s) := by
  unfold transaction
  split
  · rename_i hlong
    exact ⟨.refl _ s, .inl hlong⟩
  · refine (grow_scratch (wbytes.length + r) _ s).bind fun _ s1 h1 => ?_
    have e := h1.trans (fillScratch_scratch wbytes r s1)
    exact ((frameRun_scratch _ (fillScratch wbytes r s1)).imp (fun _ _ h => e.trans h) fun _ h => e.trans h).bind
      fun _ s3 h3 => ⟨h3, .inr rfl⟩

theorem writeHr_scratch (n a : Nat) (bs : List Byte) (s : State) : ScratchFrame n s (s.writeHr a bs) :=
  .of_same rfl rfl rfl

/-! ## The end of an operation -/

/-- What EXEC and READ leave unchanged: every field not named, HR from `l` on, and, where the buffers do not grow, OUT
and IN from `n` on. -/
structure OpFrame (l n : Nat) (s t : State) : Prop where
  only : t = { s with
    cs := t.cs, sck := t.sck, mosi := t.mosi, acc := t.acc, cap := t.cap, outBuf := t.outBuf, inBuf := t.inBuf
    err := t.err, hr := t.hr, top := t.top, initph := t.initph, tx := t.tx, rd := t.rd, pp := t.pp
    span := t.span, trace := t.trace
    env := { s.env with dataIn := t.env.dataIn, pinFaults := t.env.pinFaults } }
  spaces : SpaceInv s →
    (∀ a, l ≤ a → t.hrAt a = s.hrAt a)
    ∧ (t.cap = s.cap → ∀ a, n ≤ a → t.outAt a = s.outAt a ∧ t.inAt a = s.inAt a)

/-- An operation that has moved from its acceptance to `u` and ends there with `code`, whatever TOP becomes. -/
theorem ReadMove.opFrame {l n : Nat} {op : Op} {s u t : State} {code : Byte} {top : Top}
    (hmove : ReadMove l (s.accept op) u) (ht : t = { u.atRest with err := code, top := top })
    (hscratch : ScratchFrame n (s.accept op) t) : OpFrame l n s t where
  only := by rw [ht, hmove.only]; rfl
  spaces := fun ⟨hout, hin, _, hhr, _, _⟩ => by
    have hworld : t.env.world = s.env.world := by rw [ht, hmove.only]; rfl
    constructor
    · intro a ha
      have e : memRead t.hr a = memRead s.hr a := by rw [ht]; exact hmove.hr_out hhr a ha
      simp only [State.hrAt, e, hworld]
    · intro hcap a ha
      have e := hscratch.kept ⟨hout, hin⟩ hcap a ha
      simp only [accept_outBuf, accept_inBuf] at e
      simp only [State.outAt, State.inAt, e, hworld, hcap, and_self]

/-- From everything the operation's run can do, however it ends. -/
theorem finish_opFrame {l n : Nat} {op : Op} {s t : State} {r : Run Byte}
    (hmove : r.All (fun _ u => ReadMove l (s.accept op) u) (ReadFatal l (s.accept op)))
    (hscratch : r.All (fun _ u => ScratchFrame n (s.accept op) u) (ScratchFrame n (s.accept op)))
    (h : finish r = .next t) : OpFrame l n s t := by
  rcases finish_next (hmove.and hscratch) h with ⟨code, u, ⟨hu, hs⟩, ht⟩ | ⟨⟨u, hu, ht⟩, hs⟩
  · exact hu.opFrame ht (ht ▸ hs.trans (.of_same rfl rfl rfl))
  · rcases ht with ht | ht | ht <;> exact hu.opFrame ht hs

/-! ## EXEC -/

theorem TxFatal.hr_eq {s t : State} (h : TxFatal s t) : t.hr = s.hr := by
  obtain ⟨u, hu, rfl | rfl | rfl⟩ := h <;> rw [hu.only] <;> rfl

theorem length_hwBytes (s : State) (a n : Nat) : (s.hwBytes a n).length = n := by
  simp only [State.hwBytes, List.length_map, List.length_range']

/-- Everything EXEC can change, and that HR is written by a completed transaction only (R182). -/
theorem runExec_all (s : State) :
    (runExec s).All (fun code t => ReadMove s.rLen s t ∧ (code = codeOk ∨ t.hr = s.hr)) (TxFatal s) := by
  unfold runExec
  split
  · exact ⟨(TxMove.refl s).readMove _, .inr rfl⟩
  · rename_i hlen
    have htx := (transaction_all (s.hwBytes 0 s.wLen) s.rLen s).and (transaction_scratch _ s.rLen s)
    refine (htx.imp (fun _ _ h => h) fun _ h => h.1).bind fun res u ⟨⟨hmove, _, hres⟩, _, hok⟩ => ?_
    have hstatus : res.1 = codeOk := hok.resolve_left (by rwa [length_hwBytes])
    rcases hres with ⟨rfl, -⟩ | ⟨-, hr, -⟩
    · exact absurd hstatus (by decide)
    · exact ⟨(hmove.readMove _).trans (.writeHr u (by omega)), .inl hstatus⟩

theorem runExec_scratch (s : State) :
    (runExec s).All (fun _ t => ScratchFrame (s.wLen + s.rLen) s t) (ScratchFrame (s.wLen + s.rLen) s) := by
  unfold runExec
  split
  · exact .refl _ s
  · have h := transaction_scratch (s.hwBytes 0 s.wLen) s.rLen s
    rw [length_hwBytes] at h
    exact h.bind fun res u hu => hu.1.trans (writeHr_scratch _ 0 res.2 u)

theorem exec_exec_idle {s : State} (h : s.top = .idle) : exec .exec s = finish (runExec (s.accept .exec)) :=
  issue_idle h .exec fun s => finish (runExec s)

/-- Settles O21, from what a transaction may change and where it writes OUT, IN and HR. -/
theorem execFrame : Obligations.ExecFrame := by
  intro s t hidle h
  rw [exec_exec_idle hidle] at h
  have hall := runExec_all (s.accept .exec)
  have hframe : OpFrame s.rLen (s.wLen + s.rLen) s t :=
    finish_opFrame (hall.imp (fun _ _ h => h.1) fun _ h => h.readFatal ((TxMove.refl _).readMove _))
      (runExec_scratch _) h
  refine ⟨hframe.only, fun herr => ?_, hframe.spaces⟩
  rcases finish_next hall h with ⟨code, u, ⟨-, hok | hhr⟩, rfl⟩ | hfatal
  · exact absurd hok herr
  · exact hhr
  · exact hfatal.hr_eq

/-! ## READ -/

/-- No chunk's frame is longer than that of `min length CHUNK_DATA_MAX` bytes (R191). -/
theorem chunk_length_le (p : Params) (start length done : Nat) :
    (rdBytes p start).length + chunkLen p length done ≤ 1 + p.addrBytes + min length p.chunkDataMax := by
  simp only [rdBytes, flashOffset, List.length_cons, length_offsetBytes, chunkLen]
  omega

theorem readLoop_scratch {n : Nat} (start length fuel done : Nat) (s : State)
    (hn : 1 + s.params.addrBytes + min length s.params.chunkDataMax ≤ n) :
    (readLoop start length fuel done s).All (fun _ t => ScratchFrame n s t) (ScratchFrame n s) := by
  induction fuel generalizing done s with
  | zero => exact .refl n s
  | succ fuel ih =>
    unfold readLoop
    split
    · split
      · trivial
      · have hlen := Nat.le_trans (chunk_length_le s.params (start + done) length done) hn
        have htx := (transaction_all (rdBytes s.params (start + done)) (chunkLen s.params length done) s).and
          (transaction_scratch _ _ s)
        refine (htx.imp (fun _ _ h => h) fun _ h => h.2.mono hlen).bind fun res u ⟨⟨hmove, _⟩, hu, _⟩ => ?_
        split
        · exact hu.mono hlen
        · have e : ScratchFrame n s (u.writeHr done res.2) := (hu.mono hlen).trans (writeHr_scratch n done res.2 u)
          exact (ih _ (u.writeHr done res.2) (by rwa [writeHr_params, hmove.params_eq])).imp
            (fun _ _ h => e.trans h) fun _ h => e.trans h
    · exact .refl n s

theorem exec_read_idle {s : State} (h : s.top = .idle) : exec .read s = finish (runRead (s.accept .read)) :=
  issue_idle h .read fun s => finish (runRead s)

/-- Settles O26, by induction over READ's chunks: each is a transaction no longer than the longest frame. -/
theorem readFrame : Obligations.ReadFrame := by
  intro s t hidle h
  rw [exec_read_idle hidle] at h
  have hframe : OpFrame s.readLen (1 + s.params.addrBytes + min s.readLen s.params.chunkDataMax) s t :=
    finish_opFrame ((readLoop_all _ _ _ 0 (s.accept .read)).imp (fun _ _ h => h.1) fun _ h => h)
      (readLoop_scratch _ _ _ 0 (s.accept .read) (Nat.le_refl _)) h
  exact ⟨hframe.only, hframe.spaces⟩

end Sys2Proof.Machine
end

section
/-!
SUPPORT. The pin primitives without a valid backend, and what a sample answers (40_backend_primitives.md R150 to R154).
-/
namespace Sys2Proof.Machine

/-! ## Without a valid backend -/

theorem setSck_noBackend {s : State} (h : s.backendSel ∉ s.params.validBackends) (l : Bit) :
    setSck l s = .halt (s.raiseFatal codeNoBackend) := by
  simp [setSck, resolve_noBackend h]

theorem getMiso_noBackend {s : State} (h : s.backendSel ∉ s.params.validBackends) :
    getMiso s = .halt (s.raiseFatal codeNoBackend) := by
  simp [getMiso, resolve_noBackend h]

/-! ## The sample -/

/-- A single sample is answered when it is the level data-in presents at that moment (R154; log 4). -/
theorem answered_dataInNow (s : State) :
    answered s.env.world s.env.dataIn s.trace [.miso s.dataInNow] = true := by
  simp [answered, dataInNow_eq]

/-- Settles O14, from what each primitive does with a usable backend and without a valid one. -/
theorem pinPrimitives : Obligations.PinPrimitives := by
  intro s
  refine ⟨fun hready => ?_, fun hsel => ?_⟩
  · exact ⟨setCs_ready hready, setSck_ready hready, setMosi_ready hready,
      s.dataInNow, getMiso_ready hready, answered_dataInNow s⟩
  · exact ⟨setCs_noBackend hsel, setSck_noBackend hsel, setMosi_noBackend hsel, getMiso_noBackend hsel⟩

end Sys2Proof.Machine
end

section
/-!
SUPPORT. Host-issued XBIT and XBYTE with a usable backend (41_bit_byte_engine.md R160 to R165): what each does to the
machine, and what the accumulator holds when data-in presents the levels of a byte (log 4).
-/
namespace Sys2Proof.Machine

/-! ## The accumulator -/

/-- What ACC held before moves up by one place a bit, and is lost on the left (R163). -/
theorem foldl_shiftIn (bs : List Bit) (a : Byte) : bs.foldl shiftIn a = a <<< bs.length ||| bs.foldl shiftIn 0 := by
  induction bs generalizing a with
  | nil => simp
  | cons b bs ih =>
    have hfirst : shiftIn 0 b = b.setWidth 8 := by simp [shiftIn]
    calc (b :: bs).foldl shiftIn a
        = (a <<< 1 ||| b.setWidth 8) <<< bs.length ||| bs.foldl shiftIn 0 := ih (shiftIn a b)
      _ = a <<< (b :: bs).length ||| ((b.setWidth 8) <<< bs.length ||| bs.foldl shiftIn 0) := by
        rw [BitVec.shiftLeft_or_distrib, ← BitVec.shiftLeft_add, BitVec.or_assoc, List.length_cons, Nat.add_comm 1]
      _ = a <<< (b :: bs).length ||| (b :: bs).foldl shiftIn 0 := by
        rw [List.foldl_cons, hfirst, ih (b.setWidth 8)]

/-- The levels of a byte, shifted in, are the byte: nothing of the old ACC is left after eight (R161 (e), R163). -/
theorem foldl_shiftIn_byteLevels (u a : Byte) : (byteLevels u).foldl shiftIn a = u := by
  have hzero : ∀ u : Byte, (byteLevels u).foldl shiftIn 0 = u := by decide
  have hlost : a <<< (byteLevels u).length = 0 := BitVec.shiftLeft_eq_zero (Nat.le_refl 8)
  rw [foldl_shiftIn, hlost, hzero]
  exact BitVec.zero_or

/-- An echo one whole cell late presents the level before the byte, then all bits of the byte but the last (R165). -/
theorem byteLevels_lateEcho (c : Bit) (v : Byte) :
    byteLevels ((c.setWidth 8 <<< 7) ||| (v >>> 1)) = c :: (byteLevels v).dropLast := by
  have htop : bitAt ((c.setWidth 8 <<< 7) ||| (v >>> 1)) 7 = c := by
    ext i hi
    obtain rfl : i = 0 := by omega
    simp [bitAt]
  have hlower : ∀ i < 7, bitAt ((c.setWidth 8 <<< 7) ||| (v >>> 1)) i = bitAt v (i + 1) := by
    intro i hi
    ext j hj
    obtain rfl : j = 0 := by omega
    simp [bitAt, hi, Nat.add_comm]
  simp [byteLevels, htop, hlower]

/-! ## XBIT -/

/-- Settles O15: XBIT is one bit cell between acceptance and the end of the operation. -/
theorem xbitTransfersOneBit : Obligations.XbitTransfersOneBit := by
  intro s hidle hready
  obtain ⟨b, hcell, hans⟩ := xbit_ready (s := s.accept .xbit) hready s.argBit
  refine ⟨b, ?_, hans⟩
  calc exec .xbit s = finish (runXbit (s.accept .xbit)) := issue_idle hidle .xbit fun s => finish (runXbit s)
    _ = _ := by
      rw [runXbit, show (s.accept .xbit).argBit = s.argBit from rfl, hcell]
      rfl

/-- The sample of a cell is the script's next level when there is one (R154). -/
theorem answered_cellEvents_script {w : Nat} {o b b' : Bit} {h : Word} {rest : List Bit} {sofar : List Event}
    (ha : answered w (b' :: rest) sofar (cellEvents o b h) = true) : b = b' := by
  simpa [cellEvents, answered] using ha

/-- XBIT takes the script's next level into ACC and RESULT and leaves the machine ready for the next operation. -/
theorem exec_xbit_script {s : State} (hidle : s.top = .idle) (hready : s.Ready) {b : Bit} {rest : List Bit}
    (hin : s.env.dataIn = b :: rest) :
    ∃ t : State, exec .xbit s = .next t ∧ t.top = .idle ∧ t.Ready ∧ t.env.dataIn = rest
      ∧ t.env.host = s.env.host ∧ t.acc = shiftIn s.acc b ∧ t.result = b.setWidth 8 := by
  obtain ⟨b', hexec, hans⟩ := xbitTransfersOneBit s hidle hready
  rw [hin] at hans
  obtain rfl := answered_cellEvents_script hans
  exact ⟨_, hexec, rfl, hready, congrArg List.tail hin, rfl, rfl, rfl⟩

theorem step_call_xbit {s : State} {rest : List HostAct} (h : s.env.host = .call 0x00000002 :: rest) :
    step s = exec .xbit (s.withHost rest) := by
  have hdecode : decodeCmd 0x00000002 = .ok .xbit := rfl
  simp only [step, h, hdecode]

theorem run_succ_of_step {s t : State} (h : step s = .next t) (k : Nat) :
    Host.Core.run core (k + 1) s = Host.Core.run core k t := by
  have h' : core.step s = .next t := h
  simp only [Host.Core.run, h']

/-- XBITs called in a row, one for each level of the script, shift the levels into ACC; RESULT is the last (R160). -/
theorem run_xbits (bs rest : List Bit) {s : State} (hidle : s.top = .idle) (hready : s.Ready)
    (hin : s.env.dataIn = bs ++ rest) (hhost : s.env.host = List.replicate bs.length (.call 0x00000002)) :
    ∃ t : State, Host.Core.run core bs.length s = .next t ∧ t.acc = bs.foldl shiftIn s.acc
      ∧ t.result = bs.foldl (fun _ b => b.setWidth 8) s.result ∧ t.top = .idle := by
  induction bs generalizing s with
  | nil => exact ⟨s, rfl, rfl, rfl, hidle⟩
  | cons b bs ih =>
    obtain ⟨u, hexec, huidle, huready, huin, huhost, huacc, hures⟩ :=
      exec_xbit_script (s := s.withHost (List.replicate bs.length (.call 0x00000002))) hidle hready hin
    obtain ⟨t, hrun, hacc, hres, htidle⟩ := ih huidle huready huin huhost
    have hstep : step s = .next u := (step_call_xbit hhost).trans hexec
    refine ⟨t, (run_succ_of_step hstep bs.length).trans hrun, ?_, ?_, htidle⟩
    · rw [hacc, huacc]
      rfl
    · rw [hres, hures]
      rfl

/-- Settles O18: eight XBITs shift in the levels of the byte, and nothing of the old ACC is left. -/
theorem eightXbitsMakeAByte : Obligations.EightXbitsMakeAByte := by
  intro s u rest hidle hready hin hhost
  obtain ⟨t, hrun, hacc, hres, htidle⟩ := run_xbits (byteLevels u) rest hidle hready hin hhost
  exact ⟨t, hrun, hacc.trans (foldl_shiftIn_byteLevels u s.acc), hres, htidle⟩

/-! ## XBYTE -/

/-- XBYTE returns in ACC and RESULT the byte whose levels the script presents (R162). -/
theorem exec_xbyte_script {s : State} (hidle : s.top = .idle) (hready : s.Ready) {u : Byte} {rest : List Bit}
    (hin : s.env.dataIn = byteLevels u ++ rest) :
    ∃ t : State, exec .xbyte s = .next t ∧ t.result = u ∧ t.acc = u := by
  obtain ⟨u', hbyte, hans⟩ := xbyte_ready (s := s.accept .xbyte) hready s.ops.arg
  rw [show (s.accept .xbyte).env.dataIn = byteLevels u ++ rest from hin] at hans
  obtain rfl := answered_byteEvents_script _ _ _ _ _ _ _ hans
  have hexec : exec .xbyte s = finish (runXbyte (s.accept .xbyte)) :=
    issue_idle hidle .xbyte fun s => finish (runXbyte s)
  rw [runXbyte, show (s.accept .xbyte).ops = s.ops from rfl, hbyte] at hexec
  exact ⟨_, hexec, rfl, rfl⟩

/-- Settles O17: in both loopbacks data-in presents the levels of a byte, which XBYTE returns. -/
theorem loopbackLaw : Obligations.LoopbackLaw := by
  intro s rest hidle hready
  refine ⟨exec_xbyte_script hidle hready, fun hlate => ?_⟩
  rw [← byteLevels_lateEcho] at hlate
  obtain ⟨t, hexec, hres, -⟩ := exec_xbyte_script hidle hready hlate
  exact ⟨t, hexec, hres⟩

end Sys2Proof.Machine
end

section
/-!
SUPPORT. EXEC's length check (42_transaction_controller.md R171, R241), and what its response is when data-in presents
the levels of known bytes (R176, R178; log 4).
-/
namespace Sys2Proof.Machine

/-! ## The length check -/

theorem runExec_tooLong {s : State} (h : s.params.ceiling < s.wLen + s.rLen) :
    runExec s = .ok codeInvalidLength s := if_pos h

theorem runExec_withinCeiling {s : State} (h : s.wLen + s.rLen ≤ s.params.ceiling) :
    runExec s = (transaction (s.hwBytes 0 s.wLen) s.rLen s).bind fun res u => .ok res.1 (u.writeHr 0 res.2) :=
  if_neg (Nat.not_lt.mpr h)

/-- Within the ceiling EXEC ends with status 0 or fatally (R171, R182). -/
theorem runExec_status {s : State} (h : s.wLen + s.rLen ≤ s.params.ceiling) :
    (runExec s).All (fun code _ => code = codeOk) (TxFatal s) := by
  rw [runExec_withinCeiling h]
  have htx := (transaction_all (s.hwBytes 0 s.wLen) s.rLen s).and (transaction_scratch _ s.rLen s)
  refine (htx.imp (fun _ _ h => h) fun _ h => h.1).bind fun res u ⟨_, _, hstatus⟩ => ?_
  rw [length_hwBytes] at hstatus
  exact hstatus.resolve_left (Nat.not_lt.mpr h)

/-- InvalidLength is no fatal code (R240, R250). -/
theorem TxFatal.err_ne_invalidLength {s t : State} (h : TxFatal s t) : t.err ≠ codeInvalidLength := by
  obtain ⟨u, -, rfl | rfl | rfl⟩ := h <;> rw [raiseFatal_err] <;> decide

/-- Settles O19: the length check comes first, and past it neither a status nor a fatal code is InvalidLength. -/
theorem invalidLengthRule : Obligations.InvalidLengthRule := by
  intro s
  refine ⟨fun wbytes r hlong => transaction_invalidLength wbytes r hlong, fun wbytes rbytes r t htx => ?_,
    fun hidle hlong => ?_, fun t hidle hexec herr => ?_⟩
  · have hstatus := transaction_scratch wbytes r s
    rw [htx] at hstatus
    exact hstatus.2.resolve_right (show codeInvalidLength ≠ codeOk by decide)
  · rw [exec_exec_idle hidle, runExec_tooLong (s := s.accept .exec) hlong]
    rfl
  · refine Nat.not_le.mp fun hshort => ?_
    rw [exec_exec_idle hidle] at hexec
    rcases finish_next (runExec_status (s := s.accept .exec) hshort) hexec with
      ⟨code, u, hok, rfl⟩ | hfatal
    · rw [endOp_err, hok] at herr
      exact absurd herr (by decide)
    · exact hfatal.err_ne_invalidLength herr

/-! ## EXEC with a usable backend -/

/-- EXEC within the limits completes: `us` is sampled in its frame, and the part of it in the read field is written to
HR (R176, R182). -/
theorem exec_exec_ready {s : State} (hidle : s.top = .idle) (hready : s.Ready)
    (hlen : s.wLen + s.rLen ≤ s.params.ceiling)
    (hbuf : max (s.wLen + s.rLen) s.params.floor ≤ max s.cap s.params.bufMax) :
    ∃ (us : List Byte) (ob ib : Memory) (sp : Span), us.length = s.wLen + s.rLen
      ∧ exec .exec s = .next
          (((txAfter (s.accept .exec) (s.hwBytes 0 s.wLen) s.rLen us ob ib sp).writeHr 0
            (us.drop s.wLen)).endOp codeOk)
      ∧ answered s.env.world s.env.dataIn s.trace
          (frameEvents s.params s.halfPeriod (frameOut s.params (s.hwBytes 0 s.wLen) s.rLen) us) = true := by
  have hw : (s.hwBytes 0 s.wLen).length = s.wLen := length_hwBytes s 0 s.wLen
  obtain ⟨us, ob, ib, sp, hus, htx, -, -, hans⟩ :=
    transaction_ready (s := s.accept .exec) (s.hwBytes 0 s.wLen) s.rLen hready (by rwa [hw]) (by rwa [hw])
  rw [hw] at hus htx
  refine ⟨us, ob, ib, sp, hus, ?_, hans⟩
  have hrun : runExec (s.accept .exec)
      = (transaction (s.hwBytes 0 s.wLen) s.rLen (s.accept .exec)).bind
          fun res u => .ok res.1 (u.writeHr 0 res.2) :=
    runExec_withinCeiling (s := s.accept .exec) hlen
  rw [exec_exec_idle hidle, hrun, htx]
  rfl

/-- HR inside what has just been written (R94). -/
theorem hrAt_writeHr_in (s : State) (bs : List Byte) {k : Nat} (hk : k < bs.length) :
    (s.writeHr 0 bs).hrAt k = bs[k] := by
  have hread : memRead (memWriteRange s.hr 0 bs) k = some bs[k] := by
    rw [memRead_memWriteRange_in s.hr 0 bs k (Nat.zero_le k) (by omega), Nat.sub_zero, List.getElem?_eq_getElem hk]
  simp only [State.hrAt, writeHr_hr, hread, Option.getD_some]

/-! ## Scripted data-in -/

/-- The samples of a sequence of bytes are the script's levels when it presents those of as many bytes (R98, R154). -/
theorem answered_bytesEvents_script (w : Nat) (h : Word) (rest : List Bit) (vs us us' : List Byte)
    (sofar : List Event) (hus : us.length = vs.length) (hus' : us'.length = vs.length)
    (ha : answered w (us'.flatMap byteLevels ++ rest) sofar (bytesEvents h vs us) = true) : us = us' := by
  induction vs generalizing us us' sofar with
  | nil => rw [List.eq_nil_of_length_eq_zero hus, List.eq_nil_of_length_eq_zero hus']
  | cons v vs ih =>
    match us, us', hus, hus' with
    | u :: us, u' :: us', hus, hus' =>
      rw [List.flatMap_cons, List.append_assoc, bytesEvents, answered_append, sampleCount_byteEvents,
        Bool.and_eq_true] at ha
      obtain ⟨hfirst, hothers⟩ := ha
      rw [answered_byteEvents_script w u u' v h _ sofar hfirst,
        ih us us' _ (Nat.succ.inj hus) (Nat.succ.inj hus') hothers]

/-- The same for a frame. -/
theorem answered_frameEvents_script (p : Params) (w : Nat) (h : Word) (rest : List Bit) (outs us us' : List Byte)
    (sofar : List Event) (hus : us.length = outs.length) (hus' : us'.length = outs.length)
    (ha : answered w (us'.flatMap byteLevels ++ rest) sofar (frameEvents p h outs us) = true) : us = us' := by
  rw [frameEvents, List.cons_append, answered, answered_append, Bool.and_eq_true] at ha
  exact answered_bytesEvents_script w h rest outs us us' _ hus hus' ha.1

/-- The byte whose eight levels are all `b`. -/
def heldByte (b : Bit) : Byte := if b = 1 then 0xFF else 0x00

theorem byteLevels_heldByte (b : Bit) : byteLevels (heldByte b) = List.replicate 8 b := by
  revert b
  decide

/-- A level held over `n` bytes is the levels of `n` such bytes. -/
theorem flatMap_byteLevels_heldByte (n : Nat) (b : Bit) :
    (List.replicate n (heldByte b)).flatMap byteLevels = List.replicate (8 * n) b := by
  rw [List.flatMap_replicate, byteLevels_heldByte, List.flatten_replicate_replicate, Nat.mul_comm]

/-- Settles O24: the frame samples the byte of the held level at every position, and the response is what was sampled
in the read field. -/
theorem responseIsSampled : Obligations.ResponseIsSampled := by
  intro s b rest hidle hready n hlen hbuf hin
  obtain ⟨us, ob, ib, sp, hus, hexec, hans⟩ := exec_exec_ready hidle hready hlen hbuf
  have houts : (frameOut s.params (s.hwBytes 0 s.wLen) s.rLen).length = n := by
    rw [length_frameOut, length_hwBytes]
    rfl
  have hsampled : us = List.replicate n (heldByte b) := by
    rw [hin, ← flatMap_byteLevels_heldByte] at hans
    exact answered_frameEvents_script _ _ _ rest _ us _ _ (hus.trans houts.symm)
      (List.length_replicate.trans houts.symm) hans
  refine ⟨_, hexec, fun k hk => ?_⟩
  have hk' : k < (us.drop s.wLen).length := by
    rw [List.length_drop, hus, Nat.add_sub_cancel_left]
    exact hk
  calc _ = (us.drop s.wLen)[k] := hrAt_writeHr_in _ _ hk'
    _ = heldByte b := by simp only [hsampled, List.drop_replicate, List.getElem_replicate]

end Sys2Proof.Machine
end

section
/-!
SUPPORT. The Chunked Reader with a usable backend (43_chunked_reader.md R190 to R194): its loop chunk by chunk, what
each chunk samples and where it leaves it in HR; and the jobs of READ and PROG that have nothing to do.
-/
namespace Sys2Proof.Machine

/-! ## Empty jobs -/

theorem readLoop_done {start length done : Nat} (h : length ≤ done) (fuel : Nat) (s : State) :
    readLoop start length fuel done s = .ok codeOk s := by
  cases fuel with
  | zero => rfl
  | succ fuel => exact if_neg (Nat.not_lt.mpr h)

theorem pageLoop_done {total : Nat} {s : State} (h : total ≤ s.off) (fuel : Nat) :
    pageLoop total fuel s = .ok codeOk s := by
  cases fuel with
  | zero => rfl
  | succ fuel => exact if_neg (Nat.not_lt.mpr h)

theorem exec_prog_idle {s : State} (h : s.top = .idle) (hdata : s.progTotal ≤ hostSpaceSize) :
    exec .prog s = finish (runProg (s.accept .prog)) := by
  have hfits : ¬ hostSpaceSize < (s.accept .prog).progTotal := Nat.not_lt.mpr hdata
  rw [exec, execProg, issue_idle h, if_neg hfits]

/-- Settles O27: neither loop is entered, so the operation ends as it was accepted. -/
theorem emptyJobsSucceed : Obligations.EmptyJobsSucceed := by
  intro s hidle
  refine ⟨fun hlength => ?_, fun hunits => ?_⟩
  · have hnone : (s.accept .read).readLen ≤ 0 := by simp [State.readLen, State.accept, hlength]
    rw [exec_read_idle hidle, runRead, readLoop_done hnone]
    rfl
  · have hnone : s.progTotal ≤ 0 := by simp [State.progTotal, hunits]
    have hpages : (s.accept .prog).progTotal ≤ (progEntry (s.accept .prog)).off := hnone
    rw [exec_prog_idle hidle (Nat.le_trans hnone (Nat.zero_le _)), runProg, pageLoop_done hpages]
    rfl

/-! ## Chunks -/

theorem length_rdBytes (p : Params) (a : Nat) : (rdBytes p a).length = 1 + p.addrBytes := by
  simp only [rdBytes, flashOffset, List.length_cons, length_offsetBytes]
  omega

/-- READ has a chunk `j` exactly when `j` full chunks leave something to read (R191). -/
theorem lt_chunkCount_iff {p : Params} (hpos : 0 < p.chunkDataMax) (length j : Nat) :
    j < chunkCount p length ↔ j * p.chunkDataMax < length := by
  rw [chunkCount, ← Nat.succ_le_iff, Nat.le_div_iff_mul_le hpos, Nat.succ_mul]
  omega

/-- READ has no more chunks than bytes, so its loop never runs out of fuel. -/
theorem chunkCount_le_length {p : Params} (hpos : 0 < p.chunkDataMax) (length : Nat) :
    chunkCount p length ≤ length := by
  refine Nat.not_lt.mp fun h => ?_
  have hlt := (lt_chunkCount_iff hpos length length).mp h
  exact Nat.not_lt.mpr (Nat.le_mul_of_pos_right length hpos) hlt

/-- In a roomy build a chunk reads at least one byte, and the longest chunk frame passes the length check and fits the
buffers. -/
theorem State.Roomy.chunk {s : State} (h : s.Roomy) :
    0 < s.params.chunkDataMax ∧ 1 + s.params.addrBytes + s.params.chunkDataMax ≤ s.params.ceiling
      ∧ max (1 + s.params.addrBytes + s.params.chunkDataMax) s.params.floor ≤ s.params.bufMax := by
  obtain ⟨hwf, -, -, hbuf⟩ := h
  simp only [Params.wf, Bool.and_eq_true, decide_eq_true_eq] at hwf
  omega

/-- One turn of READ's loop with a usable backend: the chunk's frame, and what it sampled in its read field goes to HR
from `done` on (R190). -/
theorem readLoop_chunk {start length done : Nat} (fuel : Nat) {s : State} (hready : s.Ready) (hroomy : s.Roomy)
    (hdone : done < length) :
    ∃ (us : List Byte) (ob ib : Memory) (sp : Span),
      us.length = 1 + s.params.addrBytes + chunkLen s.params length done
      ∧ readLoop start length (fuel + 1) done s
        = readLoop start length fuel (done + chunkLen s.params length done)
            ((txAfter s (rdBytes s.params (start + done)) (chunkLen s.params length done) us ob ib sp).writeHr done
              (us.drop (1 + s.params.addrBytes)))
      ∧ answered s.env.world s.env.dataIn s.trace
          (frameEvents s.params s.halfPeriod
            (frameOut s.params (rdBytes s.params (start + done)) (chunkLen s.params length done)) us) = true := by
  obtain ⟨hpos, hceiling, hbuf⟩ := hroomy.chunk
  have hw := length_rdBytes s.params (start + done)
  have hle : chunkLen s.params length done ≤ s.params.chunkDataMax := Nat.min_le_right _ _
  have hsome : chunkLen s.params length done ≠ 0 := by
    simp only [chunkLen]
    omega
  obtain ⟨us, ob, ib, sp, hus, htx, -, -, hans⟩ :=
    transaction_ready (rdBytes s.params (start + done)) (chunkLen s.params length done) hready
      (by omega) (by omega)
  rw [hw] at hus htx
  refine ⟨us, ob, ib, sp, hus, ?_, hans⟩
  rw [readLoop, if_pos hdone, if_neg hsome, htx]
  rfl

/-! ## The loop -/

/-- The frames of READ's `n` chunks from chunk `j` on, `ins i` sampled in chunk `i`. -/
def chunksEvents (p : Params) (h : Word) (start length j n : Nat) (ins : Nat → List Byte) : List Event :=
  (List.range' j n).flatMap fun i => chunkEvents p h start length i (ins i)

/-- What `n` chunks of READ from chunk `j` on do between `s` and `t`, where HR began with `got` in `s`: `ins i` is
sampled in chunk `i`, and the read field of it stands in HR from `i * CHUNK_DATA_MAX` on (R190, R191, R193). -/
structure ReadsChunks (start length j n : Nat) (got : List Byte) (ins : Nat → List Byte) (s t : State) : Prop where
  ins_length : ∀ i, j ≤ i → i < j + n →
    (ins i).length = 1 + s.params.addrBytes + chunkLen s.params length (i * s.params.chunkDataMax)
  trace_eq : t.trace = (chunksEvents s.params s.halfPeriod start length j n ins).reverse ++ s.trace
  answered_ins : answered s.env.world s.env.dataIn s.trace
    (chunksEvents s.params s.halfPeriod start length j n ins) = true
  hr_starts : ∃ got' : List Byte, memStartsWith t.hr got' ∧ got <+: got'
    ∧ ∀ i, j ≤ i → i < j + n →
      (ins i).drop (1 + s.params.addrBytes) <+: got'.drop (i * s.params.chunkDataMax)

theorem ReadsChunks.none {s : State} {got : List Byte} (hhr : memStartsWith s.hr got) (start length j : Nat)
    (ins : Nat → List Byte) : ReadsChunks start length j 0 got ins s s where
  ins_length := fun i hj hi => by omega
  trace_eq := rfl
  answered_ins := rfl
  hr_starts := ⟨got, hhr, ⟨[], List.append_nil got⟩, fun i hj hi => by omega⟩

/-- The sampled bytes `ins`, with `us` sampled in chunk `j`. -/
def withChunk (ins : Nat → List Byte) (j : Nat) (us : List Byte) : Nat → List Byte :=
  fun i => if i = j then us else ins i

theorem withChunk_same (ins : Nat → List Byte) (j : Nat) (us : List Byte) : withChunk ins j us j = us := if_pos rfl

theorem withChunk_after (ins : Nat → List Byte) {i j : Nat} (us : List Byte) (h : j < i) :
    withChunk ins j us i = ins i := if_neg (Nat.ne_of_gt h)

/-- The frames of the chunks from `j` on, `us` sampled in chunk `j`. -/
theorem chunksEvents_cons (p : Params) (h : Word) (start length j n : Nat) (us : List Byte) (ins : Nat → List Byte) :
    chunksEvents p h start length j (n + 1) (withChunk ins j us)
      = chunkEvents p h start length j us ++ chunksEvents p h start length (j + 1) n ins := by
  have hothers : (List.range' (j + 1) n).map (fun i => chunkEvents p h start length i (withChunk ins j us i))
      = (List.range' (j + 1) n).map (fun i => chunkEvents p h start length i (ins i)) :=
    List.map_congr_left fun i hi => by rw [withChunk_after ins us (List.mem_range'_1.mp hi).1]
  rw [chunksEvents, chunksEvents, List.range'_succ, List.flatMap_cons, withChunk_same, List.flatMap_def, hothers,
    List.flatMap_def]

/-- What holds of chunk `j` and of the chunks after it, of the `n + 1` chunks from `j` on. -/
theorem forall_chunk_cons {P : Nat → List Byte → Prop} {j n : Nat} {us : List Byte} {ins : Nat → List Byte}
    (hfirst : P j us) (hothers : ∀ i, j + 1 ≤ i → i < j + 1 + n → P i (ins i)) (i : Nat) (hj : j ≤ i)
    (hi : i < j + (n + 1)) : P i (withChunk ins j us i) := by
  rcases Nat.eq_or_lt_of_le hj with rfl | hlt
  · rwa [withChunk_same]
  · rw [withChunk_after ins us hlt]
    exact hothers i hlt (by omega)

/-- Chunk `j`, then the others. -/
theorem ReadsChunks.cons {start length j n : Nat} {got us : List Byte} {ins : Nat → List Byte} {ob ib : Memory}
    {sp : Span} {s t : State} (hgot : got.length = j * s.params.chunkDataMax)
    (hus : us.length = 1 + s.params.addrBytes + chunkLen s.params length (j * s.params.chunkDataMax))
    (hans : answered s.env.world s.env.dataIn s.trace (chunkEvents s.params s.halfPeriod start length j us) = true)
    (hothers : ReadsChunks start length (j + 1) n (got ++ us.drop (1 + s.params.addrBytes)) ins
      ((txAfter s (rdBytes s.params (start + got.length)) (chunkLen s.params length got.length) us ob ib sp).writeHr
        got.length (us.drop (1 + s.params.addrBytes))) t) :
    ReadsChunks start length j (n + 1) got (withChunk ins j us) s t := by
  obtain ⟨hlen, htrace, hans', got', hhr, hpre, hins⟩ := hothers
  rw [hgot] at htrace hans'
  refine ⟨forall_chunk_cons (P := fun i ins => ins.length = _ + chunkLen _ length (i * _)) hus hlen, ?_, ?_,
    got', hhr, List.IsPrefix.trans ⟨_, rfl⟩ hpre,
    forall_chunk_cons (P := fun i ins => ins.drop _ <+: got'.drop (i * _)) ?_ hins⟩
  · rw [chunksEvents_cons, List.reverse_append, List.append_assoc]
    exact htrace
  · have hsamples : sampleCount (chunkEvents s.params s.halfPeriod start length j us)
        = 8 * (frameOut s.params (rdBytes s.params (start + j * s.params.chunkDataMax))
            (chunkLen s.params length (j * s.params.chunkDataMax))).length :=
      sampleCount_frameEvents _ _ _ _ (by rw [hus, length_frameOut, length_rdBytes])
    rw [chunksEvents_cons, answered_append, hans, hsamples]
    exact hans'
  · obtain ⟨rest, rfl⟩ := hpre
    rw [List.append_assoc, List.drop_left' hgot]
    exact ⟨_, rfl⟩

/-- READ's loop from chunk `j` on with a usable backend, by induction over the `n` chunks that are left: it completes,
and does what those chunks do. -/
theorem readLoop_ready (start length n : Nat) {j fuel : Nat} {got : List Byte} {s : State} (hready : s.Ready)
    (hroomy : s.Roomy) (hcount : chunkCount s.params length = j + n) (hfuel : n ≤ fuel)
    (hgot : got.length = min (j * s.params.chunkDataMax) length) (hhr : memStartsWith s.hr got) :
    ∃ (ins : Nat → List Byte) (t : State), readLoop start length fuel got.length s = .ok codeOk t
      ∧ ReadsChunks start length j n got ins s t := by
  have hpos := hroomy.chunk.1
  induction n generalizing j fuel got s with
  | zero =>
    have hlast : ¬ j * s.params.chunkDataMax < length := by
      rw [← lt_chunkCount_iff hpos]
      omega
    exact ⟨fun _ => [], s, readLoop_done (by omega) fuel s, .none hhr start length j _⟩
  | succ n ih =>
    obtain ⟨fuel, rfl⟩ := Nat.exists_eq_add_of_le' (Nat.le_trans (Nat.le_add_left 1 n) hfuel)
    have hmore : j * s.params.chunkDataMax < length := by
      rw [← lt_chunkCount_iff hpos]
      omega
    have hdone : got.length = j * s.params.chunkDataMax := by omega
    have hinside : got.length < length := by rwa [hdone]
    obtain ⟨us, ob, ib, sp, hus, hturn, hans⟩ :=
      readLoop_chunk (start := start) fuel hready hroomy hinside
    have hturned : (got ++ us.drop (1 + s.params.addrBytes)).length
        = got.length + chunkLen s.params length got.length := by
      rw [List.length_append, List.length_drop, hus, Nat.add_sub_cancel_left]
    have hnext : (got ++ us.drop (1 + s.params.addrBytes)).length = min ((j + 1) * s.params.chunkDataMax) length := by
      rw [hturned, chunkLen, Nat.succ_mul]
      omega
    obtain ⟨ins, t, hloop, hothers⟩ :=
      ih (j := j + 1) (fuel := fuel)
        (s := (txAfter s (rdBytes s.params (start + got.length)) (chunkLen s.params length got.length) us ob ib
          sp).writeHr got.length (us.drop (1 + s.params.addrBytes)))
        hready hroomy (hcount.trans (Nat.succ_add_eq_add_succ j n).symm) (Nat.le_of_succ_le_succ hfuel) hnext
        (memStartsWith_write hhr _) hpos
    rw [hturned, ← hturn] at hloop
    rw [hdone] at hus hans
    exact ⟨withChunk ins j us, t, hloop, .cons hdone hus hans hothers⟩

/-! ## READ -/

/-- HR where known bytes stand in it. -/
theorem hrAt_of_startsWith {t : State} {got bs : List Byte} {a k : Nat} (h : memStartsWith t.hr got)
    (hbs : bs <+: got.drop a) (hk : k < bs.length) : t.hrAt (a + k) = bs[k] := by
  have hlen : a + k < got.length := by
    have := hbs.length_le
    rw [List.length_drop] at this
    omega
  rw [State.hrAt, memStartsWith_read h hlen, List.getElem?_eq_getElem hlen, Option.getD_some, hbs.getElem hk,
    List.getElem_drop]

/-- Settles O25: READ's loop from its first chunk on, with nothing in HR yet. -/
theorem readCompletes : Obligations.ReadCompletes := by
  intro s hidle hready hroomy p start length
  have hcount : chunkCount p length = 0 + chunkCount p length := (Nat.zero_add _).symm
  obtain ⟨ins, t, hloop, hlen, htrace, hans, got, hhr, -, hins⟩ :=
    readLoop_ready start length (chunkCount p length) (s := s.accept .read) hready hroomy hcount
      (chunkCount_le_length hroomy.chunk.1 length) (by simp) (memStartsWith_nil s.hr)
  simp only [chunksEvents, ← List.range_eq_range'] at htrace hans
  refine ⟨ins, t.endOp codeOk, ?_, rfl, rfl, fun j hj => hlen j (Nat.zero_le j) (by omega), ?_, hans,
    fun j k hj hk => ?_⟩
  · rw [exec_read_idle hidle]
    exact congrArg finish hloop
  · simp only [State.events, endOp_trace, htrace, List.reverse_append, List.reverse_reverse]
    rfl
  · have hfield : k < ((ins j).drop (1 + p.addrBytes)).length := by
      rw [List.length_drop]
      omega
    calc _ = ((ins j).drop (1 + p.addrBytes))[k] :=
          hrAt_of_startsWith (t := t.endOp codeOk) hhr (hins j (Nat.zero_le j) (by omega)) hfield
      _ = (ins j)[1 + p.addrBytes + k] := List.getElem_drop

end Sys2Proof.Machine
end

section
/-!
SUPPORT. The Page Programmer's transition table (44_page_programmer.md R210): a step while PROG runs is a phase of its
transaction, or, between two transactions, the row of its state; and the one case in which PROG is refused (U8).
-/
namespace Sys2Proof.Machine

theorem exec_prog_tooLong {s : State} (h : s.top = .idle) (hdata : hostSpaceSize < s.progTotal) :
    exec .prog s = .refused .dataShorterThanTotal := by
  have hdata' : hostSpaceSize < (s.accept .prog).progTotal := hdata
  rw [exec, execProg, issue_idle h, if_pos hdata']

/-- Settles O34: TOTAL exceeds the bytes HW has. -/
theorem progNeedsItsData : Obligations.ProgNeedsItsData := fun _ hidle hdata => exec_prog_tooLong hidle hdata

/-! ## Steps while PROG runs -/

theorem step_noHost {s : State} (h : s.env.host = []) : step s = tick s := by
  simp only [step, h]

theorem tick_prog_txTick {s t : State} (htop : s.top = .run .prog) (hjob : s.tx.job ≠ .none)
    (h : txTick s = .ok () t) : tick s = .next t := by
  simp only [tick, htop, opTick, if_neg hjob, h]

theorem tick_prog_goesOn {s t : State} (htop : s.top = .run .prog) (hjob : s.tx.job = .none)
    (h : ppTick s = .ok () t) : tick s = .next t := by
  simp only [tick, htop, opTick, if_pos hjob, h]

theorem tick_prog_ends {s t : State} (htop : s.top = .run .prog) (hjob : s.tx.job = .none)
    (h : ppTick s = .halt t) : tick s = .next t := by
  simp only [tick, htop, opTick, if_pos hjob, h]

theorem dropPageCall_of_none {s : State} (h : s.env.pageCalls = []) : s.dropPageCall = s := by
  rw [State.dropPageCall, h, List.tail_nil, ← h]

theorem dropStatusCall_of_none {s : State} (h : s.env.statusCalls = []) : s.dropStatusCall = s := by
  rw [State.dropStatusCall, h, List.tail_nil, ← h]

theorem statusCall_of_none {s : State} (h : s.env.statusCalls = []) : s.statusCall = .default := by
  rw [State.statusCall, h, List.headD_nil]

/-! ## The rows of R210, one lemma per state of the Page Programmer -/

theorem wipSet_eq_false_iff {p : Params} {sr : Byte} : wipSet p sr = false ↔ sr &&& p.wipMask = 0 := by
  simp [wipSet]

theorem pollsOut_of_le {p : Params} {l npoll : Nat} (hl : p.pollLimit = some l) (h : l ≤ npoll) :
    pollsOut p npoll = true := by
  simp [pollsOut, hl, h]

theorem pollsOut_eq_false {p : Params} {npoll : Nat} (h : ∀ l, p.pollLimit = some l → npoll < l) :
    pollsOut p npoll = false := by
  unfold pollsOut
  split
  · rfl
  · rename_i l hl
    exact decide_eq_false (Nat.not_le.mpr (h l hl))

theorem ppTick_next {s : State} (h : s.pp.pps = .next) (hoff : s.off < s.pp.total) (hpage : 1 ≤ s.params.page) :
    ppTick s = .ok () ({ s with pp.plen := min s.params.page (s.pp.total - s.off) }.atPps .program) := by
  have hsome : min s.params.page (s.pp.total - s.off) ≠ 0 := by omega
  simp only [ppTick, h, if_pos hoff, if_neg hsome]

theorem ppTick_next_done {s : State} (h : s.pp.pps = .next) (hoff : s.pp.total ≤ s.off) :
    ppTick s = .ok () (s.atPps .ok) := by
  simp only [ppTick, h, if_neg (Nat.not_lt.mpr hoff)]

/-- A replaced ProgramPage that reports without a transaction has returned at once. -/
theorem ppTick_program_custom {s : State} (h : s.pp.pps = .program) {r : Word} {more : List PrimCall}
    (hcall : s.env.pageCalls = .custom [] r :: more) :
    ppTick s = .ok () (programReturned r { s with pp.todo := [], pp.result := 0, env.pageCalls := more }) := by
  simp only [ppTick, h, State.pageCall, State.dropPageCall, hcall, List.headD_cons, List.tail_cons, substNext,
    List.isEmpty_nil, if_true, reduceCtorEq, if_false]

theorem ppTick_program_default {s : State} (h : s.pp.pps = .program) (hcall : s.env.pageCalls = []) :
    ppTick s = .ok () (s.startTx (if s.params.progWren then .wren else .pp)) := by
  simp only [ppTick, h, State.pageCall, hcall, List.headD_nil, dropPageCall_of_none hcall]

/-- A replaced ReadStatus that reports without a transaction has returned at once. -/
theorem ppTick_poll_custom {s : State} (h : s.pp.pps = .poll) {r : Word} {more : List PrimCall}
    (hcall : s.env.statusCalls = .custom [] r :: more) :
    ppTick s = .ok ()
      (statusReturned (r.setWidth 8) { s with pp.todo := [], pp.result := 0, env.statusCalls := more }) := by
  simp only [ppTick, h, State.statusCall, State.dropStatusCall, hcall, List.headD_cons, List.tail_cons, substNext,
    List.isEmpty_nil, if_true]

theorem ppTick_poll_default {s : State} (h : s.pp.pps = .poll) (hcall : s.env.statusCalls = []) :
    ppTick s = .ok () (s.startTx .rdsr) := by
  simp only [ppTick, h, statusCall_of_none hcall, dropStatusCall_of_none hcall]

theorem ppTick_test_ready {s : State} (h : s.pp.pps = .test) (hsr : wipSet s.params s.sr = false) :
    ppTick s = .ok () (s.atPps .advance) := by
  simp only [ppTick, h, if_pos hsr]

theorem ppTick_test_timeout {s : State} (h : s.pp.pps = .test) (hsr : wipSet s.params s.sr ≠ false)
    (hout : pollsOut s.params s.pp.npoll = true) : ppTick s = .ok () (s.atPps .timeout) := by
  simp only [ppTick, h, if_neg hsr, if_pos hout]

theorem ppTick_test_again {s : State} (h : s.pp.pps = .test) (hsr : wipSet s.params s.sr ≠ false)
    (hout : pollsOut s.params s.pp.npoll = false) : ppTick s = .ok () (s.atPps .poll) := by
  simp only [ppTick, h, if_neg hsr, hout, Bool.false_eq_true, if_false]

theorem ppTick_advance {s : State} (h : s.pp.pps = .advance) :
    ppTick s = .ok () ((s.setOff (s.off + s.params.page)).atPps .next) := by
  simp only [ppTick, h]

theorem ppTick_ok {s : State} (h : s.pp.pps = .ok) : ppTick s = .halt (s.endOp codeOk) := by
  simp only [ppTick, h]

theorem ppTick_fail {s : State} (h : s.pp.pps = .fail) : ppTick s = .halt (s.endOp codeProgramFailure) := by
  simp only [ppTick, h]

theorem ppTick_timeout {s : State} (h : s.pp.pps = .timeout) : ppTick s = .halt (s.endOp codeTimeout) := by
  simp only [ppTick, h]

theorem programReturned_ok (s : State) : programReturned 0 s = { s with pp.npoll := 0 }.atPps .poll := if_pos rfl

theorem programReturned_fail {r : Word} (h : r ≠ 0) (s : State) :
    programReturned r s = { s with pres := r }.atPps .fail := if_neg h

theorem txTick_pp_done {s : State} (hjob : s.tx.job = .pp) (htxs : s.tx.txs = .done) :
    txTick s = .ok () ({ s with pp.npoll := 0 }.atPps .poll) := by
  simp only [txTick, htxs, txDone, hjob, programReturned_ok]

theorem txTick_rdsr_done {s : State} (hjob : s.tx.job = .rdsr) (htxs : s.tx.txs = .done) :
    txTick s = .ok () (statusReturned s.sr s) := by
  simp only [txTick, htxs, txDone, hjob]

/-- Settles O39, row by row. -/
theorem pageProgrammerTable : Obligations.PageProgrammerTable := by
  intro s hhost htop
  rw [step_noHost hhost]
  refine ⟨fun hjob => ?_, fun hjob htxs => ?_, fun hjob htxs => ?_⟩
  · have goes {t : State} (h : ppTick s = .ok () t) : tick s = .next t := tick_prog_goesOn htop hjob h
    have ends {t : State} (h : ppTick s = .halt t) : tick s = .next t := tick_prog_ends htop hjob h
    refine ⟨fun h hoff hpage => goes (ppTick_next h hoff hpage), fun h hoff => goes (ppTick_next_done h hoff),
      fun h r more hcall => ⟨?_, fun hr => ?_⟩, fun h hcall => goes (ppTick_program_default h hcall),
      fun h r more hcall => goes (ppTick_poll_custom h hcall), fun h hcall => goes (ppTick_poll_default h hcall),
      fun h hsr => goes (ppTick_test_ready h (wipSet_eq_false_iff.mpr hsr)), fun h hsr l hl hle => ?_,
      fun h hsr hlt => ?_, fun h => goes (ppTick_advance h), fun h => ends (ppTick_ok h),
      fun h => ends (ppTick_fail h), fun h => ends (ppTick_timeout h)⟩
    · rintro rfl
      rw [goes (ppTick_program_custom h hcall), programReturned_ok]
      rfl
    · rw [goes (ppTick_program_custom h hcall), programReturned_fail hr]
      rfl
    · exact goes (ppTick_test_timeout h (mt wipSet_eq_false_iff.mp hsr) (pollsOut_of_le hl hle))
    · exact goes (ppTick_test_again h (mt wipSet_eq_false_iff.mp hsr) (pollsOut_eq_false hlt))
  · exact tick_prog_txTick htop (by simp [hjob]) (txTick_pp_done hjob htxs)
  · exact tick_prog_txTick htop (by simp [hjob]) (txTick_rdsr_done hjob htxs)

end Sys2Proof.Machine
end

section
/-!
SUPPORT. What PROG leaves unchanged, however it ends (44_page_programmer.md R200; 20_memory.md R91, R92): every field it
does not write, and, with the default primitives, OUT and IN beyond the longest frame where the buffers do not grow.
-/
namespace Sys2Proof.Machine

/-! ## OUT and IN beyond the longest frame -/

/-- From `s`, with the default primitives, to `t`: the build and the scripts of calls are as they were, and so are OUT
and IN from `n` on. -/
structure DefaultScratch (n : Nat) (s t : State) : Prop where
  params_eq : t.params = s.params
  pageCalls_eq : t.env.pageCalls = s.env.pageCalls
  statusCalls_eq : t.env.statusCalls = s.env.statusCalls
  scratch : ScratchFrame n s t

theorem DefaultScratch.trans {n : Nat} {s t u : State} (h : DefaultScratch n s t) (h' : DefaultScratch n t u) :
    DefaultScratch n s u :=
  ⟨h'.params_eq.trans h.params_eq, h'.pageCalls_eq.trans h.pageCalls_eq,
    h'.statusCalls_eq.trans h.statusCalls_eq, h.scratch.trans h'.scratch⟩

/-- A change of the results of PROG and their record alone. -/
theorem DefaultScratch.of_results {n : Nat} {s t : State}
    (h : t = { s with pres := t.pres, sr := t.sr, off := t.off, span := t.span }) : DefaultScratch n s t :=
  ⟨by rw [h], by rw [h], by rw [h], .of_same (by rw [h]) (by rw [h]) (by rw [h])⟩

theorem DefaultScratch.refl (n : Nat) (s : State) : DefaultScratch n s s := .of_results rfl

theorem TxMove.defaultScratch {n : Nat} {s t : State} (h : TxMove s t) (hs : ScratchFrame n s t) :
    DefaultScratch n s t :=
  ⟨h.params_eq, by rw [h.only], by rw [h.only], hs⟩

/-- Wherever the run ends it has kept what `DefaultScratch` says; where it stops, OUT and IN from `n` on. -/
def Run.KeepsScratch {α : Type} (n : Nat) (s : State) (r : Run α) : Prop :=
  r.All (fun _ t => DefaultScratch n s t) (ScratchFrame n s)

theorem Run.KeepsScratch.bind {α β : Type} {n : Nat} {s : State} {r : Run α} {k : α → State → Run β}
    (h : r.KeepsScratch n s) (hk : ∀ a t, DefaultScratch n s t → (k a t).KeepsScratch n s) :
    (r.bind k).KeepsScratch n s := Run.All.bind h hk

theorem Run.KeepsScratch.after {α : Type} {n : Nat} {s t : State} {r : Run α} (h : DefaultScratch n s t)
    (hr : r.KeepsScratch n t) : r.KeepsScratch n s :=
  Run.All.imp hr (fun _ _ h' => h.trans h') fun _ h' => h.scratch.trans h'

theorem transaction_keepsScratch {n : Nat} (wbytes : List Byte) (r : Nat) (s : State) (h : wbytes.length + r ≤ n) :
    (transaction wbytes r s).KeepsScratch n s :=
  ((transaction_all wbytes r s).and (transaction_scratch wbytes r s)).imp
    (fun _ _ ⟨⟨hmove, _⟩, hs, _⟩ => hmove.defaultScratch (hs.mono h)) fun _ ⟨_, hs⟩ => hs.mono h

theorem length_ppBytes (p : Params) (off : Nat) (data : List Byte) :
    (ppBytes p off data).length = 1 + p.addrBytes + data.length := by
  simp only [ppBytes, flashOffset, List.length_append, List.length_cons, length_offsetBytes]
  omega

theorem programDefault_keepsScratch {n : Nat} (off : Nat) (data : List Byte) (s : State)
    (h : 1 + s.params.addrBytes + data.length ≤ n) : (programDefault off data s).KeepsScratch n s := by
  have hpp (u : State) (hu : u.params = s.params) : (ppBytes u.params off data).length + 0 ≤ n := by
    rwa [length_ppBytes, hu]
  have hwren : (wrenBytes s.params).length + 0 ≤ n := by
    simp only [wrenBytes, List.length_singleton]
    omega
  unfold programDefault
  split
  · refine (transaction_keepsScratch _ 0 s hwren).bind fun res t ht => ?_
    split
    · exact ht
    · exact (Run.KeepsScratch.after ht (transaction_keepsScratch _ 0 t (hpp t ht.params_eq))).bind
        fun _ _ hu => hu
  · exact (transaction_keepsScratch _ 0 s (hpp s rfl)).bind fun _ _ hu => hu

theorem programPage_of_none {s : State} (h : s.env.pageCalls = []) (off : Nat) (data : List Byte) :
    programPage off data s = programDefault off data s := by
  simp only [programPage, State.pageCall, h, List.headD_nil, dropPageCall_of_none h]

theorem readStatus_of_none {s : State} (h : s.env.statusCalls = []) : readStatus s = statusDefault s := by
  simp only [readStatus, statusCall_of_none h, dropStatusCall_of_none h]

theorem statusDefault_keepsScratch {n : Nat} (s : State) (h : 1 + s.params.rdsrReadLen ≤ n) :
    (statusDefault s).KeepsScratch n s := by
  refine (transaction_keepsScratch _ _ s (by simpa [rdsrBytes] using h)).bind fun res t ht => ?_
  split
  · exact ht
  · trivial

theorem pollLoop_keepsScratch {n : Nat} (total plen fuel npoll : Nat) (s : State) (hcalls : s.env.statusCalls = [])
    (h : 1 + s.params.rdsrReadLen ≤ n) : (pollLoop total plen fuel npoll s).KeepsScratch n s := by
  induction fuel generalizing npoll s with
  | zero => exact .of_same rfl rfl rfl
  | succ fuel ih =>
    unfold pollLoop
    rw [readStatus_of_none hcalls]
    refine (statusDefault_keepsScratch s h).bind fun sr t ht => ?_
    have e : DefaultScratch n s (t.setSr sr) := ht.trans (.of_results rfl)
    split
    · exact e
    · split
      · exact e
      · split
        · exact e.scratch.trans (.of_same rfl rfl rfl)
        · exact .after e (ih (npoll + 1) (t.setSr sr) (e.statusCalls_eq.trans hcalls) (by rwa [e.params_eq]))

theorem length_pageData (s : State) (plen : Nat) : (s.pageData plen).length = plen := length_hwBytes s s.off plen

theorem pageLoop_keepsScratch {n : Nat} (total fuel : Nat) (s : State) (hpages : s.env.pageCalls = [])
    (hpolls : s.env.statusCalls = []) (hpp : 1 + s.params.addrBytes + s.params.page ≤ n)
    (hrdsr : 1 + s.params.rdsrReadLen ≤ n) : (pageLoop total fuel s).KeepsScratch n s := by
  induction fuel generalizing s with
  | zero => exact .refl n s
  | succ fuel ih =>
    unfold pageLoop
    split
    · split
      · trivial
      · simp only [programPage_of_none hpages]
        refine (programDefault_keepsScratch _ _ s (by rw [length_pageData]; omega)).bind fun r t ht => ?_
        split
        · exact ht.trans (.of_results rfl)
        · refine (Run.KeepsScratch.after ht (pollLoop_keepsScratch _ _ _ 0 t (ht.statusCalls_eq.trans hpolls)
            (by rwa [ht.params_eq]))).bind fun code u hu => ?_
          split
          · exact hu
          · have e : DefaultScratch n s (u.setOff (u.off + u.params.page)) := hu.trans (.of_results rfl)
            exact .after e (ih _ (e.pageCalls_eq.trans hpages) (e.statusCalls_eq.trans hpolls)
              (by rwa [e.params_eq]) (by rwa [e.params_eq]))
    · exact .refl n s

/-! ## PROG -/

/-- The fields PROG may write; every other is as it was. -/
def ProgWrites (s t : State) : Prop :=
  t = { s with
    cs := t.cs, sck := t.sck, mosi := t.mosi, acc := t.acc, cap := t.cap, outBuf := t.outBuf, inBuf := t.inBuf
    pres := t.pres, sr := t.sr, off := t.off, err := t.err, top := t.top
    initph := t.initph, tx := t.tx, rd := t.rd, pp := t.pp, span := t.span, trace := t.trace
    env := { s.env with
      dataIn := t.env.dataIn, pinFaults := t.env.pinFaults, pageCalls := t.env.pageCalls
      statusCalls := t.env.statusCalls } }

theorem ProgMove.progWrites {s t : State} (h : ProgMove s t) : ProgWrites s t := by
  unfold ProgWrites
  rw [h.only]

theorem ProgWrites.trans {s t u : State} (h : ProgWrites s t) (h' : ProgWrites t u) : ProgWrites s u := by
  unfold ProgWrites at h h' ⊢
  rw [h', h]

theorem ProgStops.progWrites {s t : State} (h : ProgStops s t) : ProgWrites s t := by
  rcases h with ⟨u, hu, rfl | rfl | rfl⟩ | ⟨u, total, plen, npoll, hu, rfl⟩
  · exact hu.progWrites.trans rfl
  · exact hu.progWrites.trans rfl
  · exact hu.progWrites.trans rfl
  · exact hu.move.progWrites.trans rfl

/-- PROG comes to a next state only by running: a refusal is none. -/
theorem exec_prog_next {s t : State} (hidle : s.top = .idle) (h : exec .prog s = .next t) :
    finish (runProg (s.accept .prog)) = .next t := by
  rcases Nat.lt_or_ge hostSpaceSize s.progTotal with hdata | hdata
  · rw [exec_prog_tooLong hidle hdata] at h
    cases h
  · rwa [exec_prog_idle hidle hdata] at h

/-- A byte of OUT or IN that its list and the buffers' generation leave alone. -/
theorem scratchAt_eq {s t : State} {a : Nat} (hworld : t.env.world = s.env.world) (hcap : t.cap = s.cap)
    (h : memRead t.outBuf a = memRead s.outBuf a ∧ memRead t.inBuf a = memRead s.inBuf a) :
    t.outAt a = s.outAt a ∧ t.inAt a = s.inAt a := by
  simp only [State.outAt, State.inAt, hworld, hcap, h, and_self]

/-- Settles O33, from what the page loop may write and where its frames lie in OUT and IN. -/
theorem progFrame : Obligations.ProgFrame := by
  intro s t hidle hexec
  have hrun := exec_prog_next hidle hexec
  have hwrites : ProgWrites s t := by
    have hentry : ProgWrites s (progEntry (s.accept .prog)) := rfl
    refine hentry.trans ?_
    rcases finish_next (pageLoop_all _ _ _) hrun with ⟨code, u, hu, rfl⟩ | hstop
    · exact hu.1.move.progWrites.trans rfl
    · exact hstop.progWrites
  refine ⟨hwrites, fun ⟨hout, hin, _⟩ hpages hpolls hcap a hpp hrdsr => ?_⟩
  have hkeeps : ScratchFrame a (progEntry (s.accept .prog)) t := by
    rcases finish_next (pageLoop_keepsScratch _ _ (progEntry (s.accept .prog)) hpages hpolls hpp hrdsr) hrun with
      ⟨code, u, hu, rfl⟩ | hstop
    · exact hu.scratch.trans (.of_same rfl rfl rfl)
    · exact hstop
  have hworld : t.env.world = s.env.world := by rw [hwrites]
  exact scratchAt_eq hworld hcap (hkeeps.kept ⟨hout, hin⟩ hcap a (Nat.le_refl a))

end Sys2Proof.Machine
end

section
/-!
SUPPORT. The Page Programmer's primitives with a usable backend (44_page_programmer.md R203, R204): each completes, and
while data-in is held at a level its frames sample that level throughout (log 4).
-/
namespace Sys2Proof.Machine

/-! ## What stays as it was -/

/-- What PROG keeps from page to page: all but the pins, the buffers, SR, OFF, the trace, and what is used up of the
scripts. -/
def PagesMove (s t : State) : Prop :=
  t = { s with
    cs := t.cs, sck := t.sck, mosi := t.mosi, acc := t.acc, cap := t.cap, outBuf := t.outBuf, inBuf := t.inBuf
    sr := t.sr, off := t.off, span := t.span, trace := t.trace
    env := { s.env with dataIn := t.env.dataIn, pinFaults := t.env.pinFaults, pageCalls := t.env.pageCalls } }

theorem PagesMove.refl (s : State) : PagesMove s s := rfl

theorem PagesMove.trans {s t u : State} (h : PagesMove s t) (h' : PagesMove t u) : PagesMove s u := by
  unfold PagesMove at h h' ⊢
  rw [h', h]

theorem PagesMove.params_eq {s t : State} (h : PagesMove s t) : t.params = s.params := by rw [h]

theorem PagesMove.halfPeriod_eq {s t : State} (h : PagesMove s t) : t.halfPeriod = s.halfPeriod := by rw [h]

theorem PagesMove.pres_eq {s t : State} (h : PagesMove s t) : t.pres = s.pres := by rw [h]

theorem PagesMove.top_eq {s t : State} (h : PagesMove s t) : t.top = s.top := by rw [h]

theorem PagesMove.statusCalls_eq {s t : State} (h : PagesMove s t) : t.env.statusCalls = s.env.statusCalls := by rw [h]

theorem PagesMove.hwBytes_eq {s t : State} (h : PagesMove s t) (a n : Nat) : t.hwBytes a n = s.hwBytes a n := by
  have hat : t.hwAt = s.hwAt := by
    funext i
    rw [State.hwAt, State.hwAt, h]
  rw [State.hwBytes, State.hwBytes, hat]

theorem PagesMove.ready {s t : State} (h : PagesMove s t) (hs : s.Ready) : t.Ready := by
  rw [h]
  exact hs

theorem PagesMove.roomy {s t : State} (h : PagesMove s t) (hs : s.Roomy) : t.Roomy := by
  rw [h]
  exact hs

/-- The same within a page: OFF and the script of ProgramPage too are as they were. -/
structure PollMove (s t : State) : Prop where
  move : PagesMove s t
  off_eq : t.off = s.off
  pageCalls_eq : t.env.pageCalls = s.env.pageCalls

theorem PollMove.refl (s : State) : PollMove s s := ⟨.refl s, rfl, rfl⟩

theorem PollMove.trans {s t u : State} (h : PollMove s t) (h' : PollMove t u) : PollMove s u :=
  ⟨h.move.trans h'.move, h'.off_eq.trans h.off_eq, h'.pageCalls_eq.trans h.pageCalls_eq⟩

theorem TxMove.pollMove {s t : State} (h : TxMove s t) : PollMove s t where
  move := by
    unfold PagesMove
    rw [h.only]
  off_eq := by rw [h.only]
  pageCalls_eq := by rw [h.only]

theorem PollMove.setSr (s : State) (sr : Byte) : PollMove s (s.setSr sr) := ⟨rfl, rfl, rfl⟩

/-! ## Transfers -/

/-- A frame of `outs` sampled while data-in is held at `b`. -/
def heldFrame (p : Params) (h : Word) (outs : List Byte) (b : Bit) : List Event :=
  frameEvents p h outs (List.replicate outs.length (heldByte b))

/-- From `s` to `t` frames of `n` bytes together are transferred, which are the events `evs b` when data-in is held at
`b`. -/
structure Transfer (n : Nat) (evs : Bit → List Event) (s t : State) : Prop where
  move : PollMove s t
  cs_eq : t.cs = s.params.csDeassert
  dataIn_eq : t.env.dataIn = s.env.dataIn.drop (8 * n)
  trace_held : ∀ b rest, s.env.dataIn = List.replicate (8 * n) b ++ rest → t.trace = (evs b).reverse ++ s.trace

/-- What is left of data-in held for more bytes than have been transferred. -/
theorem drop_held {n m : Nat} {b : Bit} {rest levels : List Bit}
    (h : levels = List.replicate (8 * n + m) b ++ rest) : levels.drop (8 * n) = List.replicate m b ++ rest := by
  rw [h, ← List.replicate_append_replicate, List.append_assoc]
  exact List.drop_left' List.length_replicate

theorem Transfer.left {n m : Nat} {evs : Bit → List Event} {s t : State} (h : Transfer n evs s t) {b : Bit}
    {rest : List Bit} (hin : s.env.dataIn = List.replicate (8 * n + m) b ++ rest) :
    t.env.dataIn = List.replicate m b ++ rest := h.dataIn_eq.trans (drop_held hin)

/-- What is held longer is held. -/
theorem held_of_add {n m : Nat} {b : Bit} {rest levels : List Bit}
    (h : levels = List.replicate (n + m) b ++ rest) : levels = List.replicate n b ++ (List.replicate m b ++ rest) := by
  rw [h, ← List.replicate_append_replicate, List.append_assoc]

theorem Transfer.trans {n m : Nat} {evs evs' : Bit → List Event} {s t u : State} (h : Transfer n evs s t)
    (h' : Transfer m evs' t u) : Transfer (n + m) (fun b => evs b ++ evs' b) s u where
  move := h.move.trans h'.move
  cs_eq := by rw [h'.cs_eq, h.move.move.params_eq]
  dataIn_eq := by rw [h'.dataIn_eq, h.dataIn_eq, List.drop_drop, Nat.mul_add]
  trace_held := fun b rest hin => by
    rw [Nat.mul_add] at hin
    rw [h'.trace_held b rest (h.left hin), h.trace_held b _ (held_of_add hin), List.reverse_append, List.append_assoc]

theorem Transfer.setSr {n : Nat} {evs : Bit → List Event} {s t : State} (h : Transfer n evs s t) (sr : Byte) :
    Transfer n evs s (t.setSr sr) :=
  ⟨h.move.trans (.setSr t sr), h.cs_eq, h.dataIn_eq, h.trace_held⟩

/-- A transaction within the limits transfers its frame, and its response is what was sampled in the read field. -/
theorem transaction_transfer (wbytes : List Byte) (r : Nat) {s : State} (hready : s.Ready)
    (hlen : wbytes.length + r ≤ s.params.ceiling)
    (hbuf : max (wbytes.length + r) s.params.floor ≤ max s.cap s.params.bufMax) :
    ∃ (us : List Byte) (t : State), us.length = wbytes.length + r
      ∧ transaction wbytes r s = .ok (codeOk, us.drop wbytes.length) t
      ∧ Transfer (wbytes.length + r) (heldFrame s.params s.halfPeriod (frameOut s.params wbytes r)) s t
      ∧ ∀ b rest, s.env.dataIn = List.replicate (8 * (wbytes.length + r)) b ++ rest →
          us = List.replicate (wbytes.length + r) (heldByte b) := by
  obtain ⟨us, ob, ib, sp, hus, htx, -, -, hans⟩ := transaction_ready wbytes r hready hlen hbuf
  have houts := length_frameOut s.params wbytes r
  have hmove := transaction_all wbytes r s
  rw [htx] at hmove
  have hheld (b : Bit) (rest : List Bit)
      (hin : s.env.dataIn = List.replicate (8 * (wbytes.length + r)) b ++ rest) :
      us = List.replicate (wbytes.length + r) (heldByte b) := by
    rw [hin, ← flatMap_byteLevels_heldByte] at hans
    exact answered_frameEvents_script _ _ _ rest _ us _ _ (hus.trans houts.symm)
      (List.length_replicate.trans houts.symm) hans
  refine ⟨us, _, hus, htx, ⟨hmove.1.pollMove, rfl, ?_, fun b rest hin => ?_⟩, hheld⟩
  · rw [← houts]
    rfl
  · rw [heldFrame, houts, ← hheld b rest hin]
    rfl

/-- In a roomy build the frames of PROG pass the length check and fit the buffers. -/
theorem State.Roomy.progFrame {s : State} (h : s.Roomy) {n : Nat}
    (hn : n ≤ 1 + s.params.addrBytes + s.params.page ∨ n ≤ 1 + s.params.rdsrReadLen) :
    n ≤ s.params.ceiling ∧ max n s.params.floor ≤ max s.cap s.params.bufMax := by
  obtain ⟨hwf, hpp, hrdsr, -⟩ := h
  simp only [Params.wf, Bool.and_eq_true, decide_eq_true_eq] at hwf
  omega

theorem State.Roomy.page_pos {s : State} (h : s.Roomy) : 1 ≤ s.params.page := by
  have hwf := h.1
  simp only [Params.wf, Bool.and_eq_true, decide_eq_true_eq] at hwf
  omega

theorem State.Roomy.rdsrReadLen_pos {s : State} (h : s.Roomy) : 1 ≤ s.params.rdsrReadLen := by
  have hwf := h.1
  simp only [Params.wf, Bool.and_eq_true, decide_eq_true_eq] at hwf
  omega

theorem State.Roomy.pollLimit_pos {s : State} (h : s.Roomy) {l : Nat} (hl : s.params.pollLimit = some l) :
    1 ≤ l := by
  have hwf := h.1
  simp only [Params.wf, hl, Bool.and_eq_true, decide_eq_true_eq] at hwf
  omega

/-! ## ProgramPage -/

/-- The frames of the default ProgramPage while data-in is held at `b` (R203). -/
def programEvents (p : Params) (h : Word) (off : Nat) (data : List Byte) (b : Bit) : List Event :=
  (if p.progWren then heldFrame p h (wrenBytes p) b else []) ++ heldFrame p h (ppBytes p off data) b

theorem frameOut_zero (p : Params) (wbytes : List Byte) : frameOut p wbytes 0 = wbytes := List.append_nil wbytes

/-- A transaction of PROG's that reads nothing. -/
theorem transaction_writeOnly {wbytes : List Byte} {s : State} (hready : s.Ready) (hroomy : s.Roomy)
    (hlen : wbytes.length ≤ 1 + s.params.addrBytes + s.params.page) :
    ∃ (rbytes : List Byte) (t : State), transaction wbytes 0 s = .ok (codeOk, rbytes) t
      ∧ Transfer wbytes.length (heldFrame s.params s.halfPeriod wbytes) s t := by
  obtain ⟨hceiling, hbuf⟩ := hroomy.progFrame (.inl hlen)
  obtain ⟨us, t, -, htx, htransfer, -⟩ := transaction_transfer wbytes 0 hready hceiling hbuf
  rw [frameOut_zero] at htransfer
  exact ⟨_, t, htx, htransfer⟩

/-- The default ProgramPage of a page succeeds (R203). -/
theorem programDefault_ready (off : Nat) {data : List Byte} {s : State} (hready : s.Ready) (hroomy : s.Roomy)
    (hlen : data.length ≤ s.params.page) :
    ∃ t : State, programDefault off data s = .ok 0 t
      ∧ Transfer (bytesBeforePoll s.params data.length) (programEvents s.params s.halfPeriod off data) s t := by
  have hpp : (ppBytes s.params off data).length ≤ 1 + s.params.addrBytes + s.params.page := by
    rw [length_ppBytes]
    omega
  by_cases hwren : s.params.progWren = true
  · obtain ⟨_, t, htx, ht⟩ :=
      transaction_writeOnly (wbytes := wrenBytes s.params) hready hroomy (by simp [wrenBytes]; omega)
    have hparams := ht.move.move.params_eq
    obtain ⟨_, u, hux, hu⟩ := transaction_writeOnly (wbytes := ppBytes s.params off data)
      (ht.move.move.ready hready) (ht.move.move.roomy hroomy) (by rwa [hparams])
    refine ⟨u, ?_, ?_⟩
    · rw [programDefault, if_pos hwren, htx, Run.bind_ok, if_neg (fun hne => hne rfl), hparams, hux]
      rfl
    · have hbytes : bytesBeforePoll s.params data.length
          = (wrenBytes s.params).length + (ppBytes s.params off data).length := by
        simp only [bytesBeforePoll, hwren, if_true, wrenBytes, List.length_singleton, length_ppBytes]
        omega
      have hevents : programEvents s.params s.halfPeriod off data = fun b =>
          heldFrame s.params s.halfPeriod (wrenBytes s.params) b
            ++ heldFrame s.params s.halfPeriod (ppBytes s.params off data) b := by
        funext b
        rw [programEvents, if_pos hwren]
      rw [hparams, ht.move.move.halfPeriod_eq] at hu
      rw [hbytes, hevents]
      exact ht.trans hu
  · obtain ⟨_, t, htx, ht⟩ := transaction_writeOnly (wbytes := ppBytes s.params off data) hready hroomy hpp
    refine ⟨t, ?_, ?_⟩
    · rw [programDefault, if_neg hwren, htx]
      rfl
    · have hbytes : bytesBeforePoll s.params data.length = (ppBytes s.params off data).length := by
        rw [bytesBeforePoll, if_neg hwren, length_ppBytes, Nat.zero_add]
      have hevents : programEvents s.params s.halfPeriod off data
          = heldFrame s.params s.halfPeriod (ppBytes s.params off data) := by
        funext b
        rw [programEvents, if_neg hwren, List.nil_append]
      rw [hbytes, hevents]
      exact ht

/-! ## ReadStatus -/

/-- The frame of one poll while data-in is held at `b` (R204). -/
def statusEvents (p : Params) (h : Word) (b : Bit) : List Event :=
  heldFrame p h (frameOut p (rdsrBytes p) p.rdsrReadLen) b

/-- The default ReadStatus answers; while data-in is held at a level, with the byte of that level (R204). -/
theorem statusDefault_ready {s : State} (hready : s.Ready) (hroomy : s.Roomy) :
    ∃ (sr : Byte) (t : State), statusDefault s = .ok sr t
      ∧ Transfer (bytesOfPoll s.params) (statusEvents s.params s.halfPeriod) s t
      ∧ ∀ b rest, s.env.dataIn = List.replicate (8 * bytesOfPoll s.params) b ++ rest → sr = heldByte b := by
  have hsome := hroomy.rdsrReadLen_pos
  obtain ⟨hceiling, hbuf⟩ := hroomy.progFrame (n := bytesOfPoll s.params) (.inr (Nat.le_refl _))
  obtain ⟨us, t, hus, htx, htransfer, hheld⟩ :=
    transaction_transfer (rdsrBytes s.params) s.params.rdsrReadLen hready hceiling hbuf
  match us, hus with
  | [], hus =>
    simp only [rdsrBytes, List.length_singleton, List.length_nil] at hus
    omega
  | [u], hus =>
    simp only [rdsrBytes, List.length_singleton] at hus
    omega
  | u :: sr :: us, _ =>
    refine ⟨sr, t, ?_, htransfer, fun b rest hin => ?_⟩
    · rw [statusDefault, htx]
      rfl
    · have hsr : sr ∈ List.replicate (bytesOfPoll s.params) (heldByte b) := by
        rw [bytesOfPoll, ← show (rdsrBytes s.params).length = 1 from rfl, ← hheld b rest hin]
        simp
      exact List.eq_of_mem_replicate hsr

/-- One poll, SR set to its answer. -/
theorem readStatus_ready {s : State} (hready : s.Ready) (hroomy : s.Roomy) (hcalls : s.env.statusCalls = []) :
    ∃ (sr : Byte) (t : State), readStatus s = .ok sr t
      ∧ Transfer (bytesOfPoll s.params) (statusEvents s.params s.halfPeriod) s (t.setSr sr)
      ∧ ∀ b rest, s.env.dataIn = List.replicate (8 * bytesOfPoll s.params) b ++ rest → sr = heldByte b := by
  obtain ⟨sr, t, hstatus, htransfer, hheld⟩ := statusDefault_ready hready hroomy
  exact ⟨sr, t, (readStatus_of_none hcalls).trans hstatus, htransfer.setSr sr, hheld⟩

end Sys2Proof.Machine
end

section
/-!
SUPPORT. PROG with a usable backend, data-in held at 0, so that each page is ready at its first poll
(44_page_programmer.md R200, R202, R205, R206).
-/
namespace Sys2Proof.Machine

/-! ## One turn of each loop -/

section
variable {s t : State} {sr : Byte} (hstatus : readStatus s = .ok sr t) (total plen fuel npoll : Nat)
include hstatus

theorem pollLoop_ready (hsr : wipSet t.params sr = false) :
    pollLoop total plen (fuel + 1) npoll s = .ok codeOk (t.setSr sr) := by
  rw [pollLoop, hstatus, Run.bind_ok, if_pos hsr]

theorem pollLoop_timeout (hsr : wipSet t.params sr ≠ false) (hout : pollsOut t.params (npoll + 1) = true) :
    pollLoop total plen (fuel + 1) npoll s = .ok codeTimeout (t.setSr sr) := by
  rw [pollLoop, hstatus, Run.bind_ok, if_neg hsr, if_pos hout]

theorem pollLoop_waits (hsr : wipSet t.params sr ≠ false) (hout : pollsOut t.params (npoll + 1) = false)
    (hwait : mayWait t = true) :
    pollLoop total plen (fuel + 1) npoll s = .halt ((t.setSr sr).waitPoll total plen (npoll + 1)) := by
  rw [pollLoop, hstatus, Run.bind_ok, if_neg hsr, hout, if_neg Bool.false_ne_true, if_pos hwait]

theorem pollLoop_again (hsr : wipSet t.params sr ≠ false) (hout : pollsOut t.params (npoll + 1) = false)
    (hwait : mayWait t = false) :
    pollLoop total plen (fuel + 1) npoll s = pollLoop total plen fuel (npoll + 1) (t.setSr sr) := by
  rw [pollLoop, hstatus, Run.bind_ok, if_neg hsr, hout, if_neg Bool.false_ne_true, hwait, if_neg Bool.false_ne_true]

end

theorem pageLoop_programFailure {total : Nat} {s t : State} {r : Word} (hoff : s.off < total)
    (hplen : min s.params.page (total - s.off) ≠ 0)
    (hpage : programPage s.off (s.pageData (min s.params.page (total - s.off))) s = .ok r t) (hr : r ≠ 0)
    (fuel : Nat) :
    pageLoop total (fuel + 1) s = .ok codeProgramFailure { t with pres := r } := by
  simp only [pageLoop, if_pos hoff, if_neg hplen, hpage, Run.bind_ok, if_pos hr]

/-- How PROG goes on from the poll loop of a page: not at all, or with the next page (R200). -/
def nextPage (total fuel : Nat) (status : Byte) (s : State) : Run Byte :=
  if status ≠ codeOk then .ok status s else pageLoop total fuel (s.setOff (s.off + s.params.page))

theorem pageLoop_programmed {total : Nat} {s t : State} (hoff : s.off < total)
    (hplen : min s.params.page (total - s.off) ≠ 0)
    (hpage : programPage s.off (s.pageData (min s.params.page (total - s.off))) s = .ok 0 t) (fuel : Nat) :
    pageLoop total (fuel + 1) s
      = (pollLoop total (min s.params.page (total - s.off)) (pollFuel t) 0 t).bind (nextPage total fuel) := by
  simp only [pageLoop, if_pos hoff, if_neg hplen, hpage, Run.bind_ok, ne_eq, not_true_eq_false, if_false]
  rfl

/-- The loop can poll at least once. -/
theorem pollFuel_eq_succ (s : State) : ∃ fuel, pollFuel s = fuel + 1 := by
  unfold pollFuel
  split
  · exact ⟨_, rfl⟩
  · exact ⟨_, rfl⟩

/-! ## Pages -/

/-- PROG has a page `j` exactly when `j` full pages leave something to program (R202). -/
theorem lt_pageCount_iff {p : Params} (hpos : 0 < p.page) (total j : Nat) :
    j < pageCount p total ↔ j * p.page < total := by
  rw [pageCount, ← Nat.succ_le_iff, Nat.le_div_iff_mul_le hpos, Nat.succ_mul]
  omega

theorem le_pageCount_mul {p : Params} (hpos : 0 < p.page) (total : Nat) : total ≤ pageCount p total * p.page :=
  Nat.not_lt.mp (mt (lt_pageCount_iff hpos total _).mpr (Nat.lt_irrefl _))

/-- PROG has no more pages than bytes, so its loop never runs out of fuel. -/
theorem pageCount_le_total {p : Params} (hpos : 0 < p.page) (total : Nat) : pageCount p total ≤ total := by
  refine Nat.not_lt.mp fun h => ?_
  exact Nat.not_lt.mpr (Nat.le_mul_of_pos_right total hpos) ((lt_pageCount_iff hpos total total).mp h)

/-- How many bytes are transferred for the first `n` of PROG's pages, one poll each. -/
def quietBytes (p : Params) (total n : Nat) : Nat :=
  n * (bytesBeforePoll p 0 + bytesOfPoll p) + min (n * p.page) total

theorem quietBytes_succ {p : Params} {total n : Nat} (h : n * p.page < total) :
    quietBytes p total (n + 1)
      = quietBytes p total n + (bytesBeforePoll p (min p.page (total - n * p.page)) + bytesOfPoll p) := by
  simp only [quietBytes, bytesBeforePoll, Nat.succ_mul]
  omega

theorem quietPageEvents_eq (p : Params) (h : Word) (off : Nat) (data : List Byte) :
    quietPageEvents p h off data = programEvents p h off data 0 ++ statusEvents p h 0 := by
  have hzero : heldByte 0 = 0 := by decide
  have hlen : (frameOut p (rdsrBytes p) p.rdsrReadLen).length = 1 + p.rdsrReadLen := length_frameOut _ _ _
  simp only [quietPageEvents, programEvents, statusEvents, heldFrame, hzero, hlen]
  rfl

/-- The default ProgramPage as it is called, its call used up. -/
theorem programPage_default {s : State} (hready : s.Ready) (hroomy : s.Roomy) (hcall : s.pageCall = .default)
    {data : List Byte} (hlen : data.length ≤ s.params.page) (off : Nat) :
    ∃ t : State, programPage off data s = .ok 0 t
      ∧ Transfer (bytesBeforePoll s.params data.length) (programEvents s.params s.halfPeriod off data)
          s.dropPageCall t := by
  simp only [programPage, hcall]
  exact programDefault_ready (s := s.dropPageCall) off hready hroomy hlen

/-- What a page that is ready at its first poll does between `s` and `t`. -/
structure PageDone (evs : List Event) (s t : State) : Prop where
  move : PagesMove s t
  off_eq : t.off = s.off + s.params.page
  sr_eq : t.sr = 0
  pageCalls_eq : t.env.pageCalls = s.env.pageCalls.tail
  trace_eq : t.trace = evs.reverse ++ s.trace

/-- One turn of PROG's loop while data-in is held at 0 for the bytes of the page and of one poll. -/
theorem pageLoop_quietPage {total : Nat} {s : State} (hready : s.Ready) (hroomy : s.Roomy) (hoff : s.off < total)
    (hcall : s.pageCall = .default) (hpolls : s.env.statusCalls = []) {m : Nat} {rest : List Bit}
    (hin : s.env.dataIn
      = List.replicate (8 * (bytesBeforePoll s.params (min s.params.page (total - s.off)) + bytesOfPoll s.params) + m) 0
          ++ rest) :
    ∃ t : State, (∀ fuel, pageLoop total (fuel + 1) s = pageLoop total fuel t)
      ∧ PageDone (quietPageEvents s.params s.halfPeriod s.off (s.pageData (min s.params.page (total - s.off)))) s t
      ∧ t.env.dataIn = List.replicate m 0 ++ rest := by
  have hpage := hroomy.page_pos
  have hplen : min s.params.page (total - s.off) ≠ 0 := by omega
  have hdata := length_pageData s (min s.params.page (total - s.off))
  obtain ⟨t, hprog, ht⟩ := programPage_default hready hroomy hcall
    (data := s.pageData (min s.params.page (total - s.off))) (by omega) s.off
  rw [hdata] at ht
  have hmove : PagesMove s t := PagesMove.trans (t := s.dropPageCall) rfl ht.move.move
  obtain ⟨sr, u, hstatus, hu, hheld⟩ :=
    readStatus_ready (hmove.ready hready) (hmove.roomy hroomy) (hmove.statusCalls_eq.trans hpolls)
  rw [hmove.params_eq, hmove.halfPeriod_eq] at hu
  rw [hmove.params_eq] at hheld
  have hall := ht.trans hu
  rw [Nat.mul_add, Nat.add_assoc] at hin
  obtain rfl : sr = 0 := hheld 0 _ (held_of_add (ht.left hin))
  obtain ⟨fuel, hfuel⟩ := pollFuel_eq_succ t
  refine ⟨(u.setSr 0).setOff (u.off + u.params.page), fun fuel' => ?_,
    ⟨(hmove.trans hu.move.move).trans rfl, ?_, rfl, hall.move.pageCalls_eq, ?_⟩, ?_⟩
  · rw [pageLoop_programmed hoff hplen hprog, hfuel, pollLoop_ready hstatus _ _ _ _ (by simp [wipSet])]
    rfl
  · have hoff' : u.off = s.off := hall.move.off_eq
    have hparams : u.params = s.params := hall.move.move.params_eq
    rw [setOff_off, hoff', hparams]
  · rw [quietPageEvents_eq]
    rw [← Nat.add_assoc, ← Nat.mul_add] at hin
    exact hall.trace_held 0 _ (held_of_add hin)
  · rw [← Nat.add_assoc, ← Nat.mul_add] at hin
    exact hall.left hin

/-- Where the first `n` of PROG's pages, each ready at its first poll, have brought `s` (R200, R202). -/
structure QuietPages (n : Nat) (s t : State) : Prop where
  move : PagesMove s t
  off_eq : t.off = n * s.params.page
  sr_eq : 0 < n → t.sr = 0
  pageCalls_eq : t.env.pageCalls = s.env.pageCalls.drop n
  trace_eq : t.trace = ((List.range n).flatMap (quietPage s)).reverse ++ s.trace

theorem QuietPages.none {s : State} (hoff : s.off = 0) : QuietPages 0 s s where
  move := .refl s
  off_eq := by rw [hoff, Nat.zero_mul]
  sr_eq := fun h => absurd h (Nat.lt_irrefl 0)
  pageCalls_eq := rfl
  trace_eq := rfl

/-- One page more. -/
theorem QuietPages.succ {n : Nat} {s t u : State} (h : QuietPages n s t)
    (h' : PageDone (quietPageEvents t.params t.halfPeriod t.off
      (t.pageData (min t.params.page (s.progTotal - t.off)))) t u) : QuietPages (n + 1) s u where
  move := h.move.trans h'.move
  off_eq := by rw [h'.off_eq, h.off_eq, h.move.params_eq, Nat.succ_mul]
  sr_eq := fun _ => h'.sr_eq
  pageCalls_eq := by rw [h'.pageCalls_eq, h.pageCalls_eq, List.tail_drop]
  trace_eq := by
    rw [h'.trace_eq, h.trace_eq, State.pageData, h.move.hwBytes_eq, h.off_eq, h.move.params_eq, h.move.halfPeriod_eq,
      List.range_succ, List.flatMap_append, List.flatMap_singleton, List.reverse_append, List.append_assoc]
    rfl

/-- The first `n` of PROG's pages while data-in is held at 0, by induction over the pages. -/
theorem pageLoop_quietPages {s : State} (hready : s.Ready) (hroomy : s.Roomy) (hoff : s.off = 0)
    (hpolls : s.env.statusCalls = []) (n : Nat) (hn : n ≤ pageCount s.params s.progTotal)
    (hcalls : ∀ i < n, (s.env.pageCalls.drop i).headD .default = .default) {m : Nat} {rest : List Bit}
    (hin : s.env.dataIn = List.replicate (8 * quietBytes s.params s.progTotal n + m) 0 ++ rest) :
    ∃ t : State, (∀ fuel, pageLoop s.progTotal (fuel + n) s = pageLoop s.progTotal fuel t)
      ∧ QuietPages n s t ∧ t.env.dataIn = List.replicate m 0 ++ rest := by
  induction n generalizing m with
  | zero => exact ⟨s, fun _ => rfl, .none hoff, by simpa [quietBytes] using hin⟩
  | succ n ih =>
    have hmore : n * s.params.page < s.progTotal := (lt_pageCount_iff hroomy.page_pos _ n).mp hn
    rw [quietBytes_succ hmore, Nat.mul_add, Nat.add_assoc] at hin
    obtain ⟨t, hloop, ht, htin⟩ := ih (Nat.le_of_succ_le hn) (fun i hi => hcalls i (Nat.lt_succ_of_lt hi)) hin
    have hcall : t.pageCall = .default := by
      rw [State.pageCall, ht.pageCalls_eq]
      exact hcalls n (Nat.lt_succ_self n)
    rw [← ht.off_eq] at hmore
    rw [← ht.off_eq, ← ht.move.params_eq] at htin
    obtain ⟨u, hturn, hu, huin⟩ := pageLoop_quietPage (ht.move.ready hready) (ht.move.roomy hroomy) hmore hcall
      (ht.move.statusCalls_eq.trans hpolls) htin
    refine ⟨u, fun fuel => ?_, ht.succ hu, huin⟩
    rw [show fuel + (n + 1) = fuel + 1 + n by omega, hloop, hturn]

/-! ## PROG -/

/-- PROG as it has been accepted, at its first page. -/
abbrev progStart (s : State) : State := progEntry (s.accept .prog)

theorem exec_prog_eq {s : State} (hidle : s.top = .idle) (hdata : s.progTotal ≤ hostSpaceSize) :
    exec .prog s = finish (pageLoop s.progTotal s.progTotal (progStart s)) := exec_prog_idle hidle hdata

/-- PROG from its first page on past the first `n`, while data-in is held at 0. -/
theorem exec_prog_quietPages {s : State} (hidle : s.top = .idle) (hready : s.Ready) (hroomy : s.Roomy)
    (hdata : s.progTotal ≤ hostSpaceSize) (hpolls : s.env.statusCalls = []) {n : Nat}
    (hn : n ≤ pageCount s.params s.progTotal)
    (hcalls : ∀ i < n, (s.env.pageCalls.drop i).headD .default = .default) {rest : List Bit}
    (hin : s.env.dataIn = List.replicate (8 * quietBytes s.params s.progTotal n) 0 ++ rest) :
    ∃ t : State, exec .prog s = finish (pageLoop s.progTotal (s.progTotal - n) t)
      ∧ QuietPages n (progStart s) t ∧ t.env.dataIn = rest := by
  obtain ⟨t, hloop, ht, htin⟩ :=
    pageLoop_quietPages (s := progStart s) (m := 0) hready hroomy rfl hpolls n hn hcalls hin
  have hfuel : s.progTotal - n + n = s.progTotal :=
    Nat.sub_add_cancel (Nat.le_trans hn (pageCount_le_total hroomy.page_pos _))
  have hall := hloop (s.progTotal - n)
  rw [show (progStart s).progTotal = s.progTotal from rfl, hfuel] at hall
  exact ⟨t, (exec_prog_eq hidle hdata).trans (congrArg finish hall), ht, htin⟩

theorem QuietPages.events_eq {n : Nat} {s t : State} (h : QuietPages n (progStart s) t) :
    t.events = s.events ++ (List.range n).flatMap (quietPage s) := by
  rw [State.events, h.trace_eq, List.reverse_append, List.reverse_reverse]
  rfl

/-- Settles O28: after its last page PROG has nothing left to program. -/
theorem progCompletesWhenReady : Obligations.ProgCompletesWhenReady := by
  intro s rest hidle hready hroomy hdata hpages hpolls pages hin
  have hlast : s.progTotal ≤ pages * s.params.page := le_pageCount_mul hroomy.page_pos _
  have hbytes : quietBytes s.params s.progTotal pages
      = pages * (bytesBeforePoll s.params 0 + bytesOfPoll s.params) + s.progTotal := by
    rw [quietBytes, Nat.min_eq_right hlast]
  have hcalls (i : Nat) (_ : i < pages) : (s.env.pageCalls.drop i).headD .default = .default := by
    rw [hpages, List.drop_nil, List.headD_nil]
  rw [← hbytes] at hin
  obtain ⟨t, hexec, ht, htin⟩ := exec_prog_quietPages hidle hready hroomy hdata hpolls (Nat.le_refl _) hcalls hin
  have hoff : t.off = pages * s.params.page := ht.off_eq
  have hdone : s.progTotal ≤ t.off := by rwa [hoff]
  rw [pageLoop_done hdone] at hexec
  refine ⟨t.endOp codeOk, hexec, rfl, rfl, ht.move.pres_eq, hoff, hdone, fun hsome => ht.sr_eq ?_, ht.events_eq,
    htin⟩
  exact (lt_pageCount_iff hroomy.page_pos _ 0).mpr (by rwa [Nat.zero_mul])

/-- Settles O30: past the pages before it, page `j` ends PROG with what ProgramPage reports. -/
theorem programFailureStops : Obligations.ProgramFailureStops := by
  intro s j r more rest hidle hready hroomy hdata hr hj hpages hpolls hin
  have hmore : j * s.params.page < s.progTotal := (lt_pageCount_iff hroomy.page_pos _ j).mp hj
  have hbytes : quietBytes s.params s.progTotal j
      = j * (bytesBeforePoll s.params s.params.page + bytesOfPoll s.params) := by
    simp only [quietBytes, bytesBeforePoll, Nat.min_eq_left (Nat.le_of_lt hmore), Nat.mul_add]
    omega
  have hcalls (i : Nat) (hi : i < j) : (s.env.pageCalls.drop i).headD .default = .default := by
    have hi' : 0 < j - i := Nat.sub_pos_of_lt hi
    obtain ⟨k, hk⟩ := Nat.exists_eq_succ_of_ne_zero (Nat.ne_of_gt hi')
    rw [hpages, List.drop_append_of_le_length (by simpa using Nat.le_of_lt hi), List.drop_replicate, hk,
      List.replicate_succ, List.cons_append, List.headD_cons]
  rw [← hbytes] at hin
  obtain ⟨t, hexec, ht, htin⟩ :=
    exec_prog_quietPages hidle hready hroomy hdata hpolls (Nat.le_of_lt hj) hcalls hin
  have hoff : t.off = j * s.params.page := ht.off_eq
  have hinside : t.off < s.progTotal := by rwa [hoff]
  have hplen : min t.params.page (s.progTotal - t.off) ≠ 0 := by
    have hpage := (ht.move.roomy hroomy).page_pos
    omega
  have htcalls : t.env.pageCalls = .custom [] r :: more := by
    rw [ht.pageCalls_eq]
    exact (congrArg (List.drop j) hpages).trans (List.drop_left' List.length_replicate)
  have hpage (data : List Byte) : programPage t.off data t = .ok r t.dropPageCall := by
    simp only [programPage, State.pageCall, htcalls, List.headD_cons, runSubst, Run.bind_ok]
  obtain ⟨fuel, hfuel⟩ : ∃ fuel, s.progTotal - j = fuel + 1 :=
    Nat.exists_eq_succ_of_ne_zero (Nat.sub_ne_zero_of_lt (Nat.lt_of_lt_of_le hj (pageCount_le_total hroomy.page_pos _)))
  rw [hfuel, pageLoop_programFailure hinside hplen (hpage _) hr] at hexec
  exact ⟨_, hexec, rfl, rfl, rfl, hoff, ht.events_eq, htin⟩

end Sys2Proof.Machine
end

section
/-!
SUPPORT. PROG against a device that stays busy (44_page_programmer.md R205, R207, R209): while data-in is held at 1 a
page is polled until POLL_LIMIT, or until nothing says when the device will be ready (log 8).
-/
namespace Sys2Proof.Machine

/-! ## The first page -/

theorem first_page_nonempty {s : State} (hroomy : s.Roomy) (hsome : 0 < s.progTotal) :
    min s.params.page s.progTotal ≠ 0 := by
  have hpage := hroomy.page_pos
  omega

/-- The default ProgramPage of the first page, and the poll loop after it (R200). -/
theorem exec_prog_firstPage {s : State} (hidle : s.top = .idle) (hready : s.Ready) (hroomy : s.Roomy)
    (hsome : 0 < s.progTotal) (hdata : s.progTotal ≤ hostSpaceSize) (hpages : s.env.pageCalls = []) :
    ∃ t : State, PollMove (progStart s) t
      ∧ t.env.dataIn = s.env.dataIn.drop (8 * bytesBeforePoll s.params (min s.params.page s.progTotal))
      ∧ exec .prog s = finish
          ((pollLoop s.progTotal (min s.params.page s.progTotal) (pollFuel t) 0 t).bind
            (nextPage s.progTotal (s.progTotal - 1))) := by
  have hplen := first_page_nonempty hroomy hsome
  have hlen := length_pageData (progStart s) (min s.params.page s.progTotal)
  obtain ⟨t, hprog, ht⟩ := programDefault_ready (s := progStart s) 0
    (data := (progStart s).pageData (min s.params.page s.progTotal)) hready hroomy
    (Nat.le_trans (Nat.le_of_eq hlen) (Nat.min_le_left _ _))
  rw [hlen] at ht
  rw [← programPage_of_none (s := progStart s) hpages] at hprog
  have hturn := pageLoop_programmed (s := progStart s) hsome hplen hprog (s.progTotal - 1)
  rw [Nat.sub_add_cancel hsome] at hturn
  exact ⟨t, ht.move, ht.dataIn_eq, (exec_prog_eq hidle hdata).trans (congrArg finish hturn)⟩

/-! ## Data-in held at 1 -/

theorem wipSet_ones {p : Params} (h : p.wipMask ≠ 0) : wipSet p (heldByte 1) ≠ false := by
  have hones : heldByte 1 = BitVec.allOnes 8 := by decide
  rwa [ne_eq, wipSet_eq_false_iff, hones, BitVec.allOnes_and]

theorem mayWait_of_dataIn {s : State} (h : s.env.dataIn ≠ []) : mayWait s = false := by
  simp [mayWait, h]

theorem mayWait_of_nothing_left {s : State} (hlimit : s.params.pollLimit = none) (hin : s.env.dataIn = [])
    (hcalls : s.env.statusCalls = []) : mayWait s = true := by
  simp [mayWait, hlimit, hin, hcalls]

theorem pollsOut_of_noLimit {p : Params} (h : p.pollLimit = none) (npoll : Nat) : pollsOut p npoll = false :=
  pollsOut_eq_false fun l hl => by rw [h] at hl; cases hl

/-- One poll while data-in is held at 1: the device is busy. -/
theorem readStatus_busy {s : State} (hready : s.Ready) (hroomy : s.Roomy) (hcalls : s.env.statusCalls = [])
    {m : Nat} {rest : List Bit}
    (hin : s.env.dataIn = List.replicate (8 * bytesOfPoll s.params + m) 1 ++ rest) :
    ∃ t : State, readStatus s = .ok (heldByte 1) t ∧ PollMove s (t.setSr (heldByte 1))
      ∧ t.cs = s.params.csDeassert ∧ t.env.dataIn = List.replicate m 1 ++ rest := by
  obtain ⟨sr, t, hstatus, ht, hheld⟩ := readStatus_ready hready hroomy hcalls
  obtain rfl := hheld 1 _ (held_of_add hin)
  exact ⟨t, hstatus, ht.move, ht.cs_eq, ht.left hin⟩

/-- `n` polls at which the device is busy, and after each of which data-in is still scripted and POLL_LIMIT not
reached: the loop polls on. -/
theorem pollLoop_busyPolls {s : State} (hready : s.Ready) (hroomy : s.Roomy) (hcalls : s.env.statusCalls = [])
    (hmask : s.params.wipMask ≠ 0) (total plen n : Nat) (hlimit : ∀ i ≤ n, pollsOut s.params i = false) {m : Nat}
    (hm : m ≠ 0) {rest : List Bit}
    (hin : s.env.dataIn = List.replicate (8 * (n * bytesOfPoll s.params) + m) 1 ++ rest) :
    ∃ t : State, (∀ fuel, pollLoop total plen (fuel + n) 0 s = pollLoop total plen fuel n t)
      ∧ PollMove s t ∧ t.env.dataIn = List.replicate m 1 ++ rest := by
  induction n generalizing m with
  | zero => exact ⟨s, fun _ => rfl, .refl s, by simpa using hin⟩
  | succ n ih =>
    rw [Nat.succ_mul n, Nat.mul_add, Nat.add_assoc] at hin
    obtain ⟨t, hloop, ht, htin⟩ := ih (fun i hi => hlimit i (Nat.le_succ_of_le hi)) (by omega) hin
    rw [← ht.move.params_eq] at htin
    obtain ⟨u, hstatus, hu, -, huin⟩ := readStatus_busy (ht.move.ready hready) (ht.move.roomy hroomy)
      (ht.move.statusCalls_eq.trans hcalls) htin
    have hsu : PollMove s (u.setSr (heldByte 1)) := ht.trans hu
    have hparams : u.params = s.params := hsu.move.params_eq
    refine ⟨u.setSr (heldByte 1), fun fuel => ?_, hsu, huin⟩
    rw [show fuel + (n + 1) = fuel + 1 + n by omega, hloop, pollLoop_again hstatus _ _ _ _ ?_ ?_ ?_]
    · rw [hparams]
      exact wipSet_ones hmask
    · rw [hparams]
      exact hlimit (n + 1) (Nat.le_refl _)
    · exact mayWait_of_dataIn (by simp [huin, hm])

theorem lt_pollFuel {s : State} {n : Nat} (hlimit : ∀ l, s.params.pollLimit = some l → n < l)
    (hin : n < s.env.dataIn.length) : n < pollFuel s := by
  unfold pollFuel
  split
  · rename_i l hl
    exact Nat.lt_succ_of_lt (hlimit l hl)
  · omega

/-- PROG while data-in is held at 1 for its first page and `n + 1` polls of it: it is at the last of them, which finds
the device busy. -/
theorem exec_prog_busyPolls {s : State} (hidle : s.top = .idle) (hready : s.Ready) (hroomy : s.Roomy)
    (hsome : 0 < s.progTotal) (hdata : s.progTotal ≤ hostSpaceSize) (hpages : s.env.pageCalls = [])
    (hpolls : s.env.statusCalls = []) (hmask : s.params.wipMask ≠ 0) {n : Nat}
    (hlimit : ∀ l, s.params.pollLimit = some l → n < l) {rest : List Bit}
    (hin : s.env.dataIn = List.replicate
      (8 * (bytesBeforePoll s.params (min s.params.page s.progTotal) + (n + 1) * bytesOfPoll s.params)) 1 ++ rest) :
    ∃ (u v : State) (fuel : Nat), readStatus u = .ok (heldByte 1) v
      ∧ PollMove (progStart s) (v.setSr (heldByte 1)) ∧ v.cs = s.params.csDeassert ∧ v.env.dataIn = rest
      ∧ exec .prog s = finish
          ((pollLoop s.progTotal (min s.params.page s.progTotal) (fuel + 1) n u).bind
            (nextPage s.progTotal (s.progTotal - 1))) := by
  obtain ⟨t, ht, htin, hexec⟩ := exec_prog_firstPage hidle hready hroomy hsome hdata hpages
  have htparams : t.params = s.params := ht.move.params_eq
  rw [Nat.mul_add] at hin
  rw [drop_held hin, ← htparams, Nat.succ_mul n, Nat.mul_add] at htin
  have hbytes : 0 < 8 * bytesOfPoll t.params := by
    rw [bytesOfPoll]
    omega
  have hpoll : ∀ i ≤ n, pollsOut t.params i = false := fun i hi =>
    pollsOut_eq_false fun l hl => Nat.lt_of_le_of_lt hi (hlimit l (htparams ▸ hl))
  obtain ⟨u, hloop, hu, huin⟩ := pollLoop_busyPolls (ht.move.ready hready) (ht.move.roomy hroomy)
    (ht.move.statusCalls_eq.trans hpolls) (htparams ▸ hmask) s.progTotal (min s.params.page s.progTotal) n hpoll
    (Nat.ne_of_gt hbytes) htin
  have hsu := ht.trans hu
  obtain ⟨v, hstatus, hv, hcs, hvin⟩ := readStatus_busy (hsu.move.ready hready) (hsu.move.roomy hroomy)
    (hsu.move.statusCalls_eq.trans hpolls) (m := 0) (by rwa [hu.move.params_eq])
  have hfuel : n < pollFuel t := by
    refine lt_pollFuel (fun l hl => hlimit l (htparams ▸ hl)) ?_
    have hmany : n * 1 ≤ n * bytesOfPoll t.params := Nat.mul_le_mul_left n (by omega)
    rw [htin, List.length_append, List.length_replicate]
    omega
  refine ⟨u, v, pollFuel t - n - 1, hstatus, hsu.trans hv, ?_, hvin, ?_⟩
  · rw [hcs, hsu.move.params_eq]
    rfl
  · rw [hexec, ← hloop, show pollFuel t - n - 1 + 1 + n = pollFuel t by omega]

theorem nextPage_stops {status : Byte} (h : status ≠ codeOk) (total fuel : Nat) (s : State) :
    nextPage total fuel status s = .ok status s := if_pos h

/-- Settles O31: the last poll of POLL_LIMIT finds the device busy. -/
theorem timeoutAfterPollLimit : Obligations.TimeoutAfterPollLimit := by
  intro s l rest hidle hready hroomy hsome hdata hpages hpolls hl hmask hin
  obtain ⟨n, rfl⟩ := Nat.exists_eq_succ_of_ne_zero (Nat.ne_of_gt (hroomy.pollLimit_pos hl))
  have hlimit (l : Nat) (hl' : s.params.pollLimit = some l) : n < l := by
    obtain rfl : n + 1 = l := Option.some.inj (hl.symm.trans hl')
    exact Nat.lt_succ_self n
  obtain ⟨u, v, fuel, hstatus, hv, hcs, hvin, hexec⟩ :=
    exec_prog_busyPolls hidle hready hroomy hsome hdata hpages hpolls hmask hlimit hin
  have hparams : v.params = s.params := hv.move.params_eq
  rw [pollLoop_timeout hstatus _ _ _ _ (hparams ▸ wipSet_ones hmask)
    (pollsOut_of_le (hparams ▸ hl) (Nat.le_refl _)), Run.bind_ok, nextPage_stops (by decide)] at hexec
  exact ⟨_, hexec, rfl, rfl, hv.off_eq, rfl, hcs, hvin⟩

/-- The last of these polls finds the device busy, and nothing says when it will be ready: PROG stops in its poll loop
(R209; log 8). -/
theorem exec_prog_waits {s : State} (hidle : s.top = .idle) (hready : s.Ready) (hroomy : s.Roomy)
    (hsome : 0 < s.progTotal) (hdata : s.progTotal ≤ hostSpaceSize) (hpages : s.env.pageCalls = [])
    (hpolls : s.env.statusCalls = []) (hlimit : s.params.pollLimit = none) (hmask : s.params.wipMask ≠ 0) {n : Nat}
    (hin : s.env.dataIn = List.replicate
      (8 * (bytesBeforePoll s.params (min s.params.page s.progTotal) + (n + 1) * bytesOfPoll s.params)) 1) :
    ∃ t : State, PollMove (progStart s) (t.setSr (heldByte 1))
      ∧ exec .prog s = .next
          ((t.setSr (heldByte 1)).waitPoll s.progTotal (min s.params.page s.progTotal) (n + 1)) := by
  have hnone (l : Nat) (hl : s.params.pollLimit = some l) : n < l := by
    rw [hlimit] at hl
    cases hl
  rw [← List.append_nil (List.replicate _ _)] at hin
  obtain ⟨u, v, fuel, hstatus, hv, -, hvin, hexec⟩ :=
    exec_prog_busyPolls hidle hready hroomy hsome hdata hpages hpolls hmask hnone hin
  have hparams : v.params = s.params := hv.move.params_eq
  have hvpolls : v.env.statusCalls = s.env.statusCalls := hv.move.statusCalls_eq
  rw [pollLoop_waits hstatus _ _ _ _ (hparams ▸ wipSet_ones hmask)
    (pollsOut_of_noLimit (hparams ▸ hlimit) _)
    (mayWait_of_nothing_left (hparams ▸ hlimit) hvin (hvpolls.trans hpolls)), Run.bind_halt] at hexec
  exact ⟨v, hv, hexec⟩

end Sys2Proof.Machine
end

section
/-!
SUPPORT. How PROG with a usable backend and the default primitives can end, whatever the device answers
(44_page_programmer.md R200, R205, R207, R209).
-/
namespace Sys2Proof.Machine

/-! ## The poll loop -/

/-- The fuel is enough for the polls the loop can still make: those up to POLL_LIMIT, or one for each level of the
script (log 8). -/
structure FuelLeft (fuel npoll : Nat) (s : State) : Prop where
  limited : ∀ l, s.params.pollLimit = some l → npoll < l ∧ l ≤ npoll + fuel
  unlimited : s.params.pollLimit = none → s.env.dataIn.length < fuel

theorem FuelLeft.start {s : State} (hroomy : s.Roomy) : FuelLeft (pollFuel s) 0 s where
  limited := fun l hl => by
    have hpos := hroomy.pollLimit_pos hl
    simp only [pollFuel, hl]
    omega
  unlimited := fun hl => by
    simp only [pollFuel, hl]
    omega

theorem FuelLeft.ne_zero {fuel npoll : Nat} {s : State} (h : FuelLeft fuel npoll s) : fuel ≠ 0 := by
  rintro rfl
  cases hl : s.params.pollLimit with
  | none => exact Nat.not_lt_zero _ (h.unlimited hl)
  | some l =>
    have := h.limited l hl
    omega

theorem lt_of_pollsOut_eq_false {p : Params} {npoll l : Nat} (h : pollsOut p npoll = false)
    (hl : p.pollLimit = some l) : npoll < l := by
  simpa [pollsOut, hl] using h

/-- A poll after which the loop polls on has taken something of the script, when no limit is set. -/
theorem FuelLeft.next {fuel npoll n : Nat} {s t : State} (h : FuelLeft (fuel + 1) npoll s)
    (hparams : t.params = s.params) (hpolls : t.env.statusCalls = []) (hn : n ≠ 0)
    (hin : t.env.dataIn = s.env.dataIn.drop n) (hout : pollsOut t.params (npoll + 1) = false)
    (hwait : mayWait t = false) : FuelLeft fuel (npoll + 1) t where
  limited := fun l hl => by
    have hlt := lt_of_pollsOut_eq_false hout hl
    have hle := h.limited l (hparams ▸ hl)
    omega
  unlimited := fun hl => by
    have hsome : t.env.dataIn.length ≠ 0 := fun hnil => by
      rw [mayWait_of_nothing_left hl (List.length_eq_zero_iff.mp hnil) hpolls] at hwait
      cases hwait
    have hlt := h.unlimited (hparams ▸ hl)
    rw [hin, List.length_drop] at hsome ⊢
    omega

/-- How the poll loop of a page ends. -/
inductive PollEnds (total plen : Nat) (s : State) : Run Byte → Prop where
  | ready (t : State) (move : PollMove s t) (idle : wipSet s.params t.sr = false) :
      PollEnds total plen s (.ok codeOk t)
  | timeout (t : State) (move : PollMove s t) (busy : wipSet s.params t.sr = true)
      (limit : s.params.pollLimit ≠ none) : PollEnds total plen s (.ok codeTimeout t)
  | waits (t : State) (npoll : Nat) (move : PollMove s t) (busy : wipSet s.params t.sr = true)
      (limit : s.params.pollLimit = none) (polled : 1 ≤ npoll) :
      PollEnds total plen s (.halt (t.waitPoll total plen npoll))

theorem PollEnds.after {total plen : Nat} {s t : State} {r : Run Byte} (h : PollMove s t)
    (hr : PollEnds total plen t r) : PollEnds total plen s r := by
  have hparams : t.params = s.params := h.move.params_eq
  cases hr with
  | ready u hu hidle => exact .ready u (h.trans hu) (hparams ▸ hidle)
  | timeout u hu hbusy hlimit => exact .timeout u (h.trans hu) (hparams ▸ hbusy) (hparams ▸ hlimit)
  | waits u npoll hu hbusy hlimit hpolled =>
    exact .waits u npoll (h.trans hu) (hparams ▸ hbusy) (hparams ▸ hlimit) hpolled

theorem pollLimit_of_pollsOut {p : Params} {npoll : Nat} (h : pollsOut p npoll = true) : p.pollLimit ≠ none := by
  intro hnone
  rw [pollsOut_of_noLimit hnone] at h
  cases h

theorem pollLimit_of_mayWait {s : State} (h : mayWait s = true) : s.params.pollLimit = none := by
  simp only [mayWait, Bool.and_eq_true, Option.isNone_iff_eq_none] at h
  exact h.1.1

/-- The poll loop ends in one of three ways, by induction over its fuel, which lasts. -/
theorem pollLoop_ends (total plen fuel npoll : Nat) {s : State} (hready : s.Ready) (hroomy : s.Roomy)
    (hpolls : s.env.statusCalls = []) (hfuel : FuelLeft fuel npoll s) :
    PollEnds total plen s (pollLoop total plen fuel npoll s) := by
  induction fuel generalizing npoll s with
  | zero => exact absurd rfl hfuel.ne_zero
  | succ fuel ih =>
    obtain ⟨sr, t, hstatus, ht, -⟩ := readStatus_ready hready hroomy hpolls
    have hparams : t.params = s.params := ht.move.move.params_eq
    have htpolls : t.env.statusCalls = [] := ht.move.move.statusCalls_eq.trans hpolls
    by_cases hsr : wipSet t.params sr = false
    · rw [pollLoop_ready hstatus _ _ _ _ hsr]
      exact .ready _ ht.move (hparams ▸ hsr)
    have hbusy : wipSet s.params (t.setSr sr).sr = true := hparams ▸ (Bool.not_eq_false _).mp hsr
    by_cases hout : pollsOut t.params (npoll + 1) = true
    · rw [pollLoop_timeout hstatus _ _ _ _ hsr hout]
      exact .timeout _ ht.move hbusy (hparams ▸ pollLimit_of_pollsOut hout)
    rw [Bool.not_eq_true] at hout
    by_cases hwait : mayWait t = true
    · rw [pollLoop_waits hstatus _ _ _ _ hsr hout hwait]
      exact .waits _ _ ht.move hbusy (hparams ▸ pollLimit_of_mayWait hwait) (Nat.le_add_left 1 npoll)
    rw [Bool.not_eq_true] at hwait
    rw [pollLoop_again hstatus _ _ _ _ hsr hout hwait]
    have hbytes : 8 * bytesOfPoll s.params ≠ 0 := by
      rw [bytesOfPoll]
      omega
    have hleft : FuelLeft fuel (npoll + 1) (t.setSr sr) :=
      hfuel.next hparams htpolls hbytes ht.dataIn_eq hout hwait
    exact .after ht.move
      (ih (npoll + 1) (ht.move.move.ready hready) (ht.move.move.roomy hroomy) htpolls hleft)

/-! ## The page loop -/

/-- How PROG's page loop ends. -/
inductive PageLoopEnds (total : Nat) (s : State) : Run Byte → Prop where
  | done (t : State) (move : PagesMove s t) (all : total ≤ t.off) (idle : t = s ∨ wipSet s.params t.sr = false) :
      PageLoopEnds total s (.ok codeOk t)
  | timeout (t : State) (move : PagesMove s t) (inside : t.off < total) (busy : wipSet s.params t.sr = true)
      (limit : s.params.pollLimit ≠ none) : PageLoopEnds total s (.ok codeTimeout t)
  | waits (t : State) (plen npoll : Nat) (move : PagesMove s t) (inside : t.off < total)
      (busy : wipSet s.params t.sr = true) (limit : s.params.pollLimit = none) (polled : 1 ≤ npoll) :
      PageLoopEnds total s (.halt (t.waitPoll total plen npoll))

/-- One page, its device ready in the end, and then the others. -/
theorem PageLoopEnds.after {total : Nat} {s t : State} {r : Run Byte} (h : PagesMove s t)
    (hidle : wipSet s.params t.sr = false) (hr : PageLoopEnds total t r) : PageLoopEnds total s r := by
  have hparams : t.params = s.params := h.params_eq
  cases hr with
  | done u hu hall hlast =>
    refine .done u (h.trans hu) hall (.inr ?_)
    rcases hlast with rfl | hlast
    · exact hidle
    · exact hparams ▸ hlast
  | timeout u hu hinside hbusy hlimit =>
    exact .timeout u (h.trans hu) hinside (hparams ▸ hbusy) (hparams ▸ hlimit)
  | waits u plen npoll hu hinside hbusy hlimit hpolled =>
    exact .waits u plen npoll (h.trans hu) hinside (hparams ▸ hbusy) (hparams ▸ hlimit) hpolled

/-- The page loop ends in one of three ways, by induction over its fuel, which lasts: each page moves OFF on. -/
theorem pageLoop_ends (total fuel : Nat) {s : State} (hready : s.Ready) (hroomy : s.Roomy)
    (hpages : s.env.pageCalls = []) (hpolls : s.env.statusCalls = []) (hfuel : total ≤ s.off + fuel) :
    PageLoopEnds total s (pageLoop total fuel s) := by
  induction fuel generalizing s with
  | zero => exact .done s (.refl s) hfuel (.inl rfl)
  | succ fuel ih =>
    have hpage := hroomy.page_pos
    rcases Nat.lt_or_ge s.off total with hoff | hoff
    · have hplen : min s.params.page (total - s.off) ≠ 0 := by omega
      have hdata := length_pageData s (min s.params.page (total - s.off))
      obtain ⟨t, hprog, ht⟩ := programDefault_ready s.off hready hroomy
        (Nat.le_trans (Nat.le_of_eq hdata) (Nat.min_le_left _ _))
      rw [← programPage_of_none hpages] at hprog
      rw [pageLoop_programmed hoff hplen hprog]
      have hpoll := (pollLoop_ends total (min s.params.page (total - s.off)) (pollFuel t) 0
        (ht.move.move.ready hready) (ht.move.move.roomy hroomy) (ht.move.move.statusCalls_eq.trans hpolls)
        (.start (ht.move.move.roomy hroomy))).after ht.move
      generalize pollLoop total _ (pollFuel t) 0 t = r at hpoll ⊢
      cases hpoll with
      | ready u hu hidle =>
        have hmove : PagesMove s (u.setOff (u.off + u.params.page)) := hu.move.trans rfl
        refine .after hmove hidle (ih (hmove.ready hready) (hmove.roomy hroomy) (hu.pageCalls_eq.trans hpages)
          (hu.move.statusCalls_eq.trans hpolls) ?_)
        rw [setOff_off, hu.off_eq, hu.move.params_eq]
        omega
      | timeout u hu hbusy hlimit =>
        rw [Run.bind_ok, nextPage_stops (by decide)]
        exact .timeout u hu.move (hu.off_eq ▸ hoff) hbusy hlimit
      | waits u npoll hu hbusy hlimit hpolled =>
        exact .waits u _ npoll hu.move (hu.off_eq ▸ hoff) hbusy hlimit hpolled
    · rw [pageLoop_done hoff]
      exact .done s (.refl s) hoff (.inl rfl)

/-- Settles O29, from the three ways the page loop can end. -/
theorem progOutcomes : Obligations.ProgOutcomes := by
  intro s hidle hready hroomy hdata hpages hpolls
  have hends := pageLoop_ends s.progTotal s.progTotal (s := progStart s) hready hroomy hpages hpolls
    (Nat.le_add_left _ _)
  rw [exec_prog_eq hidle hdata]
  generalize pageLoop s.progTotal s.progTotal (progStart s) = r at hends ⊢
  cases hends with
  | done t hmove hall hlast =>
    refine ⟨t.endOp codeOk, rfl, hmove.pres_eq, .inl ⟨rfl, rfl, hall, fun hsome => ?_⟩⟩
    rcases hlast with rfl | hlast
    · exact absurd hall (Nat.not_le.mpr hsome)
    · exact hlast
  | timeout t hmove hinside hbusy hlimit =>
    exact ⟨t.endOp codeTimeout, rfl, hmove.pres_eq, .inr (.inl ⟨rfl, rfl, hinside, hbusy, hlimit⟩)⟩
  | waits t plen npoll hmove hinside hbusy hlimit hpolled =>
    exact ⟨t.waitPoll s.progTotal plen npoll, rfl, hmove.pres_eq,
      .inr (.inr ⟨hmove.top_eq, rfl, rfl, hpolled, hinside, hbusy, hlimit⟩)⟩

end Sys2Proof.Machine
end

section
/-!
SUPPORT. The sequencer follows the pseudocode (10_state.md R61, R62, R63): with a usable backend, the phases of a bit
cell, of a byte and of a frame bring the machine to the state that `xbit`, `xbyteCells`, `bytesLoop` and `frameRun`
give, the sequencing state apart.
-/
namespace Sys2Proof.Machine

theorem Run.bind_eq_ok {α β : Type} {r : Run α} {k : α → State → Run β} {b : β} {t : State}
    (h : r.bind k = .ok b t) : ∃ a s, r = .ok a s ∧ k a s = .ok b t := by
  cases r with
  | ok a s => exact ⟨a, s, rfl, h⟩
  | halt s => cases h
  | fault f => cases h

/-! ## Phases of a running transaction -/

/-- One phase of a transaction, which still runs after it. -/
def TxStep (s t : State) : Prop := txTick s = .ok () t ∧ t.tx.job = s.tx.job

/-- Some phases of a running transaction, none included. -/
inductive TxSteps : State → State → Prop where
  | refl {s : State} : TxSteps s s
  | head {s t u : State} (first : TxStep s t) (others : TxSteps t u) : TxSteps s u

theorem TxSteps.trans {s t u : State} (h : TxSteps s t) (h' : TxSteps t u) : TxSteps s u := by
  induction h with
  | refl => exact h'
  | head hfirst _ ih => exact .head hfirst (ih h')

theorem TxSteps.tail {s t u : State} (h : TxSteps s t) (h' : TxStep t u) : TxSteps s u := h.trans (.head h' .refl)

/-- The byte at POS is being transferred, and every index of the frame is below CAP (R49). -/
def InByte (s : State) : Prop :=
  s.tx.txs = .bytes ∧ s.tx.pos < s.tx.wcnt + s.tx.rcnt ∧ s.tx.wcnt + s.tx.rcnt ≤ s.cap

theorem txTick_bytes {s : State} (h : InByte s) :
    txTick s = (byteTick s.tx.outb s).bind fun ended s =>
      if ended then .ok () (nextByte { storeIn s.tx.pos s.acc s with tx.pos := s.tx.pos + 1 }) else .ok () s := by
  obtain ⟨htxs, hpos, hframe⟩ := h
  have hin : (inScratch s && decide (s.tx.pos < s.cap)) = true := by
    simp only [inScratch, Bool.and_eq_true, decide_eq_true_eq]
    omega
  simp only [txTick, htxs, hin, if_true]

/-- A phase of a bit cell that does not end it. -/
theorem TxStep.of_bitTick {s t : State} (h : InByte s)
    (hbit : bitTick (bitAt s.tx.outb s.tx.bitpos.toNat) s = .ok false t) : TxStep s t := by
  have htx := bitTick_all (bitAt s.tx.outb s.tx.bitpos.toNat) s
  rw [hbit] at htx
  refine ⟨?_, by rw [htx.2]⟩
  rw [txTick_bytes h, byteTick, hbit]
  rfl

/-! ## A bit cell -/

section
variable {s : State} (o : Bit)

theorem bitTick_drive (h : s.Ready) (hph : s.tx.bitph = .drive) :
    bitTick o s = .ok false { s with mosi := o, trace := .mosi o :: s.trace, tx.bitph := .wait1 } := by
  simp only [bitTick, hph, setMosi_ready h, Run.bind_ok]
  rfl

theorem bitTick_wait1 (hph : s.tx.bitph = .wait1) : bitTick o s = .ok false ((delay s).atBitph .rise) := by
  simp only [bitTick, hph]

theorem bitTick_rise (h : s.Ready) (hph : s.tx.bitph = .rise) :
    bitTick o s = .ok false { s with sck := 1, trace := .sck 1 :: s.trace, tx.bitph := .sample } := by
  simp only [bitTick, hph, setSck_ready h, Run.bind_ok]
  rfl

theorem bitTick_sample (h : s.Ready) (hph : s.tx.bitph = .sample) :
    bitTick o s = .ok false
      { s with
        acc := shiftIn s.acc s.dataInNow, trace := .miso s.dataInNow :: s.trace
        env.dataIn := s.env.dataIn.tail, tx.bitph := .wait2 } := by
  simp only [bitTick, hph, getMiso_ready h, Run.bind_ok]
  rfl

theorem bitTick_wait2 (hph : s.tx.bitph = .wait2) : bitTick o s = .ok false ((delay s).atBitph .fall) := by
  simp only [bitTick, hph]

theorem bitTick_fall (h : s.Ready) (hph : s.tx.bitph = .fall) :
    bitTick o s = .ok true { s with sck := 0, trace := .sck 0 :: s.trace, tx.bitph := .drive } := by
  simp only [bitTick, hph, setSck_ready h, Run.bind_ok]
  rfl

end

/-- The machine in a cell once data-out is at `o`. -/
def State.dataDriven (s : State) (o : Bit) : State := { s with mosi := o, trace := .mosi o :: s.trace }

/-- The machine in a cell sending `o` once the clock has risen. -/
def State.clockRisen (s : State) (o : Bit) : State :=
  { s with mosi := o, sck := 1, trace := .sck 1 :: .delay s.halfPeriod :: .mosi o :: s.trace }

/-- The machine in a cell sending `o` once ACC has taken the sample in. -/
def State.dataSampled (s : State) (o : Bit) : State :=
  { s.clockRisen o with
    acc := shiftIn s.acc (s.clockRisen o).dataInNow
    trace := .miso (s.clockRisen o).dataInNow :: (s.clockRisen o).trace, env.dataIn := s.env.dataIn.tail }

/-- What a cell samples is what data-in presents once the clock has risen (R154, R160). -/
theorem xbit_eq_ready {s : State} (h : s.Ready) (o : Bit) :
    xbit o s = .ok (s.clockRisen o).dataInNow
      { s with
        mosi := o, sck := 0, acc := shiftIn s.acc (s.clockRisen o).dataInNow
        trace := (cellEvents o (s.clockRisen o).dataInNow s.halfPeriod).reverse ++ s.trace
        env.dataIn := s.env.dataIn.tail } := by
  obtain ⟨b, hrun, hans⟩ := xbit_ready h o
  have hb : b = (s.clockRisen o).dataInNow := by
    rw [dataInNow_eq]
    simpa [cellEvents, answered, State.clockRisen] using hans
  rw [hrun, ← hb]

/-- The machine in the sequencing state `x`. -/
abbrev State.inSeq (s : State) (x : TxSeq) : State := { s with tx := x }

/-- Five phases bring a bit cell to its falling edge, and that edge to the state of the pseudocode (R62, R160). -/
theorem txSteps_fallingEdge {s t : State} {x : TxSeq} {b : Bit} (hready : s.Ready) (hbyte : InByte (s.inSeq x))
    (hph : x.bitph = .drive) (hcell : xbit (bitAt x.outb x.bitpos.toNat) s = .ok b t) :
    ∃ u : State, TxSteps (s.inSeq x) u ∧ u.tx.job = x.job ∧ InByte u
      ∧ bitTick (bitAt u.tx.outb u.tx.bitpos.toNat) u = .ok true (t.inSeq x) := by
  rw [xbit_eq_ready hready] at hcell
  obtain ⟨rfl, rfl⟩ := Run.ok.inj hcell
  generalize ho : bitAt x.outb x.bitpos.toNat = o
  have hdrive : TxStep (s.inSeq x) ((s.dataDriven o).inSeq { x with bitph := .wait1 }) :=
    .of_bitTick hbyte (ho ▸ bitTick_drive _ hready hph)
  have hwait1 : TxStep ((s.dataDriven o).inSeq { x with bitph := .wait1 })
      ((delay (s.dataDriven o)).inSeq { x with bitph := .rise }) :=
    .of_bitTick hbyte (bitTick_wait1 _ rfl)
  have hrise : TxStep ((delay (s.dataDriven o)).inSeq { x with bitph := .rise })
      ((s.clockRisen o).inSeq { x with bitph := .sample }) :=
    .of_bitTick hbyte (bitTick_rise _ hready rfl)
  have hsample : TxStep ((s.clockRisen o).inSeq { x with bitph := .sample })
      ((s.dataSampled o).inSeq { x with bitph := .wait2 }) :=
    .of_bitTick hbyte (bitTick_sample _ hready rfl)
  have hwait2 : TxStep ((s.dataSampled o).inSeq { x with bitph := .wait2 })
      ((delay (s.dataSampled o)).inSeq { x with bitph := .fall }) :=
    .of_bitTick hbyte (bitTick_wait2 _ rfl)
  have hfall := bitTick_fall o (s := (delay (s.dataSampled o)).inSeq { x with bitph := .fall }) hready rfl
  refine ⟨_, .head hdrive (.head hwait1 (.head hrise (.head hsample (.head hwait2 .refl)))), rfl, hbyte, ?_⟩
  rw [show bitAt _ _ = o from ho, hfall, ← hph]
  rfl

theorem nextByte_job (s : State) : (nextByte s).tx.job = s.tx.job := by
  unfold nextByte
  split <;> rfl

/-- The machine where a byte has ended in `t`: it is stored, and the next one loaded or the tail begun (R61, R63). -/
def State.byteEnded (t : State) (x : TxSeq) : State :=
  nextByte ((storeIn x.pos t.acc t).inSeq { x with bitpos := 7, pos := x.pos + 1 })

/-- A bit cell: BITPOS goes down, or the byte ends (R62). -/
theorem txSteps_cell {s t : State} {x : TxSeq} {b : Bit} (hready : s.Ready) (hbyte : InByte (s.inSeq x))
    (hph : x.bitph = .drive) (hcell : xbit (bitAt x.outb x.bitpos.toNat) s = .ok b t) :
    TxSteps (s.inSeq x) (if x.bitpos = 0 then t.byteEnded x else t.inSeq { x with bitpos := x.bitpos - 1 }) := by
  obtain ⟨u, hsteps, hjob, hubyte, hbit⟩ := txSteps_fallingEdge hready hbyte hph hcell
  refine hsteps.tail ⟨?_, ?_⟩
  · rw [txTick_bytes hubyte, byteTick, hbit]
    by_cases hpos : x.bitpos = 0
    · simp only [Run.bind_ok, if_true, hpos]
      rfl
    · simp only [Run.bind_ok, if_true, hpos, if_false, beq_eq_false_iff_ne.mpr hpos, Bool.false_eq_true]
  · rw [hjob]
    split
    · exact nextByte_job _
    · rfl

/-! ## Bytes -/

theorem xbit_busMove {s t : State} {o b : Bit} (h : xbit o s = .ok b t) : BusMove s t := by
  have hall := xbit_all o s
  rw [h] at hall
  exact hall.1

theorem xbyte_busMove {s t : State} {v u : Byte} (h : xbyte v s = .ok u t) : BusMove s t := by
  have hall := xbyte_all v s
  rw [h] at hall
  exact hall.1

theorem BusMove.ready {s t : State} (h : BusMove s t) (hs : s.Ready) : t.Ready := by
  rw [h.only]
  exact hs

theorem BusMove.cap_eq {s t : State} (h : BusMove s t) : t.cap = s.cap := by rw [h.only]

/-- BITPOS counts down from 7 (R62). -/
theorem bitpos_succ {k : Nat} (hk : k < 7) :
    BitVec.ofNat 3 (k + 1) ≠ 0 ∧ BitVec.ofNat 3 (k + 1) - 1 = BitVec.ofNat 3 k := by
  have hall : ∀ k < 7, BitVec.ofNat 3 (k + 1) ≠ 0 ∧ BitVec.ofNat 3 (k + 1) - 1 = BitVec.ofNat 3 k := by decide
  exact hall k hk

theorem toNat_bitpos {k : Nat} (hk : k < 8) : (BitVec.ofNat 3 k).toNat = k := by
  rw [BitVec.toNat_ofNat]
  exact Nat.mod_eq_of_lt hk

/-- The phases of the cells of bit positions `k` down to 0, by induction over the cells: they bring the byte to its end
(R62, R162). -/
theorem txSteps_cells (k : Nat) {s t : State} {x : TxSeq} (hready : s.Ready) (hbyte : InByte (s.inSeq x))
    (hph : x.bitph = .drive) (hk : k < 8) (hpos : x.bitpos = BitVec.ofNat 3 k)
    (hcells : xbyteCells x.outb (k + 1) s = .ok () t) : TxSteps (s.inSeq x) (t.byteEnded x) := by
  induction k generalizing s x with
  | zero =>
    obtain ⟨b, s1, hcell, hlast⟩ := Run.bind_eq_ok hcells
    cases hlast
    have hsteps := txSteps_cell hready hbyte hph (by rwa [hpos, toNat_bitpos hk])
    rwa [if_pos (show x.bitpos = 0 from hpos)] at hsteps
  | succ k ih =>
    obtain ⟨b, s1, hcell, hothers⟩ := Run.bind_eq_ok hcells
    obtain ⟨hnonzero, hdown⟩ := bitpos_succ (Nat.lt_of_succ_lt_succ hk)
    have hmove := xbit_busMove hcell
    obtain ⟨htxs, hlt, hle⟩ := hbyte
    have hsteps := txSteps_cell hready ⟨htxs, hlt, hle⟩ hph (by rwa [hpos, toNat_bitpos hk])
    rw [if_neg (hpos ▸ hnonzero), hpos, hdown] at hsteps
    exact hsteps.trans
      (ih (hmove.ready hready) ⟨htxs, hlt, hmove.cap_eq ▸ hle⟩ hph (Nat.lt_of_succ_lt hk) rfl hothers)

/-- The sequencing state once the byte `v` is loaded (R63). -/
def TxSeq.loaded (x : TxSeq) (v : Byte) : TxSeq :=
  { x with txs := .bytes, outb := v, bitpos := 7, bitph := .drive }

theorem nextByte_loads {s : State} {x : TxSeq} (h : x.pos < x.wcnt + x.rcnt) :
    nextByte (s.inSeq x) = { s with acc := 0 }.inSeq (x.loaded (s.outAt x.pos)) := if_pos h

theorem nextByte_tail {s : State} {x : TxSeq} (h : x.pos = x.wcnt + x.rcnt) :
    nextByte (s.inSeq x) = s.inSeq { x with txs := .tailWait1 } := if_neg (Nat.not_lt.mpr (Nat.le_of_eq h.symm))

/-- A byte, from its loading on (R63, R162). -/
theorem txSteps_byte {s t : State} {x : TxSeq} {u : Byte} (hready : s.Ready) (hpos : x.pos < x.wcnt + x.rcnt)
    (hcap : x.wcnt + x.rcnt ≤ s.cap) (hbyte : xbyte (s.outAt x.pos) s = .ok u t) :
    TxSteps (nextByte (s.inSeq x))
      (nextByte ((storeIn x.pos u t).inSeq { x.loaded (s.outAt x.pos) with pos := x.pos + 1 })) := by
  obtain ⟨_, s1, hcells, hlast⟩ := Run.bind_eq_ok hbyte
  cases hlast
  rw [nextByte_loads hpos]
  exact txSteps_cells 7 (s := { s with acc := 0 }) hready ⟨rfl, hpos, hcap⟩ rfl (by decide) rfl hcells

/-- The sequencing state at the tail of a frame that has begun in `x`. -/
def AtTail (x y : TxSeq) : Prop :=
  y = { x with
    txs := .tailWait1, pos := x.wcnt + x.rcnt, bitpos := y.bitpos, bitph := y.bitph, outb := y.outb }

/-- The phases of the last `n` bytes of a frame, by induction over the bytes: they bring the machine to the tail of the
frame (R61, R63). -/
theorem txSteps_bytes (n : Nat) {s t : State} {x : TxSeq} (hready : s.Ready) (hlen : x.pos + n = x.wcnt + x.rcnt)
    (hcap : x.wcnt + x.rcnt ≤ s.cap) (hbytes : bytesLoop n x.pos s = .ok () t) :
    ∃ y : TxSeq, TxSteps (nextByte (s.inSeq x)) (t.inSeq y) ∧ AtTail x y := by
  induction n generalizing s x with
  | zero =>
    cases hbytes
    refine ⟨{ x with txs := .tailWait1 }, nextByte_tail hlen ▸ .refl, ?_⟩
    rw [AtTail, ← hlen]
    rfl
  | succ n ih =>
    obtain ⟨u, s1, hbyte, hothers⟩ := Run.bind_eq_ok hbytes
    have hmove := xbyte_busMove hbyte
    have hfirst := txSteps_byte hready (by omega) hcap hbyte
    obtain ⟨y, hsteps, hy⟩ := ih (s := storeIn x.pos u s1)
      (x := { x.loaded (s.outAt x.pos) with pos := x.pos + 1 }) (hmove.ready hready)
      ((Nat.add_right_comm _ _ _).trans hlen) (Nat.le_trans hcap (Nat.le_of_eq hmove.cap_eq.symm)) hothers
    exact ⟨y, hfirst.trans hsteps, hy⟩

/-! ## A frame -/

theorem TxMove.ready {s t : State} (h : TxMove s t) (hs : s.Ready) : t.Ready := by
  rw [h.only]
  exact hs

theorem inScratch_inSeq {s : State} {x : TxSeq} (hpos : x.pos ≤ x.wcnt + x.rcnt) (hcap : x.wcnt + x.rcnt ≤ s.cap) :
    inScratch (s.inSeq x) = true := by
  simp only [inScratch, Bool.and_eq_true, decide_eq_true_eq]
  exact ⟨hcap, hpos⟩

/-- Chip-select is asserted, and the first byte loaded. -/
theorem txStep_assert {s : State} {x : TxSeq} (hready : s.Ready) (htxs : x.txs = .assert)
    (hpos : x.pos ≤ x.wcnt + x.rcnt) (hcap : x.wcnt + x.rcnt ≤ s.cap) :
    TxStep (s.inSeq x)
      (nextByte ({ s with cs := s.params.csAssert, trace := .cs s.params.csAssert :: s.trace }.inSeq
        { x with pos := 0 })) := by
  refine ⟨?_, nextByte_job _⟩
  simp only [txTick, htxs, inScratch_inSeq hpos hcap, if_true]
  rw [setCs_ready (by exact hready)]
  rfl

/-- The tail of a frame, chip-select deasserted between its two delays. -/
theorem txSteps_tail {s : State} {y : TxSeq} (hready : s.Ready) (htxs : y.txs = .tailWait1) :
    TxSteps (s.inSeq y)
      ((delay { delay s with cs := s.params.csDeassert, trace := .cs s.params.csDeassert :: (delay s).trace }).inSeq
        { y with txs := .copy }) := by
  have hfirst : TxStep (s.inSeq y) ((delay s).inSeq { y with txs := .deassert }) := by
    refine ⟨?_, rfl⟩
    simp only [txTick, htxs]
    rfl
  have hcs : TxStep ((delay s).inSeq { y with txs := .deassert })
      ({ delay s with cs := s.params.csDeassert, trace := .cs s.params.csDeassert :: (delay s).trace }.inSeq
        { y with txs := .tailWait2 }) := by
    refine ⟨?_, rfl⟩
    simp only [txTick]
    rw [setCs_ready (by exact hready)]
    rfl
  exact .head hfirst (.head hcs (.head ⟨rfl, rfl⟩ .refl))

/-- The phases of a frame, from chip-select asserted to the last delay (R61, R175). -/
theorem txSteps_frame {s t : State} {x : TxSeq} (hready : s.Ready) (htxs : x.txs = .assert)
    (hpos : x.pos ≤ x.wcnt + x.rcnt) (hcap : x.wcnt + x.rcnt ≤ s.cap)
    (hframe : frameRun (x.wcnt + x.rcnt) s = .ok () t) :
    ∃ y : TxSeq, TxSteps (s.inSeq x) (t.inSeq { y with txs := .copy }) ∧ AtTail x y := by
  rw [frameRun, setCs_ready hready, Run.bind_ok] at hframe
  obtain ⟨_, s1, hbytes, hend⟩ := Run.bind_eq_ok hframe
  have hmove := bytesLoop_all (x.wcnt + x.rcnt) 0
    { s with cs := s.params.csAssert, trace := .cs s.params.csAssert :: s.trace } (by rwa [Nat.zero_add])
  rw [hbytes] at hmove
  have hready1 : s1.Ready := hmove.1.ready hready
  rw [setCs_ready (by exact hready1)] at hend
  cases hend
  obtain ⟨y, hsteps, hy⟩ := txSteps_bytes (x.wcnt + x.rcnt) (x := { x with pos := 0 })
    (s := { s with cs := s.params.csAssert, trace := .cs s.params.csAssert :: s.trace }) hready (Nat.zero_add _) hcap
    hbytes
  have hat : y.txs = .tailWait1 := by rw [hy]
  exact ⟨y, .head (txStep_assert hready htxs hpos hcap) (hsteps.trans (txSteps_tail hready1 hat)), hy⟩

end Sys2Proof.Machine
end

section
/-!
SUPPORT. A poll by the sequencer (44_page_programmer.md R204, R209, R210): the phases of its status transaction bring
the machine to the state that `statusDefault` gives, and PROG, its device still busy, back to its poll loop.
-/
namespace Sys2Proof.Machine

/-! ## The status transaction -/

/-- What a transaction that answers has gone through (R170). -/
theorem transaction_eq_ok {wbytes : List Byte} {r : Nat} {s t : State} {res : Byte × List Byte}
    (h : transaction wbytes r s = .ok res t) :
    res = (codeInvalidLength, [])
      ∨ ∃ s1 : State, wbytes.length + r ≤ s.params.ceiling
        ∧ grow (max (wbytes.length + r) s.params.floor) s = .ok () s1
        ∧ frameRun (wbytes.length + r) (fillScratch wbytes r s1) = .ok () t
        ∧ res = (codeOk, t.inBytes wbytes.length r) := by
  unfold transaction at h
  split at h
  · cases h
    exact .inl rfl
  · rename_i hlen
    obtain ⟨_, s1, hgrow, hrest⟩ := Run.bind_eq_ok h
    obtain ⟨_, s2, hframe, hend⟩ := Run.bind_eq_ok hrest
    cases hend
    exact .inr ⟨s1, Nat.not_lt.mp hlen, hgrow, hframe, rfl⟩

/-- Growth does not look at the sequencing state. -/
theorem grow_inSeq {req : Nat} {s t : State} (h : grow req s = .ok () t) (x : TxSeq) :
    grow req (s.inSeq x) = .ok () (t.inSeq x) := by
  unfold grow at h ⊢
  split at h
  · rename_i hlt
    split at h
    · cases h
    · rename_i hmax
      cases h
      rw [if_pos hlt, if_neg hmax]
      rfl
  · rename_i hle
    cases h
    rw [if_neg hle]

/-- The default ReadStatus that answers has run the whole transaction, and answers the first byte of its response. -/
theorem statusDefault_eq_ok {s t : State} {sr : Byte} (h : statusDefault s = .ok sr t) :
    ∃ s1 : State, 1 + s.params.rdsrReadLen ≤ s.params.ceiling
      ∧ grow (max (1 + s.params.rdsrReadLen) s.params.floor) s = .ok () s1
      ∧ frameRun (1 + s.params.rdsrReadLen) (fillScratch (rdsrBytes s.params) s.params.rdsrReadLen s1) = .ok () t
      ∧ s.params.rdsrReadLen ≠ 0 ∧ sr = t.inAt 1 := by
  obtain ⟨res, u, htx, hend⟩ := Run.bind_eq_ok h
  rcases transaction_eq_ok htx with rfl | ⟨s1, hlen, hgrow, hframe, rfl⟩
  · cases hend
  · have hsome : s.params.rdsrReadLen ≠ 0 := fun hzero => by
      rw [hzero] at hend
      cases hend
    obtain ⟨n, hn⟩ := Nat.exists_eq_succ_of_ne_zero hsome
    have hfirst : u.inBytes (rdsrBytes s.params).length s.params.rdsrReadLen = u.inAt 1 :: u.inBytes 2 n := by
      rw [hn]
      rfl
    rw [hfirst] at hend
    cases hend
    exact ⟨s1, hlen, hgrow, hframe, hsome, rfl⟩

/-- The sequencing state of a status transaction past its length check, at phase `ph`. -/
def rdsrSeq (r : Nat) (ph : TxPhase) : TxSeq := { TxSeq.rest with job := .rdsr, wcnt := 1, rcnt := r, txs := ph }

theorem txStep_rdsr_check {s : State} (h : 1 + s.params.rdsrReadLen ≤ s.params.ceiling) :
    TxStep (s.startTx .rdsr) (s.inSeq (rdsrSeq s.params.rdsrReadLen .alloc)) := by
  have hlen : ¬ (s.startTx .rdsr).params.ceiling < txWriteLen (s.startTx .rdsr) + txReadLen (s.startTx .rdsr) :=
    Nat.not_lt.mpr h
  exact ⟨if_neg hlen, rfl⟩

theorem txStep_rdsr_alloc {s t : State}
    (h : grow (max (1 + s.params.rdsrReadLen) s.params.floor) s = .ok () t) :
    TxStep (s.inSeq (rdsrSeq s.params.rdsrReadLen .alloc)) (t.inSeq (rdsrSeq s.params.rdsrReadLen .fill)) := by
  refine ⟨?_, rfl⟩
  have hgrow := grow_inSeq h (rdsrSeq s.params.rdsrReadLen .alloc)
  simp only [txTick, rdsrSeq] at hgrow ⊢
  rw [hgrow]
  rfl

theorem txStep_rdsr_fill {s : State} (h : 1 + s.params.rdsrReadLen ≤ s.cap) :
    TxStep (s.inSeq (rdsrSeq s.params.rdsrReadLen .fill))
      ((fillScratch (rdsrBytes s.params) s.params.rdsrReadLen s).inSeq
        (rdsrSeq s.params.rdsrReadLen .assert)) := by
  have hin : inScratch (s.inSeq (rdsrSeq s.params.rdsrReadLen .fill)) = true := inScratch_inSeq (Nat.zero_le _) h
  have hfits : (inScratch (s.inSeq (rdsrSeq s.params.rdsrReadLen .fill))
      && decide (1 + s.params.rdsrReadLen ≤ s.cap)) = true := by
    rw [hin, decide_eq_true h]
    rfl
  exact ⟨if_pos hfits, rfl⟩

theorem txStep_rdsr_copy {s : State} {y : TxSeq} (hy : AtTail (rdsrSeq s.params.rdsrReadLen .assert) y)
    (hsome : s.params.rdsrReadLen ≠ 0) (hcap : 1 + s.params.rdsrReadLen ≤ s.cap) :
    TxStep (s.inSeq { y with txs := .copy }) ((s.setSr (s.inAt 1)).inSeq { y with txs := .done }) := by
  have hjob : y.job = .rdsr := by rw [hy]; rfl
  have hwcnt : y.wcnt = 1 := by rw [hy]; rfl
  have hrcnt : y.rcnt = s.params.rdsrReadLen := by rw [hy]; rfl
  have hpos : y.pos = 1 + s.params.rdsrReadLen := by rw [hy]; rfl
  have hin : inScratch (s.inSeq { y with txs := .copy }) = true :=
    inScratch_inSeq (by simp only [hpos, hwcnt, hrcnt, Nat.le_refl]) (by simpa only [hwcnt, hrcnt] using hcap)
  have hcopy : txCopy (s.inSeq { y with txs := .copy })
      = .ok () ((s.setSr (s.inAt 1)).inSeq { y with txs := .copy }) := by
    simp only [txCopy, hjob, hrcnt, hwcnt, if_neg hsome]
    rfl
  refine ⟨?_, rfl⟩
  simp only [txTick, hin, if_true, hcopy]
  rfl

/-- The phases of a status transaction bring the machine to where `statusDefault` brings it, SR set to its answer. -/
theorem txSteps_rdsr {s t : State} {sr : Byte} (hready : s.Ready) (h : statusDefault s = .ok sr t) :
    ∃ y : TxSeq, TxSteps (s.startTx .rdsr) ((t.setSr sr).inSeq y) ∧ y.job = .rdsr ∧ y.txs = .done := by
  obtain ⟨s1, hlen, hgrow, hframe, hsome, rfl⟩ := statusDefault_eq_ok h
  have hgrown := grow_all (max (1 + s.params.rdsrReadLen) s.params.floor) s (Nat.le_max_right _ _)
  rw [hgrow] at hgrown
  obtain ⟨hmove1, hcap1, -⟩ := hgrown
  have hcap1 : 1 + s.params.rdsrReadLen ≤ s1.cap := Nat.le_trans (Nat.le_max_left _ _) hcap1
  have hmove := frameRun_all (1 + s.params.rdsrReadLen)
    (fillScratch (rdsrBytes s.params) s.params.rdsrReadLen s1) hcap1
  rw [hframe] at hmove
  have hp1 := hmove1.params_eq
  have hpt : t.params = s.params := hmove.1.params_eq.trans hp1
  have hfill := txStep_rdsr_fill (s := s1) (by rwa [hp1])
  rw [hp1] at hfill
  obtain ⟨y, hsteps, hy⟩ := txSteps_frame
    (s := fillScratch (rdsrBytes s.params) s.params.rdsrReadLen s1)
    (x := rdsrSeq s.params.rdsrReadLen .assert) (hmove1.ready hready) rfl (Nat.zero_le _) hcap1 hframe
  have hcopy := txStep_rdsr_copy (s := t) (y := y) (by rwa [hpt]) (by rwa [hpt])
    (by rw [hpt]; exact Nat.le_trans hcap1 hmove.1.cap_le)
  exact ⟨_, .head (txStep_rdsr_check hlen) (.head (txStep_rdsr_alloc hgrow) (.head hfill (hsteps.tail hcopy))),
    by rw [hy]; rfl, rfl⟩

/-! ## PROG's poll -/

@[simp] theorem statusReturned_top (sr : Byte) (s : State) : (statusReturned sr s).top = s.top := rfl
@[simp] theorem statusReturned_off (sr : Byte) (s : State) : (statusReturned sr s).off = s.off := rfl
@[simp] theorem statusReturned_env (sr : Byte) (s : State) : (statusReturned sr s).env = s.env := rfl
@[simp] theorem statusReturned_npoll (sr : Byte) (s : State) :
    (statusReturned sr s).pp.npoll = s.pp.npoll + 1 := rfl

/-- Some steps of the machine bring it from `s` to `t`. -/
def RunsTo (s t : State) : Prop := ∃ k : Nat, Host.Core.run core k s = .next t

theorem RunsTo.refl (s : State) : RunsTo s s := ⟨0, rfl⟩

theorem RunsTo.head {s t u : State} (h : step s = .next t) (h' : RunsTo t u) : RunsTo s u := by
  obtain ⟨k, hk⟩ := h'
  exact ⟨k + 1, (run_succ_of_step h k).trans hk⟩

/-- While the host does nothing, a phase of PROG's transaction is a step, after which that is still so. -/
theorem TxStep.step_prog {s t : State} (h : TxStep s t) (hhost : s.env.host = []) (htop : s.top = .run .prog)
    (hjob : s.tx.job ≠ .none) :
    step s = .next t ∧ t.env.host = [] ∧ t.top = .run .prog ∧ t.tx.job ≠ .none := by
  obtain ⟨htick, htjob⟩ := h
  have hall := txTick_all s
  rw [htick] at hall
  obtain ⟨evs, -, hphase⟩ := hall
  refine ⟨(step_noHost hhost).trans (tick_prog_txTick htop hjob htick), ?_, ?_, by rwa [htjob]⟩
  · rw [hphase.only]
    exact hhost
  · rw [hphase.only]
    exact htop

theorem TxSteps.runsTo {s t u : State} (h : TxSteps s t) (hhost : s.env.host = []) (htop : s.top = .run .prog)
    (hjob : s.tx.job ≠ .none) (hu : RunsTo t u) : RunsTo s u := by
  induction h with
  | refl => exact hu
  | head hfirst _ ih =>
    obtain ⟨hstep, hhost', htop', hjob'⟩ := hfirst.step_prog hhost htop hjob
    exact .head hstep (ih hhost' htop' hjob' hu)

theorem busyBit_of_run {s : State} {op : Op} (h : s.top = .run op) : s.busyBit = 1 := by
  simp only [State.busyBit, h]

/-- A step of PROG between two transactions. -/
theorem step_prog_goesOn {s t : State} (hhost : s.env.host = []) (htop : s.top = .run .prog)
    (hjob : s.tx.job = .none) (h : ppTick s = .ok () t) : step s = .next t :=
  (step_noHost hhost).trans (tick_prog_goesOn htop hjob h)

/-- From its poll loop, by a whole poll that finds the device busy, PROG comes back to its poll loop (R209, R210). -/
theorem runsTo_poll {s t : State} {sr : Byte} (hhost : s.env.host = []) (htop : s.top = .run .prog)
    (hjob : s.tx.job = .none) (hpps : s.pp.pps = .poll) (hcalls : s.env.statusCalls = []) (hready : s.Ready)
    (hstatus : statusDefault s = .ok sr t) (hmove : PagesMove s t) (hbusy : wipSet s.params sr ≠ false)
    (hlimit : s.params.pollLimit = none) : RunsTo s ((statusReturned sr (t.setSr sr)).atPps .poll) := by
  obtain ⟨y, hsteps, hyjob, hytxs⟩ := txSteps_rdsr hready hstatus
  have hthost : t.env.host = [] := by
    rw [hmove]
    exact hhost
  have httop : t.top = .run .prog := hmove.top_eq.trans htop
  have hbegin : step s = .next (s.startTx .rdsr) :=
    step_prog_goesOn hhost htop hjob (ppTick_poll_default hpps hcalls)
  have hdone := txTick_rdsr_done (s := (t.setSr sr).inSeq y) hyjob hytxs
  have hreturn : step ((t.setSr sr).inSeq y) = .next (statusReturned sr ((t.setSr sr).inSeq y)) :=
    (step_noHost (s := (t.setSr sr).inSeq y) hthost).trans (tick_prog_txTick httop (by simp [hyjob]) hdone)
  have htest : step (statusReturned sr ((t.setSr sr).inSeq y))
      = .next ((statusReturned sr ((t.setSr sr).inSeq y)).atPps .poll) :=
    step_prog_goesOn hthost httop rfl
      (ppTick_test_again rfl (hmove.params_eq ▸ hbusy) (pollsOut_of_noLimit (hmove.params_eq ▸ hlimit) _))
  exact .head hbegin
    (hsteps.runsTo hhost htop (by simp) (.head hreturn (.head htest (.refl _))))

/-- Settles O32: PROG comes to its poll loop by its call, and back to it by the phases of each poll. -/
theorem pollingNeverEnds : Obligations.PollingNeverEnds := by
  refine ⟨fun s m hidle hready hroomy hsome hdata hpages hpolls hlimit hmask hm hin => ?_,
    fun s rest htop hjob hpps hready hroomy hlimit hmask hhost hpolls hin => ?_⟩
  · obtain ⟨n, rfl⟩ := Nat.exists_eq_succ_of_ne_zero (Nat.ne_of_gt hm)
    obtain ⟨t, hmove, hexec⟩ :=
      exec_prog_waits hidle hready hroomy hsome hdata hpages hpolls hlimit hmask hin
    have httop : t.top = .run .prog := hmove.move.top_eq
    exact ⟨_, hexec, busyBit_of_run httop, httop, rfl, rfl, rfl, hmove.off_eq, rfl⟩
  · obtain ⟨sr, t, hstatus, ht, hheld⟩ := statusDefault_ready hready hroomy
    obtain rfl := hheld 1 rest hin
    have hmove := ht.move.move
    obtain ⟨k, hrun⟩ :=
      runsTo_poll hhost htop hjob hpps hpolls hready hstatus hmove (wipSet_ones hmask) hlimit
    have httop : t.top = .run .prog := hmove.top_eq.trans htop
    have hnpoll : t.pp.npoll = s.pp.npoll := by rw [hmove]
    have hthost : t.env.host = [] := by
      rw [hmove]
      exact hhost
    have hrest : t.env.dataIn = rest := ht.left (m := 0) hin
    have hutop : ((statusReturned (heldByte 1) (t.setSr (heldByte 1))).atPps .poll).top = .run .prog := by
      simp [httop]
    refine ⟨k, _, hrun, busyBit_of_run hutop, hutop, rfl, rfl, ?_⟩
    simp [hnpoll, ht.move.off_eq, hthost, hrest]

end Sys2Proof.Machine
end

section
/-!
SUPPORT. Bus initialisation (45_bus_init.md R230, R231): what INIT's pseudocode does with a valid backend and with an
invalid one.
-/
namespace Sys2Proof.Machine

theorem exec_init_idle {s : State} (h : s.top = .idle) : exec .init s = finish (runInit (s.accept .init)) :=
  issue_idle h .init fun s => finish (runInit s)

theorem runInit_invalidBackend {s : State} (h : s.ops.cfgBackend ∉ s.params.validBackends) :
    runInit s = .ok codeInvalidBackend (initLatch s) :=
  if_pos h

/-- The two pin primitives resolve through the selector INIT has just latched, so it is CFG_BACKEND that has to be
usable (R150, R230). -/
theorem runInit_validBackend {s : State} (hvalid : s.ops.cfgBackend ∈ s.params.validBackends)
    (hsure : s.params.backendFallible = false) :
    runInit s = .ok codeOk
      { initLatch s with
        cs := s.params.csDeassert, sck := 0, trace := [.sck 0, .cs s.params.csDeassert] ++ s.trace } := by
  have hready : (initLatch s).Ready := ⟨hvalid, hsure⟩
  have hready' : State.Ready
      { initLatch s with cs := s.params.csDeassert, trace := .cs s.params.csDeassert :: (initLatch s).trace } := hready
  rw [runInit, if_neg (not_not_intro hvalid), setCs_ready hready, Run.bind_ok, setSck_ready hready', Run.bind_ok]
  rfl

/-- Settles O12: after acceptance INIT runs on the latched selector, and its end keeps what it latched and drove. -/
theorem initLatchesAndDrives : Obligations.InitLatchesAndDrives := by
  intro s hidle
  rw [exec_init_idle hidle]
  refine ⟨fun hvalid hsure => ?_, fun hinvalid => ?_⟩
  · rw [runInit_validBackend (s := s.accept .init) hvalid hsure]
    rfl
  · rw [runInit_invalidBackend (s := s.accept .init) hinvalid]
    rfl

end Sys2Proof.Machine
end

section
/-!
SUPPORT. Commands and other host actions while the block is not idle (60_exceptions.md R251, R262): a command is
discarded whole whatever its form, and in FATAL nothing but OVR is left to change.
-/
namespace Sys2Proof.Machine

/-! ## Commands while BUSY or FATAL -/

theorem stageExec_notIdle {s : State} (h : s.top ≠ .idle) (wbytes : List Byte) (r : Nat) :
    stageExec wbytes r s = s := if_neg h

/-- A called operation is discarded by the issue rule (R262). -/
theorem exec_op_notIdle {s : State} (h : s.top ≠ .idle) (op : Op) : exec op.instr s = .next { s with ovr := 1 } := by
  cases op with
  | init => exact issue_notIdle h .init fun s => finish (runInit s)
  | xbit => exact issue_notIdle h .xbit fun s => finish (runXbit s)
  | xbyte => exact issue_notIdle h .xbyte fun s => finish (runXbyte s)
  | exec => exact issue_notIdle h .exec fun s => finish (runExec s)
  | read => exact issue_notIdle h .read fun s => finish (runRead s)
  | prog =>
    rw [Op.instr, exec, execProg]
    exact issue_notIdle h .prog _

/-- A line `EXEC` is discarded whole, its bytes for HW with it (R262; log 22). -/
theorem exec_line_notIdle {s : State} (h : s.top ≠ .idle) (wbytes : List Byte) (r : Nat) :
    exec .exec (stageExec wbytes r s) = .next { s with ovr := 1 } := by
  rw [stageExec_notIdle h]
  exact exec_op_notIdle h .exec

/-- Every instruction is an operation or a line `EXEC` (R138). -/
theorem exec_notIdle {s : State} (h : s.top ≠ .idle) (i : Instr) : exec i s = .next { s with ovr := 1 } := by
  cases i with
  | init => exact exec_op_notIdle h .init
  | xbit => exact exec_op_notIdle h .xbit
  | xbyte => exact exec_op_notIdle h .xbyte
  | exec => exact exec_op_notIdle h .exec
  | read => exact exec_op_notIdle h .read
  | prog => exact exec_op_notIdle h .prog
  | rdsr => exact exec_line_notIdle h _ _
  | wren => exact exec_line_notIdle h _ _
  | pp addr data => exact exec_line_notIdle h _ _
  | rd addr n => exact exec_line_notIdle h _ _

theorem illegalCommand_notIdle {s : State} (h : s.top ≠ .idle) : illegalCommand s = { s with ovr := 1 } := if_neg h

theorem writeCmd_notIdle {s : State} (h : s.top ≠ .idle) (v : Word) : writeCmd v s = .next { s with ovr := 1 } :=
  if_neg h

theorem step_call_notIdle {s : State} (h : s.top ≠ .idle) {w : Word} {rest : List HostAct}
    (hhost : s.env.host = .call w :: rest) : step s = .next { s with ovr := 1, env.host := rest } := by
  have hrest : (s.withHost rest).top ≠ .idle := h
  simp only [step, hhost]
  split
  · rw [exec_notIdle hrest]
    rfl
  · rw [illegalCommand_notIdle hrest]
    rfl

theorem step_write {s : State} {off v : Word} {rest : List HostAct} (hhost : s.env.host = .write off v :: rest) :
    step s = hostWrite off v (s.withHost rest) := by
  simp only [step, hhost]

theorem step_writeCmd_notIdle {s : State} (h : s.top ≠ .idle) {w : Word} {rest : List HostAct}
    (hhost : s.env.host = .write 0x00 w :: rest) : step s = .next { s with ovr := 1, env.host := rest } :=
  (step_write hhost).trans (writeCmd_notIdle (s := s.withHost rest) h w)

theorem step_frame_notIdle {s : State} (h : s.top ≠ .idle) {wbytes : List Byte} {r : Nat} {rest : List HostAct}
    (hhost : s.env.host = .frame wbytes r :: rest) : step s = .next { s with ovr := 1, env.host := rest } := by
  have hrest : (s.withHost rest).top ≠ .idle := h
  simp only [step, hhost]
  split
  · rw [exec_notIdle hrest]
    rfl
  · rw [exec_line_notIdle hrest]
    rfl

/-- Settles O10: each form of a command, taken off the host's list, is discarded by the issue rule alone. -/
theorem commandDiscardedUnlessIdle : Obligations.CommandDiscardedUnlessIdle := by
  intro s h
  refine ⟨exec_notIdle h, fun w rest hhost => ?_, fun wbytes r rest hhost => step_frame_notIdle h hhost⟩
  rcases hhost with hcall | hwrite
  · exact step_call_notIdle h hcall
  · exact step_writeCmd_notIdle h hwrite

/-! ## FATAL -/

/-- Between `s` and `t` nothing of the block has changed but OVR, and of the outside world only the host has moved. -/
def OnlyOverrun (s t : State) : Prop :=
  t = { s with ovr := t.ovr, env := { s.env with host := t.env.host, hostRead := t.env.hostRead } }

theorem OnlyOverrun.refl (s : State) : OnlyOverrun s s := rfl

theorem OnlyOverrun.withHost {s t : State} {rest : List HostAct} (h : OnlyOverrun (s.withHost rest) t) :
    OnlyOverrun s t := h

theorem OnlyOverrun.hostGets (s : State) (v : Word) : OnlyOverrun s (s.hostGets v) := rfl

section
variable {s t : State} (hfatal : s.top = .fatal)
include hfatal

theorem notIdle_of_fatal : s.top ≠ .idle := by simp [hfatal]

theorem busyBit_of_fatal : s.busyBit = 0 := by simp [State.busyBit, hfatal]

theorem tick_fatal : tick s = .next s := by simp only [tick, hfatal]

theorem hostWrite_fatal {off v : Word} (h : hostWrite off v s = .next t) : OnlyOverrun s t := by
  have hidle := notIdle_of_fatal hfatal
  simp only [hostWrite, writeCmd_notIdle hidle, if_neg hidle] at h
  split at h
  · cases h
  · split at h <;> cases h <;> rfl

theorem hostReadReg_fatal {off : Word} (h : hostReadReg off s = .next t) : OnlyOverrun s t := by
  rcases hostReadReg_cases off s with ⟨-, e⟩ | ⟨-, hbusy, -⟩ | ⟨-, -, e⟩
  · rw [e] at h
    cases h
  · rw [busyBit_of_fatal hfatal] at hbusy
    exact absurd hbusy (by decide)
  · rw [e] at h
    cases h
    exact .hostGets s _

theorem hostPoll_fatal {rest : List HostAct} (h : hostPoll rest s = .next t) : OnlyOverrun s t := by
  simp only [hostPoll, State.busy, busyBit_of_fatal hfatal] at h
  cases h
  rfl

theorem hostPutHw_fatal {addr : Word} {b : Byte} (h : hostPutHw addr b s = .next t) : OnlyOverrun s t := by
  simp only [hostPutHw, hfatal] at h
  cases h
  rfl

theorem hostGetHr_fatal {addr : Word} (h : hostGetHr addr s = .next t) : OnlyOverrun s t := by
  simp only [hostGetHr, hfatal] at h
  cases h
  rfl

end

/-- Settles O44, action by action: a command sets OVR, and no other action of the host but a reset writes the block. -/
theorem fatalIsFinal : Obligations.FatalIsFinal := by
  intro s t hfatal hreset h
  change OnlyOverrun s t
  have hidle := notIdle_of_fatal hfatal
  match hhost : s.env.host with
  | [] =>
    rw [step_noHost hhost, tick_fatal hfatal] at h
    cases h
    rfl
  | .wait :: rest =>
    simp only [step, hhost, tick_fatal (s := s.withHost rest) hfatal] at h
    cases h
    rfl
  | .poll :: rest =>
    simp only [step, hhost] at h
    exact hostPoll_fatal hfatal h
  | .call w :: rest =>
    rw [step_call_notIdle hidle hhost] at h
    cases h
    rfl
  | .frame wbytes r :: rest =>
    rw [step_frame_notIdle hidle hhost] at h
    cases h
    rfl
  | .write off v :: rest =>
    rw [step_write hhost] at h
    exact (hostWrite_fatal (s := s.withHost rest) hfatal h).withHost
  | .read off :: rest =>
    simp only [step, hhost] at h
    exact (hostReadReg_fatal (s := s.withHost rest) hfatal h).withHost
  | .putHw addr b :: rest =>
    rw [step_putHw hhost] at h
    exact (hostPutHw_fatal (s := s.withHost rest) hfatal h).withHost
  | .getHr addr :: rest =>
    rw [step_getHr hhost] at h
    exact (hostGetHr_fatal (s := s.withHost rest) hfatal h).withHost
  | .reset :: rest => exact absurd (by rw [hhost]; rfl) hreset

end Sys2Proof.Machine
end

section
/-!
SUPPORT. How an operation ends in FATAL before its first event (60_exceptions.md R242, R245, R248): where the buffers
cannot grow, without a valid backend, and at a pin-driver call that fails.
-/
namespace Sys2Proof.Machine

@[simp] theorem finish_halt (s : State) : finish (.halt s) = .next s := rfl

theorem exec_xbit_idle {s : State} (h : s.top = .idle) : exec .xbit s = finish (runXbit (s.accept .xbit)) :=
  issue_idle h .xbit fun s => finish (runXbit s)

theorem exec_xbyte_idle {s : State} (h : s.top = .idle) : exec .xbyte s = finish (runXbyte (s.accept .xbyte)) :=
  issue_idle h .xbyte fun s => finish (runXbyte s)

/-- EXEC stops where its transaction does (R182). -/
theorem exec_exec_halt {s t : State} (hidle : s.top = .idle) (hlen : s.wLen + s.rLen ≤ s.params.ceiling)
    (h : transaction (s.hwBytes 0 s.wLen) s.rLen (s.accept .exec) = .halt t) : exec .exec s = .next t := by
  have h' : transaction ((s.accept .exec).hwBytes 0 (s.accept .exec).wLen) (s.accept .exec).rLen (s.accept .exec)
      = .halt t := h
  rw [exec_exec_idle hidle, runExec_withinCeiling (s := s.accept .exec) hlen, h', Run.bind_halt, finish_halt]

/-! ## Allocation -/

theorem grow_allocationFailure {s : State} {req : Nat} (hcap : s.cap < req) (hmax : s.params.bufMax < req) :
    grow req s = .halt (s.raiseFatal codeAllocationFailure) := by
  rw [grow, if_pos hcap, if_pos hmax]

/-- AllocationFailure: step 1 has ended the transaction, no event and CAP as it was (R173, R242). -/
theorem transaction_allocationFailure {wbytes : List Byte} {r : Nat} {s : State}
    (hlen : wbytes.length + r ≤ s.params.ceiling) (hcap : s.cap < max (wbytes.length + r) s.params.floor)
    (hmax : s.params.bufMax < max (wbytes.length + r) s.params.floor) :
    transaction wbytes r s = .halt (s.raiseFatal codeAllocationFailure) := by
  rw [transaction, if_neg (Nat.not_lt.mpr hlen), grow_allocationFailure hcap hmax, Run.bind_halt]

/-- Settles O22: growth fails in step 1, and EXEC's transaction is of WCOUNT + RCOUNT bytes. -/
theorem allocationFailureIsFatal : Obligations.AllocationFailureIsFatal := by
  intro s
  refine ⟨fun wbytes r hlen hcap hmax => transaction_allocationFailure hlen hcap hmax, ?_⟩
  rintro n hidle rfl hlen hcap hmax
  have hw := length_hwBytes s 0 s.wLen
  exact exec_exec_halt hidle hlen
    (transaction_allocationFailure (s := s.accept .exec) (by rwa [hw]) (by rwa [hw]) (by rwa [hw]))

/-! ## A pin primitive that stops -/

/-- A bit cell, and with it XBIT, stops where its first primitive does (R160). -/
theorem xbit_halt {o : Bit} {s t : State} (h : setMosi o s = .halt t) : xbit o s = .halt t := by
  rw [xbit, h, Run.bind_halt]

theorem runXbit_halt {s t : State} (h : setMosi s.argBit s = .halt t) : runXbit s = .halt t := by
  rw [runXbit, xbit_halt h, Run.bind_halt]

/-- XBYTE stops where the first primitive of its first cell does, ACC cleared (R162). -/
theorem runXbyte_halt {s t : State} (h : setMosi (bitAt s.ops.arg 7) { s with acc := 0 } = .halt t) :
    runXbyte s = .halt t := by
  rw [runXbyte, xbyte, xbyteCells, xbit_halt h, Run.bind_halt, Run.bind_halt, Run.bind_halt]

/-! ## No valid backend -/

/-- READ's loop stops where the transaction of its next chunk does (R190). -/
theorem readLoop_halt {start length done : Nat} {s t : State} (hdone : done < length)
    (hsome : chunkLen s.params length done ≠ 0)
    (h : transaction (rdBytes s.params (start + done)) (chunkLen s.params length done) s = .halt t) (fuel : Nat) :
    readLoop start length (fuel + 1) done s = .halt t := by
  rw [readLoop, if_pos hdone, if_neg hsome, h, Run.bind_halt]

/-- PROG's loop stops where ProgramPage of its next page does (R200). -/
theorem pageLoop_halt {total : Nat} {s t : State} (hoff : s.off < total)
    (hplen : min s.params.page (total - s.off) ≠ 0)
    (h : programPage s.off (s.pageData (min s.params.page (total - s.off))) s = .halt t) (fuel : Nat) :
    pageLoop total (fuel + 1) s = .halt t := by
  simp only [pageLoop, if_pos hoff, if_neg hplen, h, Run.bind_halt]

/-- The first chunk of READ in a roomy build (R190, R191, R245). -/
theorem runRead_noBackend {s : State} (hsel : s.backendSel ∉ s.params.validBackends) (hroomy : s.Roomy)
    (hlen : 0 < s.readLen) :
    ∃ (n : Nat) (ob ib : Memory), runRead s = .halt
      ({ s with cap := max s.cap n, outBuf := ob, inBuf := ib }.raiseFatal codeNoBackend) := by
  obtain ⟨hpos, hceiling, hbuf⟩ := hroomy.chunk
  have hw := length_rdBytes s.params (s.startOff + 0)
  have hle : chunkLen s.params s.readLen 0 ≤ s.params.chunkDataMax := Nat.min_le_right _ _
  have hsome : chunkLen s.params s.readLen 0 ≠ 0 := by
    simp only [chunkLen]
    omega
  obtain ⟨ob, ib, htx⟩ := transaction_noBackend (rdBytes s.params (s.startOff + 0)) (chunkLen s.params s.readLen 0)
    hsel (by omega) (by omega)
  have hturn := readLoop_halt hlen hsome htx (s.readLen - 1)
  rw [Nat.sub_add_cancel hlen] at hturn
  exact ⟨_, ob, ib, hturn⟩

/-- A frame of PROG's that reads nothing (R203, R245). -/
theorem transaction_writeOnly_noBackend {wbytes : List Byte} {s : State}
    (hsel : s.backendSel ∉ s.params.validBackends) (hroomy : s.Roomy)
    (hlen : wbytes.length ≤ 1 + s.params.addrBytes + s.params.page) :
    ∃ (n : Nat) (ob ib : Memory), transaction wbytes 0 s = .halt
      ({ s with cap := max s.cap n, outBuf := ob, inBuf := ib }.raiseFatal codeNoBackend) := by
  obtain ⟨hceiling, hbuf⟩ := hroomy.progFrame (.inl hlen)
  exact ⟨_, transaction_noBackend wbytes 0 hsel hceiling hbuf⟩

/-- The default ProgramPage stops in its first frame, WREN's where the build sends one (R203, R245). -/
theorem programDefault_noBackend (off : Nat) {data : List Byte} {s : State}
    (hsel : s.backendSel ∉ s.params.validBackends) (hroomy : s.Roomy) (hlen : data.length ≤ s.params.page) :
    ∃ (n : Nat) (ob ib : Memory), programDefault off data s = .halt
      ({ s with cap := max s.cap n, outBuf := ob, inBuf := ib }.raiseFatal codeNoBackend) := by
  unfold programDefault
  split
  · have hwren : (wrenBytes s.params).length ≤ 1 + s.params.addrBytes + s.params.page := by
      simp only [wrenBytes, List.length_singleton]
      omega
    obtain ⟨n, ob, ib, htx⟩ := transaction_writeOnly_noBackend hsel hroomy hwren
    exact ⟨n, ob, ib, by rw [htx, Run.bind_halt]⟩
  · have hpp : (ppBytes s.params off data).length ≤ 1 + s.params.addrBytes + s.params.page := by
      rw [length_ppBytes]
      omega
    obtain ⟨n, ob, ib, htx⟩ := transaction_writeOnly_noBackend hsel hroomy hpp
    exact ⟨n, ob, ib, by rw [htx, Run.bind_halt]⟩

/-- The first page of PROG in a roomy build (R200, R202, R245). -/
theorem exec_prog_noBackend {s : State} (hidle : s.top = .idle) (hsel : s.backendSel ∉ s.params.validBackends)
    (hroomy : s.Roomy) (hsome : 0 < s.progTotal) (hdata : s.progTotal ≤ hostSpaceSize)
    (hpages : s.env.pageCalls = []) :
    ∃ (n : Nat) (ob ib : Memory), exec .prog s = .next
      ({ progStart s with cap := max s.cap n, outBuf := ob, inBuf := ib }.raiseFatal codeNoBackend) := by
  have hdatalen := length_pageData (progStart s) (min s.params.page s.progTotal)
  obtain ⟨n, ob, ib, hprog⟩ := programDefault_noBackend (s := progStart s) 0
    (data := (progStart s).pageData (min s.params.page s.progTotal)) hsel hroomy
    (Nat.le_trans (Nat.le_of_eq hdatalen) (Nat.min_le_left _ _))
  rw [← programPage_of_none (s := progStart s) hpages] at hprog
  have hturn := pageLoop_halt (s := progStart s) hsome (first_page_nonempty hroomy hsome) hprog (s.progTotal - 1)
  rw [Nat.sub_add_cancel hsome] at hturn
  exact ⟨n, ob, ib, by rw [exec_prog_eq hidle hdata, hturn, finish_halt]; rfl⟩

/-- Settles O23: each operation stops in its first bit cell, or in the chip-select of its first frame. -/
theorem noBackendIsFatal : Obligations.NoBackendIsFatal := by
  intro s hidle hsel
  refine ⟨?_, ?_, ?_, fun hroomy hlen => ?_, fun hroomy hsome hdata hpages => ?_⟩
  · rw [exec_xbit_idle hidle, runXbit_halt (setMosi_noBackend (s := s.accept .xbit) hsel _)]
    rfl
  · rw [exec_xbyte_idle hidle,
      runXbyte_halt (setMosi_noBackend (s := { s.accept .xbyte with acc := 0 }) hsel _)]
    rfl
  · rintro n rfl hlen hbuf
    have hw := length_hwBytes s 0 s.wLen
    obtain ⟨ob, ib, htx⟩ := transaction_noBackend (s := s.accept .exec) (s.hwBytes 0 s.wLen) s.rLen hsel
      (by rwa [hw]) (by rwa [hw])
    rw [hw] at htx
    exact ⟨ob, ib, exec_exec_halt hidle hlen htx⟩
  · obtain ⟨n, ob, ib, hrun⟩ := runRead_noBackend (s := s.accept .read) hsel hroomy hlen
    refine ⟨n, ob, ib, ?_⟩
    rw [exec_read_idle hidle, hrun]
    rfl
  · exact exec_prog_noBackend hidle hsel hroomy hsome hdata hpages

/-! ## A pin-driver call that fails -/

/-- A scripted failure of the next pin-driver call (R248; log 6). -/
theorem resolve_backendFault {s : State} {rest : List Bool} (hsel : s.backendSel ∈ s.params.validBackends)
    (hfallible : s.params.backendFallible = true) (hfault : s.env.pinFaults = true :: rest) :
    resolve s = .halt ({ s with env.pinFaults := rest }.raiseFatal codeBackendFault) := by
  simp only [resolve, if_pos hsel, hfallible, if_true, hfault]

/-- A primitive stops where the selector does, its latch unchanged and nothing emitted (R150 to R154). -/
theorem primitives_halt {s t : State} (h : resolve s = .halt t) :
    (∀ l, setCs l s = .halt t) ∧ (∀ l, setSck l s = .halt t) ∧ (∀ l, setMosi l s = .halt t)
      ∧ getMiso s = .halt t := by
  simp only [setCs, setSck, setMosi, getMiso, h, Run.bind_halt, implies_true, and_self]

/-- Settles O45: the selector stops each primitive, and with SETMOSI the operation XBIT. -/
theorem pinFaultIsFatal : Obligations.PinFaultIsFatal := by
  intro s rest hsel hfallible hfault
  obtain ⟨hcs, hsck, hmosi, hmiso⟩ := primitives_halt (resolve_backendFault hsel hfallible hfault)
  refine ⟨hcs, hsck, hmosi, hmiso, fun hidle => ?_⟩
  have hresolve := resolve_backendFault (s := s.accept .xbit) hsel hfallible hfault
  obtain ⟨-, -, hmosi', -⟩ := primitives_halt hresolve
  rw [exec_xbit_idle hidle, runXbit_halt (hmosi' _)]
  rfl

end Sys2Proof.Machine
end

section
/-!
SUPPORT. The step that takes the reset input (10_state.md R74; R280, R281).
-/
namespace Sys2Proof.Machine

/-- Reset is taken whatever TOP is: nothing of the state guards it (R280). -/
theorem step_reset {s : State} {rest : List HostAct} (hhost : s.env.host = .reset :: rest) :
    step s = .next (s.withHost rest).hardReset := by
  simp only [step, hhost]

/-- The scripts and the host's list go on across a reset, while the free values are those of a new world (log 21). -/
@[simp] theorem hardReset_env (s : State) : s.hardReset.env = { s.env with world := s.env.world + 1 } := rfl

/-- Settles O2: the step answers the hard reset of the state, whose fields are the table of R74. -/
theorem hardwareReset : Obligations.HardwareReset := by
  intro s rest hhost
  have hlist : (s.withHost rest).hardReset.env.host = rest := by rw [hardReset_env, withHost_env]
  refine ⟨(s.withHost rest).hardReset, step_reset hhost, hardReset_params _, hlist, ?_⟩
  simp only [State.hardReset, State.resetOf, withHost_params, and_self]

end Sys2Proof.Machine
end

section
/-!
SUPPORT. Encoding and decoding agree (30_encoding.md R125, R132, R134): the command words one by one, and the frames row
by row of R125's table.
-/
namespace Sys2Proof

/-! ## Command words -/

/-- A word is the operation `op` exactly when its upper bits are zero and its low byte is the code (R132, R134). -/
theorem decodeOp_eq_ok_iff {w : Word} {op : Op} :
    decodeOp w = .ok op ↔ w.extractLsb' 8 24 = 0 ∧ w.extractLsb' 0 8 = opCode op := by
  unfold decodeOp
  split
  · rename_i hupper
    constructor
    · intro h
      cases h
    · rintro ⟨hzero, -⟩
      exact absurd hzero hupper
  · rename_i hupper
    constructor
    · intro h
      refine ⟨not_not.mp hupper, ?_⟩
      split at h <;> cases h <;> exact BitVec.eq_of_toNat_eq ‹_›
    · rintro ⟨-, hcode⟩
      rw [hcode]
      cases op <;> rfl

/-- Settles O6: the code of each operation is the one the statement writes out. -/
theorem commandWordSelects : Obligations.CommandWordSelects := by
  intro w op
  rw [decodeOp_eq_ok_iff]
  cases op <;> exact Iff.rfl

/-- The word of an operation is the only one that decodes to it. -/
theorem eq_encodeOp_of_decodeOp {w : Word} {op : Op} (h : decodeOp w = .ok op) : w = encodeOp op := by
  obtain ⟨hupper, hcode⟩ := decodeOp_eq_ok_iff.mp h
  have hhigh : (w.extractLsb' 8 24).toNat = 0 := by
    rw [hupper]
    rfl
  have hlow : (w.extractLsb' 0 8).toNat = (opCode op).toNat := by rw [hcode]
  simp only [BitVec.extractLsb'_toNat, Nat.shiftRight_eq_div_pow] at hhigh hlow
  have hw : w.toNat = (opCode op).toNat := by omega
  apply BitVec.eq_of_toNat_eq
  rw [hw]
  cases op <;> rfl

theorem decodeOp_encodeOp (op : Op) : decodeOp (encodeOp op) = .ok op := by
  cases op <;> rfl

theorem decodeCmd_of_decodeOp {w : Word} {op : Op} (h : decodeOp w = .ok op) : decodeCmd w = .ok op.instr := by
  simp only [decodeCmd, h]

/-- What R134 calls an illegal command word does not decode. -/
theorem decodeOp_illegal {w : Word}
    (h : w.extractLsb' 0 8 = 0 ∨ 7 ≤ (w.extractLsb' 0 8).toNat ∨ w.extractLsb' 8 24 ≠ 0) :
    ∃ e, decodeOp w = .error e := by
  rcases hdecode : decodeOp w with e | op
  · exact ⟨e, rfl⟩
  · obtain ⟨hupper, hcode⟩ := decodeOp_eq_ok_iff.mp hdecode
    rw [hcode] at h
    rcases h with hzero | hreserved | hbits
    · cases op <;> cases hzero
    · have hsix : (opCode op).toNat ≤ 6 := by cases op <;> decide
      omega
    · exact absurd hupper hbits

/-! ## Frames -/

/-- The rows of R125, each told by its first byte, the ones before it excluded. -/
theorem decodeFrame_rdsr (p : Params) : decodeFrame p [p.rdsrOpcode] p.rdsrReadLen = .ok .rdsr := by
  simp [decodeFrame]

theorem decodeFrame_wren {p : Params} (hrdsr : p.wrenOpcode ≠ p.rdsrOpcode) :
    decodeFrame p [p.wrenOpcode] 0 = .ok .wren := by
  simp [decodeFrame, hrdsr]

theorem decodeFrame_pp {p : Params} (hrdsr : p.ppOpcode ≠ p.rdsrOpcode) (hwren : p.ppOpcode ≠ p.wrenOpcode)
    {addr : Nat} {data : List Byte} (haddr : addr < 2 ^ (8 * p.addrBytes)) (hsome : 1 ≤ data.length)
    (hpage : data.length ≤ p.page) :
    decodeFrame p (p.ppOpcode :: offsetBytes p.addrBytes addr ++ data) 0 = .ok (.pp addr data) := by
  have hlen := length_offsetBytes p.addrBytes addr
  have hfits : p.addrBytes < (offsetBytes p.addrBytes addr ++ data).length
      ∧ (offsetBytes p.addrBytes addr ++ data).length ≤ p.addrBytes + p.page ∧ True := by
    rw [List.length_append, hlen]
    exact ⟨by omega, by omega, trivial⟩
  rw [Nat.pow_mul] at haddr
  simp only [List.cons_append, decodeFrame, if_neg hrdsr, if_neg hwren, if_true, if_pos hfits,
    List.take_left' hlen, List.drop_left' hlen, offsetOf_offsetBytes _ _ haddr]

theorem decodeFrame_rd {p : Params} (hrdsr : p.readOpcode ≠ p.rdsrOpcode) (hwren : p.readOpcode ≠ p.wrenOpcode)
    (hpp : p.readOpcode ≠ p.ppOpcode) {addr n : Nat} (haddr : addr < 2 ^ (8 * p.addrBytes)) (hsome : 1 ≤ n)
    (hchunk : n ≤ p.chunkDataMax) :
    decodeFrame p (p.readOpcode :: offsetBytes p.addrBytes addr) n = .ok (.rd addr n) := by
  have hfits : (offsetBytes p.addrBytes addr).length = p.addrBytes ∧ 1 ≤ n ∧ n ≤ p.chunkDataMax :=
    ⟨length_offsetBytes p.addrBytes addr, hsome, hchunk⟩
  rw [Nat.pow_mul] at haddr
  simp only [decodeFrame, if_neg hrdsr, if_neg hwren, if_neg hpp, if_true, if_pos hfits,
    offsetOf_offsetBytes _ _ haddr]

/-- Settles O4: a command word by its code, a frame by its row, which the build's four codes tell apart. -/
theorem decodeEncodeAgree : Obligations.DecodeEncodeAgree := by
  intro p i hcodes hwf
  simp only [List.nodup_cons, List.mem_cons, List.not_mem_nil, not_or, or_false] at hcodes
  obtain ⟨⟨hrdsr_wren, hrdsr_pp, hrdsr_rd⟩, ⟨hwren_pp, hwren_rd⟩, hpp_rd, -⟩ := hcodes
  cases i with
  | init => rfl
  | xbit => rfl
  | xbyte => rfl
  | exec => rfl
  | read => rfl
  | prog => rfl
  | rdsr => exact decodeFrame_rdsr p
  | wren => exact decodeFrame_wren (Ne.symm hrdsr_wren)
  | pp addr data =>
    simp only [Instr.wf, Bool.and_eq_true, decide_eq_true_eq] at hwf
    obtain ⟨⟨haddr, hsome⟩, hpage⟩ := hwf
    exact decodeFrame_pp (Ne.symm hrdsr_pp) (Ne.symm hwren_pp) haddr hsome hpage
  | rd addr n =>
    simp only [Instr.wf, Bool.and_eq_true, decide_eq_true_eq] at hwf
    obtain ⟨⟨haddr, hsome⟩, hchunk⟩ := hwf
    exact decodeFrame_rd (Ne.symm hrdsr_rd) (Ne.symm hwren_rd) (Ne.symm hpp_rd) haddr hsome hchunk

/-- An offset of ADDR_BYTES bytes is in the range of R125, and those bytes are its own (R96, R100). -/
theorem offsetOf_addr {p : Params} {bs : List Byte} (h : bs.length = p.addrBytes) :
    offsetOf bs < 2 ^ (8 * p.addrBytes) ∧ offsetBytes p.addrBytes (offsetOf bs) = bs := by
  rw [Nat.pow_mul, ← h]
  exact ⟨offsetOf_lt bs, offsetBytes_offsetOf bs⟩

/-- The rows of R125 the other way round: what a frame that decodes is made of. -/
theorem decodeFrame_eq_ok {p : Params} {wbytes : List Byte} {r : Nat} {i : Instr} (h : decodeFrame p wbytes r = .ok i) :
    (i = .rdsr ∧ wbytes = [p.rdsrOpcode] ∧ r = p.rdsrReadLen)
      ∨ (i = .wren ∧ wbytes = [p.wrenOpcode] ∧ r = 0)
      ∨ (∃ bs data : List Byte, i = .pp (offsetOf bs) data ∧ wbytes = p.ppOpcode :: bs ++ data ∧ r = 0
          ∧ bs.length = p.addrBytes ∧ 1 ≤ data.length ∧ data.length ≤ p.page)
      ∨ (∃ bs : List Byte, i = .rd (offsetOf bs) r ∧ wbytes = p.readOpcode :: bs
          ∧ bs.length = p.addrBytes ∧ 1 ≤ r ∧ r ≤ p.chunkDataMax) := by
  match wbytes with
  | [] => cases h
  | op :: rest =>
    unfold decodeFrame at h
    dsimp only at h
    split at h
    · rename_i hop
      split at h <;> cases h
      rename_i hrow
      exact .inl ⟨rfl, by rw [hop, hrow.1], hrow.2⟩
    · split at h
      · rename_i hop
        split at h <;> cases h
        rename_i hrow
        exact .inr (.inl ⟨rfl, by rw [hop, hrow.1], hrow.2⟩)
      · split at h
        · rename_i hop
          split at h <;> cases h
          rename_i hrow
          refine .inr (.inr (.inl ⟨_, _, rfl, ?_, hrow.2.2, List.length_take_of_le (Nat.le_of_lt hrow.1), ?_⟩))
          · rw [hop, List.cons_append, List.take_append_drop]
          · rw [List.length_drop]
            omega
        · split at h
          · rename_i hop
            split at h <;> cases h
            rename_i hrow
            exact .inr (.inr (.inr ⟨rest, rfl, by rw [hop], hrow⟩))
          · cases h

/-- Settles O5, row by row. -/
theorem framesDecodeSoundly : Obligations.FramesDecodeSoundly := by
  intro p wbytes r i h
  rcases decodeFrame_eq_ok h with ⟨rfl, rfl, rfl⟩ | ⟨rfl, rfl, rfl⟩ | ⟨bs, data, rfl, rfl, rfl, hlen, hsome, hpage⟩ |
    ⟨bs, rfl, rfl, hlen, hsome, hchunk⟩
  · exact ⟨rfl, rfl⟩
  · exact ⟨rfl, rfl⟩
  · obtain ⟨haddr, hbytes⟩ := offsetOf_addr hlen
    exact ⟨by simp only [Instr.wf, haddr, hsome, hpage, decide_true, Bool.and_self], by rw [encode, hbytes]⟩
  · obtain ⟨haddr, hbytes⟩ := offsetOf_addr hlen
    exact ⟨by simp only [Instr.wf, haddr, hsome, hchunk, decide_true, Bool.and_self], by rw [encode, hbytes]⟩

end Sys2Proof
end

section
/-!
SUPPORT. Reset and the words of the opcode table, written out (10_state.md R74; 30_encoding.md R125, R132).
-/
namespace Sys2Proof.Machine

/-- Settles O1, value by value. -/
theorem resetValues : Obligations.ResetValues := by
  unfold Obligations.ResetValues
  and_intros <;> rfl

/-- Settles O3, word by word. -/
theorem tableWordsDecode : Obligations.TableWordsDecode := by
  unfold Obligations.TableWordsDecode
  and_intros <;> rfl

/-- Settles O58: all four spaces are empty, CAP and ERR are 0, and the pins are at rest. -/
theorem resetMeetsInvariants : Obligations.ResetMeetsInvariants := by
  have hspaces : SpaceInv State.reset := by
    unfold SpaceInv
    refine ⟨rfl, rfl, rfl, rfl, ?_, ?_⟩ <;> exact fun _ hc => nomatch hc
  have herr : ErrInv State.reset := by decide
  exact ⟨hspaces, .inl rfl, herr, .inr ⟨rfl, rfl⟩⟩

end Sys2Proof.Machine
end

section
/-!
SUPPORT. The step that takes a command off the host's list (30_encoding.md R130, R134, R138, R139): a called word or a
line runs as the instruction it decodes to, and an illegal word sets ERR.
-/
namespace Sys2Proof.Machine

theorem step_call {s : State} {w : Word} {rest : List HostAct} {i : Instr} (hhost : s.env.host = .call w :: rest)
    (hdecode : decodeCmd w = .ok i) : step s = exec i (s.withHost rest) := by
  simp only [step, hhost, hdecode]

theorem step_frame {s : State} {wbytes : List Byte} {r : Nat} {rest : List HostAct} {i : Instr}
    (hhost : s.env.host = .frame wbytes r :: rest) (hdecode : decodeFrame s.params wbytes r = .ok i) :
    step s = exec i (s.withHost rest) := by
  simp only [step, hhost, hdecode]

/-- Settles O8: `step` decodes what it takes off the list, in the state's build. -/
theorem stepRunsDecoded : Obligations.StepRunsDecoded := fun _ _ _ =>
  ⟨fun _ hhost hdecode => step_call hhost hdecode, fun _ _ hhost hdecode => step_frame hhost hdecode⟩

/-- The action placed for a table word is the word's own form of issue, whose decoding is the word's (log 3). -/
theorem step_withFetchWord {s : State} {nbits w : Nat} {i : Instr} (h : decodeTableWordIn s.params nbits w = some i) :
    step (s.withFetchWord nbits w) = exec i s := by
  have hdecode : decode s.params (tableCode s.params nbits w) = .ok i := by
    unfold decodeTableWordIn at h
    split at h <;> cases h
    assumption
  unfold State.withFetchWord fetchAct
  rcases hcode : tableCode s.params nbits w with w' | ⟨wbytes, r⟩ <;> rw [hcode] at hdecode
  · exact step_call (s := s.withHost (.call w' :: s.env.host)) rfl hdecode
  · exact step_frame (s := s.withHost (.frame wbytes r :: s.env.host)) rfl hdecode

/-- Settles O9; the default build is one of the builds. -/
theorem fetchWordRuns : Obligations.FetchWordRuns := by
  intro s nbits w i
  refine ⟨step_withFetchWord, fun hparams h => step_withFetchWord ?_⟩
  rwa [hparams]

theorem illegalCommand_idle {s : State} (h : s.top = .idle) : illegalCommand s = { s with err := codeIllegalCommand } :=
  if_pos h

theorem step_call_illegal {s : State} {w : Word} {rest : List HostAct} {e : Reject}
    (hhost : s.env.host = .call w :: rest) (hdecode : decodeOp w = .error e) :
    step s = .next (illegalCommand (s.withHost rest)) := by
  simp only [step, hhost, decodeCmd, hdecode]

theorem step_writeCmd {s : State} {w : Word} {rest : List HostAct} (hhost : s.env.host = .write 0x00 w :: rest) :
    step s = writeCmd w (s.withHost rest) := step_write hhost

theorem writeCmd_accepts {s : State} {w : Word} {op : Op} (hidle : s.top = .idle) (hdecode : decodeOp w = .ok op) :
    writeCmd w s = startOp op s := by
  simp only [writeCmd, if_pos hidle, hdecode]

theorem writeCmd_illegal {s : State} {w : Word} {e : Reject} (hidle : s.top = .idle) (hdecode : decodeOp w = .error e) :
    writeCmd w s = .next (illegalCommand s) := by
  simp only [writeCmd, if_pos hidle, hdecode]

/-- Settles O7: in both forms the word does not decode, and an idle block only notes that. -/
theorem illegalCommandOnlyErr : Obligations.IllegalCommandOnlyErr := by
  intro s w rest hidle hillegal hhost
  obtain ⟨e, hdecode⟩ := decodeOp_illegal hillegal
  have hidle' : (s.withHost rest).top = .idle := hidle
  rcases hhost with hcall | hwrite
  · rw [step_call_illegal hcall hdecode, illegalCommand_idle hidle']
    rfl
  · rw [step_writeCmd hwrite, writeCmd_illegal hidle' hdecode, illegalCommand_idle hidle']
    rfl

/-! ## Acceptance of a command word -/

theorem startOp_prog {s : State} (hdata : s.progTotal ≤ hostSpaceSize) :
    startOp .prog s = .next { progEntry (s.atRest.accept .prog) with pp.total := s.progTotal } :=
  if_neg (Nat.not_lt.mpr hdata)

/-- What acceptance writes: TOP, the sequencing state and the record of U15, and for XBYTE ACC, for PROG its two
results (R60, R131; row `(entry)` of R210). -/
theorem startOp_next {op : Op} {s t : State} (h : startOp op s = .next t) :
    t = { s with
      acc := t.acc, pres := t.pres, off := t.off, top := .run op, initph := .latch, tx := t.tx, rd := .rest, pp := t.pp
      span := t.span } := by
  cases op with
  | prog =>
    simp only [startOp] at h
    split at h <;> cases h
    rfl
  | init => cases h; rfl
  | xbit => cases h; rfl
  | xbyte => cases h; rfl
  | exec => cases h; rfl
  | read => cases h; rfl

theorem startOp_accepts {op : Op} {s : State} (hdata : op = .prog → s.progTotal ≤ hostSpaceSize) :
    ∃ t, startOp op s = .next t := by
  cases op with
  | prog => exact ⟨_, startOp_prog (hdata rfl)⟩
  | init => exact ⟨_, rfl⟩
  | xbit => exact ⟨_, rfl⟩
  | xbyte => exact ⟨_, rfl⟩
  | exec => exact ⟨_, rfl⟩
  | read => exact ⟨_, rfl⟩

/-- Settles O37: an idle block accepts the operation the word decodes to. -/
theorem acceptanceRaisesBusy : Obligations.AcceptanceRaisesBusy := by
  intro s w op rest hidle hhost hdecode hdata
  obtain ⟨t, ht⟩ := startOp_accepts (op := op) (s := s.withHost rest) hdata
  have hstep : step s = .next t := by
    rw [step_writeCmd hhost, writeCmd_accepts (s := s.withHost rest) hidle hdecode, ht]
  have hfields := startOp_next ht
  refine ⟨t, hstep, ?_⟩
  rw [hfields]
  and_intros <;> rfl

/-! ## Host accesses without effect -/

/-- A register the host cannot write keeps every operand (R67). -/
theorem writeOperand_other {off : Nat} (h : off < 0x08 ∨ 0x28 ≤ off) (v : Word) (r : OperandRegs) :
    writeOperand off v r = r := by
  unfold writeOperand
  split
  case h_9 => rfl
  all_goals omega

/-- Settles O49: the write is of no operand register, or the block is not idle. -/
theorem ignoredWrites : Obligations.IgnoredWrites := by
  intro s off v rest hhost haligned hignored
  have hnotCmd : off.toNat ≠ 0x00 := by
    rcases hignored with rfl | h | ⟨-, h⟩
    · decide
    · omega
    · omega
  have hunaligned : ¬ off.toNat % 4 ≠ 0 := not_not_intro haligned
  rw [step_write hhost, hostWrite, if_neg hunaligned, if_neg hnotCmd]
  split
  · rename_i hidle
    have hother : off.toNat < 0x08 ∨ 0x28 ≤ off.toNat := by
      rcases hignored with rfl | h | ⟨hbusy, -⟩
      · exact .inl (by decide)
      · exact .inr h
      · exact absurd hidle hbusy
    rw [writeOperand_other hother]
    rfl
  · rfl

theorem run_of_busyBit {s : State} (h : s.busyBit = 1) : ∃ op, s.top = .run op := by
  rcases htop : s.top with _ | op | _
  · simp [State.busyBit, htop] at h
  · exact ⟨op, rfl⟩
  · simp [State.busyBit, htop] at h

theorem step_read {s : State} {off : Word} {rest : List HostAct} (hhost : s.env.host = .read off :: rest) :
    step s = hostReadReg off (s.withHost rest) := by
  simp only [step, hhost]

/-- Settles O52: both refusals come before anything else is looked at. -/
theorem hostMisuseIsRefused : Obligations.HostMisuseIsRefused := by
  intro s a v b rest
  refine ⟨fun hbusy hhost => ?_, fun hunaligned hhost => ?_⟩
  · obtain ⟨op, htop⟩ := run_of_busyBit hbusy
    rcases hhost with hput | hget
    · rw [step_putHw hput, hostPutHw, withHost_top, htop]
    · rw [step_getHr hget, hostGetHr, withHost_top, htop]
  · rcases hhost with hwrite | hread
    · rw [step_write hwrite, hostWrite, if_pos hunaligned]
    · rw [step_read hread, hostReadReg, if_pos hunaligned]

end Sys2Proof.Machine
end

section
/-!
SUPPORT. XBYTE and EXEC with a usable backend (41_bit_byte_engine.md R162; 42_transaction_controller.md R170 to R182).
-/
namespace Sys2Proof.Machine

/-- Settles O16: XBYTE is one byte between acceptance and the end of the operation. -/
theorem xbyteTransfersOneByte : Obligations.XbyteTransfersOneByte := by
  intro s hidle hready
  obtain ⟨u, hbyte, hans⟩ := xbyte_ready (s := s.accept .xbyte) hready s.ops.arg
  refine ⟨u, ?_, hans⟩
  rw [exec_xbyte_idle hidle, runXbyte, show (s.accept .xbyte).ops = s.ops from rfl, hbyte]
  rfl

/-- What EXEC has left when it has completed, `us` having been sampled in the frame of `outs`. -/
theorem exec_exec_completes {s : State} (hidle : s.top = .idle) (hready : s.Ready)
    (hlen : s.wLen + s.rLen ≤ s.params.ceiling)
    (hbuf : max (s.wLen + s.rLen) s.params.floor ≤ max s.cap s.params.bufMax) :
    ∃ (outs us : List Byte) (t : State), outs = frameOut s.params (s.hwBytes 0 s.wLen) s.rLen
      ∧ outs.length = s.wLen + s.rLen ∧ us.length = s.wLen + s.rLen ∧ exec .exec s = .next t
      ∧ t.top = .idle ∧ t.err = codeOk ∧ t.cs = s.params.csDeassert
      ∧ t.cap = max s.cap (max (s.wLen + s.rLen) s.params.floor)
      ∧ (∀ k (hk : s.wLen + k < us.length), t.hrAt k = us[s.wLen + k])
      ∧ t.trace = (frameEvents s.params s.halfPeriod outs us).reverse ++ s.trace
      ∧ answered s.env.world s.env.dataIn s.trace (frameEvents s.params s.halfPeriod outs us) = true
      ∧ t.env.dataIn = s.env.dataIn.drop (8 * outs.length)
      ∧ t.acc = us.getLast?.getD s.acc ∧ t.mosi = (outs.getLast?.map (bitAt · 0)).getD s.mosi
      ∧ t.sck = if outs = [] then s.sck else 0 := by
  have hw : (s.hwBytes 0 s.wLen).length = s.wLen := length_hwBytes s 0 s.wLen
  obtain ⟨us, ob, ib, sp, hus, hexec, hans⟩ := exec_exec_ready hidle hready hlen hbuf
  refine ⟨_, us, _, rfl, by rw [length_frameOut, hw], hus, hexec, rfl, rfl, rfl, ?_, fun k hk => ?_, rfl, hans,
    rfl, rfl, rfl, rfl⟩
  · show max s.cap (max ((s.hwBytes 0 s.wLen).length + s.rLen) s.params.floor) = _
    rw [hw]
  · have hk' : k < (us.drop s.wLen).length := by
      rw [List.length_drop]
      omega
    exact (hrAt_writeHr_in _ _ hk').trans (List.getElem_drop ..)

theorem events_of_trace {s t : State} {evs : List Event} (h : t.trace = evs.reverse ++ s.trace) :
    t.events = s.events ++ evs := by
  rw [State.events, State.events, h, List.reverse_append, List.reverse_reverse]

/-- Settles O20, from what the completed EXEC has left. -/
theorem execCompletes : Obligations.ExecCompletes := by
  intro s hidle hready w r outs hlen hbuf
  obtain ⟨outs', us, t, rfl, hout, hus, hexec, htop, herr, hcs, hcap, hhr, htrace, hans, hin, hacc, hmosi, hsck⟩ :=
    exec_exec_completes hidle hready hlen hbuf
  refine ⟨us, t, hus, hexec, htop, herr, hcs, hcap, hhr, events_of_trace htrace, hans, hin.trans (by rw [hout]; rfl),
    fun u hu => by rw [hacc, hu, Option.getD_some], fun v hv => ?_, fun hsome => ?_, fun hnone => ?_⟩
  · change (frameOut s.params (s.hwBytes 0 s.wLen) s.rLen).getLast? = some v at hv
    rw [hmosi, hv]
    rfl
  · have hout' : frameOut s.params (s.hwBytes 0 s.wLen) s.rLen ≠ [] := by
      rw [← List.length_pos_iff_ne_nil, hout]
      exact hsome
    rw [hsck, if_neg hout']
  · have hout' : frameOut s.params (s.hwBytes 0 s.wLen) s.rLen = [] :=
      List.eq_nil_of_length_eq_zero (hout.trans hnone)
    have hus' : us = [] := List.eq_nil_of_length_eq_zero (hus.trans hnone)
    rw [hsck, hmosi, hacc, hout', hus']
    exact ⟨if_pos rfl, rfl, rfl⟩

end Sys2Proof.Machine
end

section
/-!
SUPPORT. The pseudo-operations (30_encoding.md R137, R138): each is the EXEC of its line, after the line's bytes and
counts have been placed.
-/
namespace Sys2Proof.Machine

/-! ## The line a pseudo-operation stands for -/

/-- A pseudo-operation is the EXEC of its expansion. -/
theorem exec_expansion {s : State} {i : Instr} {wbytes : List Byte} {r : Nat}
    (h : expansion s.params i = some (wbytes, r)) : exec i s = exec .exec (stageExec wbytes r s) := by
  cases i with
  | init => cases h
  | xbit => cases h
  | xbyte => cases h
  | exec => cases h
  | read => cases h
  | prog => cases h
  | rdsr => cases h; rfl
  | wren => cases h; rfl
  | pp addr data => cases h; rfl
  | rd addr n => cases h; rfl

/-- A frame that decodes is the line of the instruction it decodes to (R125, R138). -/
theorem expansion_of_decodeFrame {p : Params} {wbytes : List Byte} {r : Nat} {i : Instr}
    (h : decodeFrame p wbytes r = .ok i) : expansion p i = some (wbytes, r) := by
  rcases decodeFrame_eq_ok h with ⟨rfl, rfl, rfl⟩ | ⟨rfl, rfl, rfl⟩ | ⟨bs, data, rfl, rfl, rfl, hlen, -⟩ |
    ⟨bs, rfl, rfl, hlen, -⟩
  · rfl
  · rfl
  · rw [expansion, flashOffset_offsetOf p bs hlen]
  · rw [expansion, flashOffset_offsetOf p bs hlen]

/-- Every line runs as its EXEC, a frame of R125 or not (R137, R182). -/
theorem step_line {s : State} {wbytes : List Byte} {r : Nat} {rest : List HostAct}
    (hhost : s.env.host = .frame wbytes r :: rest) :
    step s = exec .exec (stageExec wbytes r (s.withHost rest)) := by
  rcases hdecode : decodeFrame s.params wbytes r with e | i
  · simp only [step, hhost, hdecode]
  · rw [step_frame hhost hdecode]
    exact exec_expansion (s := s.withHost rest) (expansion_of_decodeFrame hdecode)

/-! ## What placing a line does -/

section
variable {s : State} (hidle : s.top = .idle) (wbytes : List Byte) (r : Nat)
include hidle

theorem stageExec_idle :
    stageExec wbytes r s = { s with
      hw := memWriteRange s.hw 0 wbytes
      ops := { s.ops with wcount := countReg wbytes.length, rcount := countReg r } } := if_pos hidle

theorem stageExec_top : (stageExec wbytes r s).top = .idle := by
  rw [stageExec_idle hidle]
  exact hidle

theorem stageExec_spaceInv (hinv : SpaceInv s) : SpaceInv (stageExec wbytes r s) := by
  rw [stageExec_idle hidle]
  obtain ⟨hout, hin, hhw, hothers⟩ := hinv
  exact ⟨hout, hin, memWriteRange_wf hhw 0 wbytes, hothers⟩

/-- HW holds the line's bytes from index 0 on. -/
theorem stageExec_hwAt {k : Nat} (hk : k < wbytes.length) : (stageExec wbytes r s).hwAt k = wbytes[k] := by
  have hread := memRead_memWriteRange_in s.hw 0 wbytes k (Nat.zero_le k) (by omega)
  rw [Nat.sub_zero, List.getElem?_eq_getElem hk] at hread
  simp only [stageExec_idle hidle, State.hwAt, hread, Option.getD_some]

theorem stageExec_hwBytes : (stageExec wbytes r s).hwBytes 0 wbytes.length = wbytes := by
  apply List.ext_getElem
  · exact length_hwBytes _ _ _
  · intro k _ hk
    simp only [State.hwBytes, List.getElem_map, List.getElem_range', Nat.zero_add, Nat.one_mul]
    exact stageExec_hwAt hidle wbytes r hk

end

/-- A count register never holds more than the count (log 22). -/
theorem toNat_countReg_le (n : Nat) : (countReg n).toNat ≤ n := by
  rw [countReg, BitVec.toNat_ofNat]
  omega

theorem countReg_of_lt {n : Nat} (h : n < 4294967296) : countReg n = BitVec.ofNat 32 n ∧ (countReg n).toNat = n := by
  have hmin : min n 4294967295 = n := by omega
  rw [countReg, hmin, BitVec.toNat_ofNat]
  exact ⟨rfl, Nat.mod_eq_of_lt h⟩

/-- Settles O36: EXEC's own frame, with what the line has placed. -/
theorem pseudoFrame : Obligations.PseudoFrame := by
  intro s t i wbytes r hexpand hidle hexec
  rw [exec_expansion hexpand] at hexec
  obtain ⟨honly, hhr, hspaces⟩ := execFrame _ t (stageExec_top hidle wbytes r) hexec
  have hstage := stageExec_idle hidle wbytes r
  refine ⟨by rw [honly, hstage], fun herr => by rw [hhr herr, hstage], fun hinv => ?_⟩
  obtain ⟨hhrAt, hscratch⟩ := hspaces (stageExec_spaceInv hidle wbytes r hinv)
  rw [hstage] at hhrAt hscratch
  have hw := toNat_countReg_le wbytes.length
  have hr := toNat_countReg_le r
  refine ⟨fun a ha => ?_, fun a ha => hhrAt a (Nat.le_trans hr ha),
    fun hcap a ha => hscratch hcap a (Nat.le_trans (Nat.add_le_add hw hr) ha)⟩
  have hout := memRead_memWriteRange_out hinv.2.2.1 0 wbytes a (.inr (by omega))
  rw [honly, hstage]
  simp only [State.hwAt, hout]

/-- Settles O35: the line's EXEC completes with the line's bytes as its write field. -/
theorem pseudoOperationsComplete : Obligations.PseudoOperationsComplete := by
  refine ⟨fun s i wbytes r hexpand hidle hready hlen hcount hbuf => ?_, fun s wbytes r rest hhost => step_line hhost⟩
  obtain ⟨hwreg, hw⟩ := countReg_of_lt (n := wbytes.length) (by omega)
  obtain ⟨hrreg, hr⟩ := countReg_of_lt (n := r) (by omega)
  have hstage := stageExec_idle hidle wbytes r
  have hwLen : (stageExec wbytes r s).wLen = wbytes.length := by rw [hstage]; exact hw
  have hrLen : (stageExec wbytes r s).rLen = r := by rw [hstage]; exact hr
  have hstaged : (stageExec wbytes r s).Ready ∧ (stageExec wbytes r s).params = s.params
      ∧ (stageExec wbytes r s).cap = s.cap := by
    rw [hstage]
    exact ⟨hready, rfl, rfl⟩
  obtain ⟨hready', hparams, hcap⟩ := hstaged
  have hidle' := stageExec_top hidle wbytes r
  obtain ⟨outs, us, t, houts, -, hus, hexec, htop, herr, hcs, -, hhr, htrace, hans, -⟩ :=
    exec_exec_completes hidle' hready' (by rwa [hwLen, hrLen, hparams]) (by rwa [hwLen, hrLen, hparams, hcap])
  obtain ⟨honly, -⟩ := execFrame _ t hidle' hexec
  rw [hwLen, hrLen, stageExec_hwBytes hidle, hparams] at houts
  subst houts
  simp only [hwLen, hrLen] at hus hhr
  refine ⟨us, t, hus, (exec_expansion hexpand).trans hexec, htop, herr, hcs.trans (by rw [hparams]), ?_,
    fun k hk => ?_, hhr, ?_, ?_⟩
  · rw [honly, hstage, hwreg, hrreg]
  · rw [honly]
    exact stageExec_hwAt hidle wbytes r hk
  · rw [hstage] at htrace
    exact events_of_trace htrace
  · rwa [hstage] at hans

end Sys2Proof.Machine
end

section
/-!
SUPPORT. The sequencer follows the pseudocode, whatever the backend and the pin driver do (10_state.md R60 to R63;
30_encoding.md R130, R131): from related states the phases of a bit cell, of a byte, of a frame and of a transaction
come to where the pseudocode goes on, the sequencing state apart, and to the very state in which it stops.
-/
namespace Sys2Proof.Machine

/-! ## Following a run -/

/-- Some phases of the sequencer, none included, bring the machine from the first state to the second. -/
abbrev Ticks : State → State → Prop := Relation.ReflTransGen fun s t => tick s = .next t

/-- The sequencing state, in which the pseudocode has no part (R60 to R64). -/
structure Seq where
  initph : InitPhase
  tx : TxSeq
  rd : ReadSeq
  pp : PpSeq

/-- The machine with the sequencing state `q`. -/
abbrev State.withSeq (s : State) (q : Seq) : State :=
  { s with initph := q.initph, tx := q.tx, rd := q.rd, pp := q.pp }

/-- The sequencing state with another place in the running transaction. -/
abbrev Seq.onTx (q : Seq) (x : TxSeq) : Seq := { q with tx := x }

/-- From `σ` on the phases follow the run: where it goes on, to a state that `K` ties to it; where it stops, to the very
state it stops in. -/
def Follows {α : Type} (σ : State) (r : Run α) (K : α → State → State → Prop) : Prop :=
  match r with
  | .ok a t => ∃ τ, Ticks σ τ ∧ K a t τ
  | .halt t => Ticks σ t
  | .fault _ => True

section
variable {α β : Type} {σ σ' : State} {r : Run α} {K : α → State → State → Prop}

theorem Follows.here {a : α} {t : State} (h : K a t σ) : Follows σ (.ok a t) K := ⟨σ, .refl, h⟩

/-- Phases before a run that the phases then follow. -/
theorem Follows.after (h : Ticks σ σ') (h' : Follows σ' r K) : Follows σ r K := by
  cases r with
  | ok a t =>
    obtain ⟨τ, hτ, hK⟩ := h'
    exact ⟨τ, h.trans hτ, hK⟩
  | halt t => exact h.trans h'
  | fault f => trivial

theorem Follows.bind {k : α → State → Run β} {K' : β → State → State → Prop} (h : Follows σ r K)
    (hk : ∀ a t τ, K a t τ → Follows τ (k a t) K') : Follows σ (r.bind k) K' := by
  cases r with
  | ok a t =>
    obtain ⟨τ, hτ, hK⟩ := h
    exact (hk a t τ hK).after hτ
  | halt t => exact h
  | fault f => trivial

/-- What a run does wherever it goes on, beside where the phases are then. -/
theorem Follows.and {P : α → State → Prop} {Q : State → Prop} (h : Follows σ r K) (hr : r.All P Q) :
    Follows σ r fun a t τ => K a t τ ∧ P a t := by
  cases r with
  | ok a t =>
    obtain ⟨τ, hτ, hK⟩ := h
    exact ⟨τ, hτ, hK, hr⟩
  | halt t => exact h
  | fault f => trivial

theorem Follows.imp {K' : α → State → State → Prop} (h : Follows σ r K) (hK : ∀ a t τ, K a t τ → K' a t τ) :
    Follows σ r K' := by
  cases r with
  | ok a t =>
    obtain ⟨τ, hτ, hr⟩ := h
    exact ⟨τ, hτ, hK a t τ hr⟩
  | halt t => exact h
  | fault f => trivial

end

theorem tick_opTick_ok {op : Op} {σ τ : State} (htop : σ.top = .run op) (h : opTick op σ = .ok () τ) :
    tick σ = .next τ := by
  simp only [tick, htop, h]

theorem tick_opTick_halt {op : Op} {σ τ : State} (htop : σ.top = .run op) (h : opTick op σ = .halt τ) :
    tick σ = .next τ := by
  simp only [tick, htop, h]

/-! ## Primitives in a sequencing state -/

/-- The run with the sequencing state `q` where it goes on; where it stops, that state is at rest. -/
def Run.withSeq {α : Type} (q : Seq) : Run α → Run α
  | .ok a s => .ok a (s.withSeq q)
  | .halt s => .halt s
  | .fault f => .fault f

theorem resolve_withSeq (q : Seq) (s : State) : resolve (s.withSeq q) = (resolve s).withSeq q := by
  unfold resolve
  dsimp only
  split
  · split
    · split
      · rfl
      · rfl
      · split <;> rfl
    · rfl
  · rfl

theorem setCs_withSeq (q : Seq) (l : Bit) (s : State) : setCs l (s.withSeq q) = (setCs l s).withSeq q := by
  rw [setCs, setCs, resolve_withSeq]
  cases resolve s <;> rfl

theorem setSck_withSeq (q : Seq) (l : Bit) (s : State) : setSck l (s.withSeq q) = (setSck l s).withSeq q := by
  rw [setSck, setSck, resolve_withSeq]
  cases resolve s <;> rfl

theorem setMosi_withSeq (q : Seq) (l : Bit) (s : State) : setMosi l (s.withSeq q) = (setMosi l s).withSeq q := by
  rw [setMosi, setMosi, resolve_withSeq]
  cases resolve s <;> rfl

theorem getMiso_withSeq (q : Seq) (s : State) : getMiso (s.withSeq q) = (getMiso s).withSeq q := by
  rw [getMiso, getMiso, resolve_withSeq]
  cases resolve s <;> rfl

theorem grow_withSeq (q : Seq) (req : Nat) (s : State) : grow req (s.withSeq q) = (grow req s).withSeq q := by
  unfold grow
  dsimp only
  split
  · split <;> rfl
  · rfl

/-- A phase that runs a primitive follows it. -/
theorem Follows.of_phase {α : Type} {op : Op} {σ : State} {q : Seq} {r : Run α} {g : α → State → State}
    (h : opTick op σ = (r.withSeq q).bind fun a u => .ok () (g a u)) (htop : σ.top = .run op) :
    Follows σ r fun a t τ => τ = g a (t.withSeq q) := by
  cases r with
  | ok a t => exact ⟨_, .single (tick_opTick_ok htop h), rfl⟩
  | halt t => exact .single (tick_opTick_halt htop h)
  | fault f => trivial

/-- A phase without a primitive. -/
theorem Follows.of_quiet {α : Type} {op : Op} {σ τ : State} {r : Run α} {K : α → State → State → Prop}
    (htop : σ.top = .run op) (h : opTick op σ = .ok () τ) (h' : Follows τ r K) : Follows σ r K :=
  h'.after (.single (tick_opTick_ok htop h))

/-! ## A bit cell -/

/-- What the phases of a byte, up to its end, may change. -/
def ByteMove (σ τ : State) : Prop :=
  τ = { σ with
    sck := τ.sck, mosi := τ.mosi, acc := τ.acc, trace := τ.trace
    tx := { σ.tx with bitpos := τ.tx.bitpos, bitph := τ.tx.bitph }
    env := { σ.env with dataIn := τ.env.dataIn, pinFaults := τ.env.pinFaults } }

theorem ByteMove.refl (σ : State) : ByteMove σ σ := rfl

theorem ByteMove.trans {σ τ υ : State} (h : ByteMove σ τ) (h' : ByteMove τ υ) : ByteMove σ υ := by
  unfold ByteMove at h h' ⊢
  rw [h', h]

/-- The sequencing state at another place of the byte. -/
abbrev Seq.atBit (q : Seq) (pos : BitVec 3) (ph : BitPhase) : Seq :=
  q.onTx { q.tx with bitpos := pos, bitph := ph }

theorem BusMove.byteMove {s t : State} (h : BusMove s t) (q : Seq) (pos : BitVec 3) (ph : BitPhase) :
    ByteMove (s.withSeq q) (t.withSeq (q.atBit pos ph)) := by
  unfold ByteMove
  rw [h.only]

/-- From `σ` on, up to the end of its bit cell sending `o`, the phases of `op` are those of the cell, and then `E` is
done. -/
structure InCell (op : Op) (o : Bit) (E : State → Run Unit) (σ : State) : Prop where
  top : σ.top = .run op
  ticks : ∀ τ, ByteMove σ τ → τ.tx.bitpos = σ.tx.bitpos →
    opTick op τ = (bitTick o τ).bind fun ended u => if ended then E u else .ok () u

theorem InCell.move {op : Op} {o : Bit} {E : State → Run Unit} {σ τ : State} (h : InCell op o E σ)
    (hτ : ByteMove σ τ) (hpos : τ.tx.bitpos = σ.tx.bitpos) : InCell op o E τ where
  top := by
    rw [hτ]
    exact h.top
  ticks := fun υ hυ hpos' => h.ticks υ (hτ.trans hυ) (hpos'.trans hpos)

/-- A phase of a cell that does not end it, from what it does to the machine. -/
theorem InCell.phase {op : Op} {o : Bit} {E : State → Run Unit} {σ : State} {α : Type} {r : Run α} {q : Seq}
    {g : α → State → State} (h : InCell op o E σ)
    (hbit : bitTick o σ = (r.withSeq q).bind fun a u => .ok false (g a u)) :
    Follows σ r fun a t τ => τ = g a (t.withSeq q) := by
  refine .of_phase ?_ h.top
  rw [h.ticks σ (.refl σ) rfl, hbit]
  cases r <;> rfl

theorem InCell.quiet {op : Op} {o : Bit} {E : State → Run Unit} {σ τ : State} (h : InCell op o E σ)
    (hbit : bitTick o σ = .ok false τ) : opTick op σ = .ok () τ := by
  rw [h.ticks σ (.refl σ) rfl, hbit]
  rfl

/-- The falling edge of a cell: `E` is done where it does not fail. -/
theorem InCell.falls {op : Op} {o : Bit} {E : State → Run Unit} {s : State} {q : Seq} {pos : BitVec 3}
    (h : InCell op o E (s.withSeq (q.atBit pos .fall))) :
    Follows (s.withSeq (q.atBit pos .fall)) (setSck 0 s) fun _ t τ =>
      τ.top = .run op ∧ opTick op τ = E (t.withSeq (q.atBit pos .drive)) := by
  have hphase : opTick op (s.withSeq (q.atBit pos .fall))
      = ((setSck 0 s).withSeq (q.atBit pos .fall)).bind fun _ u => E (u.atBitph .drive) := by
    rw [h.ticks _ (.refl _) rfl, ← setSck_withSeq]
    simp only [bitTick]
    cases setSck 0 (s.withSeq (q.atBit pos .fall)) <;> rfl
  cases hset : setSck 0 s with
  | ok _ t => exact .here ⟨h.top, by rw [hphase, hset]; rfl⟩
  | halt t => exact .single (tick_opTick_halt h.top (by rw [hphase, hset]; rfl))
  | fault f => trivial

/-- The phases of a bit cell follow `xbit`, up to the last one, which does `E` where `xbit` goes on (R62, R160). -/
theorem follows_cell {op : Op} {o : Bit} {E : State → Run Unit} {s : State} {q : Seq} {pos : BitVec 3}
    (h : InCell op o E (s.withSeq (q.atBit pos .drive))) :
    Follows (s.withSeq (q.atBit pos .drive)) (xbit o s) fun _ t τ =>
      τ.top = .run op ∧ opTick op τ = E (t.withSeq (q.atBit pos .drive)) := by
  have inCell {u : State} (hu : BusMove s u) (ph : BitPhase) : InCell op o E (u.withSeq (q.atBit pos ph)) :=
    h.move (hu.byteMove _ pos ph) rfl
  unfold xbit
  refine ((h.phase (r := setMosi o s) (q := q.atBit pos .drive) (g := fun _ u => u.atBitph .wait1) ?_).and
    (setMosi_all o s)).bind fun _ s1 τ1 ⟨hτ1, hmove1, _⟩ => ?_
  · rw [← setMosi_withSeq]
    rfl
  subst hτ1
  have hcell1 := inCell hmove1 .wait1
  refine .of_quiet hcell1.top (hcell1.quiet (τ := (delay s1).withSeq (q.atBit pos .rise)) rfl) ?_
  have hmove2 := hmove1.trans (.delay s1)
  refine (((inCell hmove2 .rise).phase (r := setSck 1 (delay s1)) (q := q.atBit pos .rise)
    (g := fun _ u => u.atBitph .sample) ?_).and (setSck_all 1 (delay s1))).bind fun _ s2 τ2 ⟨hτ2, hrise, _⟩ => ?_
  · rw [← setSck_withSeq]
    rfl
  subst hτ2
  have hmove3 := hmove2.trans hrise
  refine (((inCell hmove3 .sample).phase (r := getMiso s2) (q := q.atBit pos .sample)
    (g := fun b u => { u with acc := shiftIn u.acc b }.atBitph .wait2) ?_).and (getMiso_all s2)).bind
    fun b s3 τ3 ⟨hτ3, hsample, _⟩ => ?_
  · rw [← getMiso_withSeq]
    rfl
  subst hτ3
  have hmove4 := (hmove3.trans hsample).trans (.of_acc s3 (shiftIn s3.acc b))
  have hcell4 := inCell hmove4 .wait2
  refine .of_quiet hcell4.top
    (hcell4.quiet (τ := (delay { s3 with acc := shiftIn s3.acc b }).withSeq (q.atBit pos .fall)) rfl) ?_
  exact (inCell (hmove4.trans (.delay _)) .fall).falls.bind fun _ _ _ hfall => .here hfall

/-! ## A byte -/

/-- From `σ` on, up to the end of its byte `v`, the phases of `op` are those of the byte, and then `E` is done. -/
structure InByteOf (op : Op) (v : Byte) (E : State → Run Unit) (σ : State) : Prop where
  top : σ.top = .run op
  ticks : ∀ τ, ByteMove σ τ → opTick op τ = (byteTick v τ).bind fun ended u => if ended then E u else .ok () u

theorem InByteOf.move {op : Op} {v : Byte} {E : State → Run Unit} {σ τ : State} (h : InByteOf op v E σ)
    (hτ : ByteMove σ τ) : InByteOf op v E τ where
  top := by
    rw [hτ]
    exact h.top
  ticks := fun υ hυ => h.ticks υ (hτ.trans hυ)

/-- What the end of a cell does in a byte: BITPOS goes down, and past bit 0 the byte has ended (R62). -/
def endOfCell (E : State → Run Unit) (u : State) : Run Unit :=
  if u.tx.bitpos = 0 then E { u with tx.bitpos := u.tx.bitpos - 1 } else .ok () { u with tx.bitpos := u.tx.bitpos - 1 }

theorem InByteOf.cell {op : Op} {v : Byte} {E : State → Run Unit} {σ : State} (h : InByteOf op v E σ) :
    InCell op (bitAt v σ.tx.bitpos.toNat) (endOfCell E) σ where
  top := h.top
  ticks := fun τ hτ hpos => by
    rw [h.ticks τ hτ, byteTick, hpos]
    rcases bitTick (bitAt v σ.tx.bitpos.toNat) τ with ⟨ended, u⟩ | u | f
    · cases ended
      · rfl
      · by_cases hlast : u.tx.bitpos = 0 <;> simp [endOfCell, hlast]
    · rfl
    · rfl

theorem InByteOf.cellAt {op : Op} {v : Byte} {E : State → Run Unit} {s : State} {q : Seq} {k : Nat} (hk : k < 8)
    (h : InByteOf op v E (s.withSeq (q.atBit (BitVec.ofNat 3 k) .drive))) :
    InCell op (bitAt v k) (endOfCell E) (s.withSeq (q.atBit (BitVec.ofNat 3 k) .drive)) := by
  have hcell := h.cell
  rwa [show (s.withSeq (q.atBit (BitVec.ofNat 3 k) .drive)).tx.bitpos = BitVec.ofNat 3 k from rfl,
    toNat_bitpos hk] at hcell

/-- The cells of bit positions `k` down to 0, by induction over the cells (R62, R162). -/
theorem follows_cells {op : Op} {v : Byte} {E : State → Run Unit} {q : Seq} (k : Nat) {s : State} (hk : k < 8)
    (h : InByteOf op v E (s.withSeq (q.atBit (BitVec.ofNat 3 k) .drive))) :
    Follows (s.withSeq (q.atBit (BitVec.ofNat 3 k) .drive)) (xbyteCells v (k + 1) s) fun _ t τ =>
      τ.top = .run op ∧ opTick op τ = E (t.withSeq (q.atBit 7 .drive)) := by
  induction k generalizing s with
  | zero => exact (follows_cell (h.cellAt hk)).bind fun _ _ _ hend => .here hend
  | succ k ih =>
    obtain ⟨hnonzero, hdown⟩ := bitpos_succ (Nat.lt_of_succ_lt_succ hk)
    refine ((follows_cell (h.cellAt hk)).and (xbit_all _ s)).bind fun b t τ ⟨⟨htop, hend⟩, hmove, _⟩ => ?_
    have hnext : opTick op τ = .ok () (t.withSeq (q.atBit (BitVec.ofNat 3 k) .drive)) := by
      rw [hend, endOfCell, if_neg hnonzero]
      simp only [hdown]
    exact .of_quiet htop hnext (ih (Nat.lt_of_succ_lt hk) (h.move (hmove.byteMove _ _ _)))

/-- The phases of a byte follow `xbyte` once ACC is cleared, up to the last one, which does `E` (R62, R162). -/
theorem follows_byte {op : Op} {v : Byte} {E : State → Run Unit} {q : Seq} {s : State}
    (h : InByteOf op v E ({ s with acc := 0 }.withSeq (q.atBit 7 .drive))) :
    Follows ({ s with acc := 0 }.withSeq (q.atBit 7 .drive)) (xbyte v s) fun u t τ =>
      τ.top = .run op ∧ opTick op τ = E (t.withSeq (q.atBit 7 .drive)) ∧ u = t.acc :=
  (follows_cells 7 (by decide) h).bind fun _ _ _ hend => .here ⟨hend.1, hend.2, rfl⟩

/-! ## The bytes of a frame -/

/-- The operations whose phases are those of a transaction while one runs (R61). -/
def TransactionOp (op : Op) : Prop := op = .exec ∨ op = .read ∨ op = .prog

theorem opTick_txTick {op : Op} {σ : State} (hop : TransactionOp op) (hjob : σ.tx.job ≠ .none) :
    opTick op σ = txTick σ := by
  rcases hop with rfl | rfl | rfl
  · rfl
  · exact if_neg hjob
  · exact if_neg hjob

/-- The end of a byte of a transaction: it is stored, and the next one loaded or the tail begun (R61, R63). -/
def endOfByte (u : State) : Run Unit := .ok () (nextByte { storeIn u.tx.pos u.acc u with tx.pos := u.tx.pos + 1 })

theorem inByteOf_txTick {op : Op} {σ : State} (hop : TransactionOp op) (htop : σ.top = .run op)
    (hjob : σ.tx.job ≠ .none) (hbyte : InByte σ) : InByteOf op σ.tx.outb endOfByte σ where
  top := htop
  ticks := fun τ hτ => by
    have hbyte' : InByte τ := by
      rw [hτ]
      exact hbyte
    have hjob' : τ.tx.job ≠ .none := by
      rw [hτ]
      exact hjob
    have houtb : τ.tx.outb = σ.tx.outb := by rw [hτ]
    rw [opTick_txTick hop hjob', txTick_bytes hbyte', houtb]
    rfl

/-- The phases of the last `n` bytes of a frame, by induction over the bytes (R61, R63). -/
theorem follows_bytes {op : Op} (hop : TransactionOp op) {q : Seq} (n : Nat) {s : State} {x : TxSeq}
    (htop : s.top = .run op) (hjob : x.job ≠ .none) (hlen : x.pos + n = x.wcnt + x.rcnt)
    (hcap : x.wcnt + x.rcnt ≤ s.cap) :
    Follows (nextByte (s.withSeq (q.onTx x))) (bytesLoop n x.pos s) fun _ t τ =>
      ∃ y, τ = t.withSeq (q.onTx y) ∧ AtTail x y := by
  induction n generalizing s x with
  | zero =>
    refine .here ⟨{ x with txs := .tailWait1 }, nextByte_tail (s := s.withSeq q) hlen, ?_⟩
    rw [AtTail, ← hlen]
    rfl
  | succ n ih =>
    have hpos : x.pos < x.wcnt + x.rcnt := by omega
    have hload := nextByte_loads (s := s.withSeq q) hpos
    rw [show nextByte (s.withSeq (q.onTx x)) = _ from hload]
    have hbyte := inByteOf_txTick (σ := { s with acc := 0 }.withSeq (q.onTx (x.loaded (s.outAt x.pos)))) hop htop hjob
      ⟨rfl, hpos, hcap⟩
    refine ((follows_byte (s := s) (q := q.onTx (x.loaded (s.outAt x.pos))) hbyte).and
      (xbyte_all (s.outAt x.pos) s)).bind fun u t τ ⟨⟨hτtop, hend, hu⟩, hmove, _⟩ => ?_
    subst hu
    refine .of_quiet hτtop hend ?_
    exact (ih (s := storeIn x.pos t.acc t) (x := { x.loaded (s.outAt x.pos) with pos := x.pos + 1 })
      (by rw [storeIn_top, hmove.only]; exact htop) hjob ((Nat.add_right_comm _ _ _).trans hlen)
      (Nat.le_trans hcap (Nat.le_of_eq hmove.cap_eq.symm)))

/-! ## A frame -/

/-- The phases of a frame, from chip-select asserted to the last delay (R61, R175). -/
theorem follows_frame {op : Op} (hop : TransactionOp op) {q : Seq} {s : State} {x : TxSeq} (htop : s.top = .run op)
    (hjob : x.job ≠ .none) (htxs : x.txs = .assert) (hpos : x.pos ≤ x.wcnt + x.rcnt)
    (hcap : x.wcnt + x.rcnt ≤ s.cap) :
    Follows (s.withSeq (q.onTx x)) (frameRun (x.wcnt + x.rcnt) s) fun _ t τ =>
      ∃ y, τ = t.withSeq (q.onTx { y with txs := .copy }) ∧ AtTail x y := by
  have hassert : opTick op (s.withSeq (q.onTx x))
      = ((setCs s.params.csAssert s).withSeq (q.onTx x)).bind fun _ u => .ok () (nextByte { u with tx.pos := 0 }) := by
    have hin := inScratch_inSeq (s := s.withSeq q) hpos hcap
    rw [opTick_txTick hop hjob, ← setCs_withSeq]
    simp only [txTick, htxs]
    exact if_pos hin
  unfold frameRun
  refine ((Follows.of_phase hassert htop).and (setCs_all _ s)).bind fun _ s1 τ1 ⟨hτ1, hmove1, _⟩ => ?_
  subst hτ1
  have htop1 : s1.top = .run op := by rw [hmove1.only]; exact htop
  have hcap1 := Nat.le_trans hcap hmove1.cap_le
  refine ((follows_bytes hop (q := q) (x.wcnt + x.rcnt) (x := { x with pos := 0 }) htop1 hjob (Nat.zero_add _)
    hcap1).and (bytesLoop_all (x.wcnt + x.rcnt) 0 s1 (by omega))).bind fun _ s2 τ2 ⟨⟨y, hτ2, hy⟩, hmove2, _⟩ => ?_
  subst hτ2
  have htop2 : s2.top = .run op := by rw [hmove2.only]; exact htop1
  have hyjob : y.job ≠ .none := by rw [hy]; exact hjob
  have hytxs : y.txs = .tailWait1 := by rw [hy]
  have hwait : opTick op (s2.withSeq (q.onTx y))
      = .ok () ((delay s2).withSeq (q.onTx { y with txs := .deassert })) := by
    rw [opTick_txTick hop hyjob]
    simp only [txTick, hytxs]
    rfl
  refine .of_quiet htop2 hwait ?_
  have hdeassert : opTick op ((delay s2).withSeq (q.onTx { y with txs := .deassert }))
      = ((setCs s2.params.csDeassert (delay s2)).withSeq (q.onTx { y with txs := .deassert })).bind
          fun _ u => .ok () (u.atTxs .tailWait2) := by
    rw [opTick_txTick hop hyjob, ← setCs_withSeq]
    rfl
  refine ((Follows.of_phase hdeassert htop2).and (setCs_all _ (delay s2))).bind fun _ s3 τ3 ⟨hτ3, hmove3, _⟩ => ?_
  subst hτ3
  have htop3 : s3.top = .run op := by rw [hmove3.only]; exact htop2
  exact .of_quiet htop3 (opTick_txTick hop hyjob) (.here ⟨y, rfl, hy⟩)

/-! ## A transaction -/

/-- Nothing a transaction may change shows in the bytes of one that its caller begins. -/
theorem txWriteBytes_move {s t : State} (h : TxMove s t) (q : Seq) {x y : TxSeq} (hjob : y.job = x.job) :
    txWriteBytes (t.withSeq (q.onTx y)) = txWriteBytes (s.withSeq (q.onTx x)) := by
  rw [h.only]
  unfold txWriteBytes
  simp only [hjob]
  cases x.job <;> rfl

/-- Where the phases of a transaction of `job` are when `transaction` returns to its caller: at the length check, which
refuses it, or at its last step but one (R61, R170). -/
inductive Returned (op : Op) (q : Seq) (job : Job) (s : State) (w r : Nat) :
    Byte × List Byte → State → State → Prop where
  | refused (hlong : s.params.ceiling < w + r)
      (h : opTick op ((s.withSeq q).startTx job) = txRefused ((s.withSeq q).startTx job)) :
    Returned op q job s w r (codeInvalidLength, []) s ((s.withSeq q).startTx job)
  | completed (t : State) (y : TxSeq) (hjob : y.job = job) (hw : y.wcnt = w) (hr : y.rcnt = r)
      (h : opTick op (t.withSeq (q.onTx y))
        = (txCopy (t.withSeq (q.onTx y))).bind fun _ u => .ok () (u.atTxs .done)) :
    Returned op q job s w r (codeOk, t.inBytes y.wcnt y.rcnt) t (t.withSeq (q.onTx y))

/-- The sequencing state of a transaction past its length check. -/
def checkedSeq (job : Job) (w r : Nat) (ph : TxPhase) : TxSeq :=
  { TxSeq.rest with job := job, wcnt := w, rcnt := r, txs := ph }

/-- The phases of a transaction follow `transaction` (R61, R170). -/
theorem follows_transaction {op : Op} (hop : TransactionOp op) (q : Seq) {job : Job} (hjob : job ≠ .none) {s : State}
    (htop : s.top = .run op) {wbytes : List Byte} {r : Nat} (hw : txWriteBytes ((s.withSeq q).startTx job) = wbytes)
    (hr : txReadLen ((s.withSeq q).startTx job) = r) :
    Follows ((s.withSeq q).startTx job) (transaction wbytes r s) fun res t τ =>
      Returned op q job s wbytes.length r res t τ ∧ TxMove s t := by
  refine Follows.imp (K := fun res t τ => Returned op q job s wbytes.length r res t τ ∧ _)
    (Follows.and ?_ (transaction_all wbytes r s)) fun _ _ _ h => ⟨h.1, h.2.1⟩
  have hlen : txWriteLen ((s.withSeq q).startTx job) = wbytes.length := by rw [← length_txWriteBytes, hw]
  have hcheck : opTick op ((s.withSeq q).startTx job)
      = if s.params.ceiling < wbytes.length + r then txRefused ((s.withSeq q).startTx job)
        else .ok () (s.withSeq (q.onTx (checkedSeq job wbytes.length r .alloc))) := by
    rw [opTick_txTick hop hjob, ← hlen, ← hr]
    rfl
  unfold transaction
  split
  · rename_i hlong
    exact .here (.refused hlong (hcheck.trans (if_pos hlong)))
  · rename_i hshort
    refine .of_quiet htop (hcheck.trans (if_neg hshort)) ?_
    have halloc : opTick op (s.withSeq (q.onTx (checkedSeq job wbytes.length r .alloc)))
        = ((grow (max (wbytes.length + r) s.params.floor) s).withSeq
            (q.onTx (checkedSeq job wbytes.length r .alloc))).bind fun _ u => .ok () (u.atTxs .fill) := by
      rw [opTick_txTick hop hjob, ← grow_withSeq]
      rfl
    refine ((Follows.of_phase halloc htop).and (grow_all _ s (Nat.le_max_right _ _))).bind
      fun _ s1 τ1 ⟨hτ1, hmove1, hcap1, _⟩ => ?_
    subst hτ1
    have hcap1 : wbytes.length + r ≤ s1.cap := Nat.le_trans (Nat.le_max_left _ _) hcap1
    have htop1 : s1.top = .run op := by rw [hmove1.only]; exact htop
    have hbytes : txWriteBytes (s1.withSeq (q.onTx (checkedSeq job wbytes.length r .fill))) = wbytes :=
      (txWriteBytes_move hmove1 q rfl).trans hw
    have hfill : opTick op (s1.withSeq (q.onTx (checkedSeq job wbytes.length r .fill)))
        = .ok () ((fillScratch wbytes r s1).withSeq (q.onTx (checkedSeq job wbytes.length r .assert))) := by
      have hin := inScratch_inSeq (s := s1.withSeq q) (x := checkedSeq job wbytes.length r .fill) (Nat.zero_le _) hcap1
      have hfits : (inScratch (s1.withSeq (q.onTx (checkedSeq job wbytes.length r .fill)))
          && decide (wbytes.length + r ≤ s1.cap)) = true := by
        rw [decide_eq_true hcap1, Bool.and_true]
        exact hin
      rw [opTick_txTick hop hjob]
      change (if (_ && decide (txWriteLen _ + r ≤ s1.cap)) = true then _ else _) = _
      rw [← length_txWriteBytes, hbytes, if_pos hfits]
      rfl
    refine .of_quiet htop1 hfill ?_
    refine ((follows_frame hop (q := q) (s := fillScratch wbytes r s1) (x := checkedSeq job wbytes.length r .assert)
      htop1 hjob rfl (Nat.zero_le _) hcap1).and (frameRun_all _ (fillScratch wbytes r s1) hcap1)).bind
      fun _ t τ ⟨⟨y, hτ, hy⟩, hmove, _⟩ => ?_
    subst hτ
    have hyjob : y.job = job := by rw [hy]; rfl
    have hyw : y.wcnt = wbytes.length := by rw [hy]; rfl
    have hyr : y.rcnt = r := by rw [hy]; rfl
    have hypos : y.pos = wbytes.length + r := by rw [hy]; rfl
    rw [← hyw, ← hyr]
    refine .here (.completed t { y with txs := .copy } hyjob rfl rfl ?_)
    have hin := inScratch_inSeq (s := t.withSeq q) (x := { y with txs := .copy })
      (by simp only [hypos, hyw, hyr, Nat.le_refl]) (by simpa only [hyw, hyr] using Nat.le_trans hcap1 hmove.cap_le)
    rw [opTick_txTick hop (by rwa [hyjob])]
    exact if_pos hin

end Sys2Proof.Machine
end

section
/-!
SUPPORT. Every operation phase by phase reaches the state its call reaches (30_encoding.md R130, R131; 10_state.md R60
to R64; 44_page_programmer.md R210), from every idle state and however the call ends.
-/
namespace Sys2Proof.Machine

/-! ## The end of an operation -/

/-- Where the phases follow a run and then end the operation with its status, they come to what the call answers. -/
theorem Follows.finish {σ t : State} {r : Run Byte} (h : Follows σ r fun code u τ => tick τ = .next (u.endOp code))
    (ht : finish r = .next t) : Ticks σ t := by
  cases r with
  | ok code u =>
    obtain ⟨τ, hτ, hend⟩ := h
    cases ht
    exact hτ.tail hend
  | halt u =>
    cases ht
    exact h
  | fault f => cases ht

/-- No operation's place is kept (log 11). -/
def Seq.rest : Seq := ⟨.latch, .rest, .rest, .rest⟩

/-! ## INIT -/

theorem follows_runInit {s : State} (htop : s.top = .run .init) :
    Follows (s.withSeq .rest) (runInit s) fun code t τ => tick τ = .next (t.endOp code) := by
  have hlatch : opTick .init (s.withSeq .rest)
      = if s.ops.cfgBackend ∉ s.params.validBackends then .halt ((initLatch s).endOp codeInvalidBackend)
        else .ok () ((initLatch s).withSeq { Seq.rest with initph := .chipSelect }) := rfl
  unfold runInit
  split
  · rename_i hinvalid
    exact .here (tick_opTick_halt htop (hlatch.trans (if_pos hinvalid)))
  · rename_i hvalid
    refine .of_quiet htop (hlatch.trans (if_neg hvalid)) ?_
    have hchip : opTick .init ((initLatch s).withSeq { Seq.rest with initph := .chipSelect })
        = ((setCs s.params.csDeassert (initLatch s)).withSeq { Seq.rest with initph := .chipSelect }).bind
            fun _ u => .ok () { u with initph := .clock } := by
      rw [← setCs_withSeq]
      rfl
    refine ((Follows.of_phase hchip htop).and (setCs_all _ (initLatch s))).bind fun _ s1 τ1 ⟨hτ1, hmove1, _⟩ => ?_
    subst hτ1
    have htop1 : s1.top = .run .init := by rw [hmove1.only]; exact htop
    have hclock : opTick .init (s1.withSeq { Seq.rest with initph := .clock })
        = ((setSck 0 s1).withSeq { Seq.rest with initph := .clock }).bind fun _ u => .halt (u.endOp codeOk) := by
      rw [← setSck_withSeq]
      rfl
    cases hset : setSck 0 s1 with
    | ok _ t => exact .here (tick_opTick_halt htop1 (by rw [hclock, hset]; rfl))
    | halt t => exact .single (tick_opTick_halt htop1 (by rw [hclock, hset]; rfl))
    | fault f => trivial

/-! ## XBIT and XBYTE -/

theorem setSck_acc (l : Bit) (s : State) : (setSck l s).All (fun _ t => t.acc = s.acc) fun _ => True := by
  obtain ⟨pf, h | h | h⟩ := resolve_cases s <;> simp only [setSck, h, Run.bind_ok, Run.bind_halt, Run.All]
  rfl

theorem bitAt_shiftIn (a : Byte) (b : Bit) : bitAt (shiftIn a b) 0 = b := by
  revert a b
  decide

theorem Run.All.anywhere {α : Type} (r : Run α) : r.All (fun _ _ => True) fun _ => True := by
  cases r <;> trivial

/-- The sample of a cell is the bit ACC has taken in (R46, R163). -/
theorem xbit_acc (o : Bit) (s : State) : (xbit o s).All (fun b t => b = bitAt t.acc 0) fun _ => True := by
  refine (Run.All.anywhere _).bind fun _ s1 _ => (Run.All.anywhere _).bind fun _ s2 _ =>
    (Run.All.anywhere _).bind fun b s3 _ => ?_
  refine (setSck_acc 0 (delay { s3 with acc := shiftIn s3.acc b })).bind fun _ t ht => ?_
  show b = bitAt t.acc 0
  rw [ht]
  exact (bitAt_shiftIn s3.acc b).symm

theorem follows_runXbit {s : State} (htop : s.top = .run .xbit) :
    Follows (s.withSeq .rest) (runXbit s) fun code t τ => tick τ = .next (t.endOp code) := by
  have hcell : InCell .xbit s.argBit
      (fun u => .halt ({ u with result := (bitAt u.acc 0).setWidth 8 }.endOp codeOk)) (s.withSeq .rest) :=
    ⟨htop, fun τ hτ _ => by
      have harg : τ.argBit = s.argBit := by rw [hτ]; rfl
      rw [← harg]
      rfl⟩
  refine ((follows_cell (q := .rest) (pos := 7) hcell).and (xbit_acc s.argBit s)).bind
    fun b t τ ⟨⟨hτtop, hend⟩, hb⟩ => ?_
  rw [hb]
  exact .here (tick_opTick_halt hτtop hend)

theorem follows_runXbyte {s : State} (htop : s.top = .run .xbyte) :
    Follows ({ s with acc := 0 }.withSeq .rest) (runXbyte s) fun code t τ => tick τ = .next (t.endOp code) := by
  have hbyte : InByteOf .xbyte s.ops.arg (fun u => .halt ({ u with result := u.acc }.endOp codeOk))
      ({ s with acc := 0 }.withSeq .rest) :=
    ⟨htop, fun τ hτ => by
      have harg : τ.ops.arg = s.ops.arg := by rw [hτ]
      rw [← harg]
      rfl⟩
  refine (follows_byte (q := .rest) hbyte).bind fun u t τ ⟨hτtop, hend, hu⟩ => ?_
  rw [hu]
  exact .here (tick_opTick_halt hτtop hend)

/-! ## The end of a transaction -/

/-- Step 6 of a transaction, `copied` being what it does, brings it to its last phase (R176). -/
theorem ticks_copy {op : Op} {q : Seq} {y : TxSeq} {t copied : State} (htop : t.top = .run op)
    (h : opTick op (t.withSeq (q.onTx y)) = (txCopy (t.withSeq (q.onTx y))).bind fun _ u => .ok () (u.atTxs .done))
    (hcopy : txCopy (t.withSeq (q.onTx y)) = .ok () (copied.withSeq (q.onTx y))) :
    Ticks (t.withSeq (q.onTx y)) (copied.withSeq (q.onTx { y with txs := .done })) :=
  .single (tick_opTick_ok htop (by rw [h, hcopy]; rfl))

/-! ## EXEC -/

theorem execOp_transacts : TransactionOp .exec := .inl rfl

theorem follows_runExec {s : State} (htop : s.top = .run .exec) :
    Follows ((s.withSeq .rest).startTx .exec) (runExec s) fun code t τ => tick τ = .next (t.endOp code) := by
  have hw : txWriteBytes ((s.withSeq .rest).startTx .exec) = s.hwBytes 0 s.wLen := rfl
  have hlen := length_hwBytes s 0 s.wLen
  unfold runExec
  split
  · rename_i hlong
    have hcheck : opTick .exec ((s.withSeq .rest).startTx .exec) = .halt (s.endOp codeInvalidLength) := if_pos hlong
    exact .here (tick_opTick_halt htop hcheck)
  · refine (follows_transaction execOp_transacts .rest (by decide) htop hw rfl).bind
      fun res t τ ⟨hreturned, hmove⟩ => ?_
    cases hreturned with
    | refused hlong h =>
      rw [hlen] at hlong
      exact absurd hlong ‹_›
    | completed _ y hjob hyw hyr h =>
      have httop : t.top = .run .exec := by rw [hmove.only]; exact htop
      have hcopy : txCopy (t.withSeq (Seq.rest.onTx y))
          = .ok () ((t.writeHr 0 (t.inBytes y.wcnt y.rcnt)).withSeq (Seq.rest.onTx y)) := by
        simp only [txCopy, hjob]
        rfl
      have hdone : opTick .exec ((t.writeHr 0 (t.inBytes y.wcnt y.rcnt)).withSeq
          (Seq.rest.onTx { y with txs := .done }))
          = .halt ((t.writeHr 0 (t.inBytes y.wcnt y.rcnt)).endOp codeOk) := by
        simp only [opTick, txTick, txDone, hjob]
        rfl
      exact .after (ticks_copy httop h hcopy) (.here (tick_opTick_halt httop hdone))

/-! ## READ -/

theorem readOp_transacts : TransactionOp .read := .inr (.inl rfl)

/-- READ's place between two chunks (R190). -/
def readSeq (done n : Nat) : Seq := ⟨.latch, .rest, ⟨done, n⟩, .rest⟩

/-- The phases of a chunk that completes: its response goes to HR and READ goes on behind it (R190). -/
theorem ticks_chunk {done n : Nat} {y : TxSeq} {t : State} (htop : t.top = .run .read) (hjob : y.job = .chunk)
    (h : opTick .read (t.withSeq ((readSeq done n).onTx y))
      = (txCopy (t.withSeq ((readSeq done n).onTx y))).bind fun _ u => .ok () (u.atTxs .done)) :
    Ticks (t.withSeq ((readSeq done n).onTx y))
      ((t.writeHr done (t.inBytes y.wcnt y.rcnt)).withSeq (readSeq (done + n) n)) := by
  have hcopy : txCopy (t.withSeq ((readSeq done n).onTx y))
      = .ok () ((t.writeHr done (t.inBytes y.wcnt y.rcnt)).withSeq ((readSeq done n).onTx y)) := by
    simp only [txCopy, hjob]
    rfl
  have hdone : opTick .read ((t.writeHr done (t.inBytes y.wcnt y.rcnt)).withSeq
      ((readSeq done n).onTx { y with txs := .done }))
      = .ok () ((t.writeHr done (t.inBytes y.wcnt y.rcnt)).withSeq (readSeq (done + n) n)) := by
    rw [opTick_txTick readOp_transacts (by simp [hjob])]
    simp only [txTick, txDone, hjob]
    rfl
  exact (ticks_copy htop h hcopy).tail (tick_opTick_ok htop hdone)

/-- READ's phase between two chunks (R190, R191). -/
theorem opTick_nextChunk (s : State) (done n : Nat) : opTick .read (s.withSeq (readSeq done n))
    = if done < s.readLen then
        if chunkLen s.params s.readLen done = 0 then .fault .parameters
        else .ok () ((s.withSeq (readSeq done (chunkLen s.params s.readLen done))).startTx .chunk)
      else .halt (s.endOp codeOk) := rfl

/-- READ from `done` on, by induction over the chunks (R190). -/
theorem follows_readLoop {start length : Nat} (fuel : Nat) {done n : Nat} {s : State} (htop : s.top = .run .read)
    (hstart : s.startOff = start) (hlength : s.readLen = length) (hfuel : length ≤ done + fuel) :
    Follows (s.withSeq (readSeq done n)) (readLoop start length fuel done s) fun code t τ =>
      tick τ = .next (t.endOp code) := by
  induction fuel generalizing done n s with
  | zero =>
    have htick := opTick_nextChunk s done n
    rw [hlength] at htick
    have hend : ¬ done < length := by omega
    exact .here (tick_opTick_halt htop (htick.trans (if_neg hend)))
  | succ fuel ih =>
    have htick := opTick_nextChunk s done n
    rw [hlength] at htick
    unfold readLoop
    split
    · rename_i hmore
      rw [if_pos hmore] at htick
      split
      · trivial
      · rename_i hsome
        refine .of_quiet htop (htick.trans (if_neg hsome)) ?_
        have hw : txWriteBytes ((s.withSeq (readSeq done (chunkLen s.params length done))).startTx .chunk)
            = rdBytes s.params (start + done) := by
          rw [← hstart]
          rfl
        refine (follows_transaction readOp_transacts _ (by decide) htop hw rfl).bind
          fun res t τ ⟨hreturned, hmove⟩ => ?_
        cases hreturned with
        | refused hlong h => exact .here (tick_opTick_halt htop h)
        | completed _ y hjob hyw hyr h =>
          have httop : t.top = .run .read := by rw [hmove.only]; exact htop
          have hstart' : t.startOff = start := by rw [hmove.only]; exact hstart
          have hlength' : t.readLen = length := by rw [hmove.only]; exact hlength
          have hchunk : 0 < chunkLen s.params length done := Nat.pos_of_ne_zero hsome
          have hless : length ≤ done + chunkLen s.params length done + fuel := by omega
          have hparams : t.params = s.params := by rw [hmove.only]
          refine .after (ticks_chunk httop hjob h) ?_
          change Follows _ (readLoop start length fuel (done + chunkLen t.params length done)
            (t.writeHr done (t.inBytes y.wcnt y.rcnt))) _
          rw [hparams]
          exact ih httop hstart' hlength' hless
    · rename_i hend
      exact .here (tick_opTick_halt htop (htick.trans (if_neg hend)))

/-! ## PROG: its two primitives -/

theorem progOp_transacts : TransactionOp .prog := .inr (.inr rfl)

/-- What PROG may change within a page, whatever its primitives are. -/
def PageMove (s t : State) : Prop :=
  t = { s with
    cs := t.cs, sck := t.sck, mosi := t.mosi, acc := t.acc, cap := t.cap, outBuf := t.outBuf, inBuf := t.inBuf
    sr := t.sr, span := t.span, trace := t.trace
    env := { s.env with
      dataIn := t.env.dataIn, pinFaults := t.env.pinFaults, pageCalls := t.env.pageCalls
      statusCalls := t.env.statusCalls } }

theorem PageMove.refl (s : State) : PageMove s s := rfl

theorem PageMove.trans {s t u : State} (h : PageMove s t) (h' : PageMove t u) : PageMove s u := by
  unfold PageMove at h h' ⊢
  rw [h', h]

theorem PageMove.top_eq {s t : State} (h : PageMove s t) : t.top = s.top := by rw [h]
theorem PageMove.off_eq {s t : State} (h : PageMove s t) : t.off = s.off := by rw [h]
theorem PageMove.params_eq {s t : State} (h : PageMove s t) : t.params = s.params := by rw [h]

theorem TxMove.pageMove {s t : State} (h : TxMove s t) : PageMove s t := by
  unfold PageMove
  rw [h.only]

/-- PROG's place in state `pps` between two transactions. -/
def progSeq (pps : PpState) (total plen npoll : Nat) : Seq :=
  ⟨.latch, .rest, .rest, { PpSeq.rest with pps := pps, total := total, plen := plen, npoll := npoll }⟩

/-- The place where a replaced primitive has the transactions `txs` left to make. -/
abbrev Seq.todo (q : Seq) (txs : List (List Byte × Nat)) (x : TxSeq) : Seq :=
  { q with tx := x, pp := { q.pp with todo := txs } }

/-- Steps 6 and 7 of a transaction whose caller takes no response. -/
theorem ticks_copyNothing {q : Seq} {y : TxSeq} {t : State} (htop : t.top = .run .prog)
    (hjob : y.job = .wren ∨ y.job = .pp ∨ y.job = .subst)
    (h : opTick .prog (t.withSeq (q.onTx y))
      = (txCopy (t.withSeq (q.onTx y))).bind fun _ u => .ok () (u.atTxs .done)) :
    ∃ τ, Ticks (t.withSeq (q.onTx y)) τ ∧ τ = t.withSeq (q.onTx { y with txs := .done })
      ∧ opTick .prog τ = txDone τ := by
  have hcopy : txCopy (t.withSeq (q.onTx y)) = .ok () (t.withSeq (q.onTx y)) := by
    rcases hjob with hjob | hjob | hjob <;> simp only [txCopy, hjob]
  refine ⟨_, ticks_copy htop h hcopy, rfl, opTick_txTick progOp_transacts ?_⟩
  rcases hjob with hjob | hjob | hjob <;> simp [hjob]

/-- The transactions of a replaced primitive, by induction over them, up to its return (log 7). -/
theorem follows_runSubst (q : Seq) (txs : List (List Byte × Nat)) {s : State} (x : TxSeq)
    (htop : s.top = .run .prog) :
    Follows (substNext (s.withSeq (q.todo txs x))) (runSubst txs s) fun _ t τ =>
      (∃ y, τ = substNext (t.withSeq (q.todo [] y))) ∧ PageMove s t := by
  induction txs generalizing s x with
  | nil => exact .here ⟨⟨x, rfl⟩, .refl s⟩
  | cons tx rest ih =>
    obtain ⟨wbytes, r⟩ := tx
    have hstart : substNext (s.withSeq (q.todo ((wbytes, r) :: rest) x))
        = (s.withSeq (q.todo ((wbytes, r) :: rest) x)).startTx .subst := rfl
    rw [hstart]
    refine (follows_transaction progOp_transacts (q.todo ((wbytes, r) :: rest) x) (job := .subst) (by decide) htop rfl
      rfl).bind fun res t τ ⟨hreturned, hmove⟩ => ?_
    have hpage := hmove.pageMove
    have hothers (y : TxSeq) : Follows (substNext (t.withSeq (q.todo rest y))) (runSubst rest t) fun _ u τ =>
        (∃ z, τ = substNext (u.withSeq (q.todo [] z))) ∧ PageMove s u :=
      (ih y (hpage.top_eq.trans htop)).imp fun _ _ _ h => ⟨h.1, hpage.trans h.2⟩
    cases hreturned with
    | refused hlong h => exact .of_quiet htop h (hothers _)
    | completed _ y hjob hyw hyr h =>
      obtain ⟨τ, hticks, rfl, hdone⟩ := ticks_copyNothing (hpage.top_eq.trans htop) (.inr (.inr hjob)) h
      refine .after hticks (.of_quiet (hpage.top_eq.trans htop) ?_ (hothers { y with txs := .done }))
      rw [hdone]
      simp only [txDone, hjob]
      rfl

/-- PP's transaction, whose status ProgramPage returns (R203). -/
theorem follows_pp {s : State} {total plen npoll : Nat} (htop : s.top = .run .prog) :
    Follows ((s.withSeq (progSeq .program total plen npoll)).startTx .pp)
      ((transaction (ppBytes s.params s.off (s.pageData plen)) 0 s).bind fun res u => .ok (res.1.setWidth 32) u)
      fun r t τ => (∃ y, τ = programReturned r (t.withSeq ((progSeq .program total plen npoll).onTx y)))
        ∧ PageMove s t := by
  refine (follows_transaction progOp_transacts (progSeq .program total plen npoll) (job := .pp) (by decide) htop rfl
    rfl).bind fun res t τ ⟨hreturned, hmove⟩ => ?_
  have hpage := hmove.pageMove
  cases hreturned with
  | refused hlong h => exact .of_quiet htop h (.here ⟨⟨_, rfl⟩, .refl s⟩)
  | completed _ y hjob hyw hyr h =>
    have httop := hpage.top_eq.trans htop
    obtain ⟨τ, hticks, rfl, hdone⟩ := ticks_copyNothing httop (.inr (.inl hjob)) h
    refine .after hticks (.of_quiet httop ?_ (.here ⟨⟨{ y with txs := .done }, rfl⟩, hpage⟩))
    rw [hdone]
    simp only [txDone, hjob]
    rfl

/-- The default ProgramPage from its first transaction on (R203). -/
theorem follows_programDefault {s : State} {total plen npoll : Nat} (htop : s.top = .run .prog) :
    Follows ((s.withSeq (progSeq .program total plen npoll)).startTx (if s.params.progWren then .wren else .pp))
      (programDefault s.off (s.pageData plen) s)
      fun r t τ => (∃ y, τ = programReturned r (t.withSeq ((progSeq .program total plen npoll).onTx y)))
        ∧ PageMove s t := by
  unfold programDefault
  split
  · refine (follows_transaction progOp_transacts (progSeq .program total plen npoll) (job := .wren) (by decide) htop rfl
      rfl).bind fun res t τ ⟨hreturned, hmove⟩ => ?_
    have hpage := hmove.pageMove
    cases hreturned with
    | refused hlong h => exact .of_quiet htop h (.here ⟨⟨_, rfl⟩, .refl s⟩)
    | completed _ y hjob hyw hyr h =>
      have httop := hpage.top_eq.trans htop
      obtain ⟨τ, hticks, rfl, hdone⟩ := ticks_copyNothing httop (.inl hjob) h
      have hnext : opTick .prog (t.withSeq ((progSeq .program total plen npoll).onTx { y with txs := .done }))
          = .ok () ((t.withSeq (progSeq .program total plen npoll)).startTx .pp) := by
        rw [hdone]
        simp only [txDone, hjob]
        rfl
      have hbytes : ppBytes t.params s.off (s.pageData plen) = ppBytes t.params t.off (t.pageData plen) := by
        rw [hmove.only]
        rfl
      refine .after hticks (.of_quiet httop hnext ?_)
      change Follows _ ((transaction (ppBytes t.params s.off (s.pageData plen)) 0 t).bind _) _
      rw [hbytes]
      exact (follows_pp httop).imp fun _ _ _ h => ⟨h.1, hpage.trans h.2⟩
  · exact follows_pp htop

/-- ProgramPage, the default or a replaced one, from row PP_PROGRAM on (R203, R210). -/
theorem follows_programPage {s : State} {total plen npoll : Nat} (htop : s.top = .run .prog) :
    Follows (s.withSeq (progSeq .program total plen npoll)) (programPage s.off (s.pageData plen) s)
      fun r t τ => (∃ y, τ = programReturned r (t.withSeq ((progSeq .program total plen npoll).onTx y)))
        ∧ PageMove s t := by
  have hdrop : PageMove s s.dropPageCall := rfl
  unfold programPage
  split
  · rename_i hcall
    have hbegin : opTick .prog (s.withSeq (progSeq .program total plen npoll))
        = .ok () ((s.dropPageCall.withSeq (progSeq .program total plen npoll)).startTx
            (if s.params.progWren then .wren else .pp)) := by
      change (match s.pageCall with | .default => _ | .custom txs r => _) = _
      rw [hcall]
      rfl
    exact .of_quiet htop hbegin
      ((follows_programDefault (s := s.dropPageCall) htop).imp fun _ _ _ h => ⟨h.1, hdrop.trans h.2⟩)
  · rename_i txs r hcall
    have hbegin : opTick .prog (s.withSeq (progSeq .program total plen npoll))
        = .ok () (substNext (s.dropPageCall.withSeq
            (Seq.todo { progSeq .program total plen npoll with
              pp := { (progSeq .program total plen npoll).pp with result := r } } txs .rest))) := by
      change (match s.pageCall with | .default => _ | .custom txs r => _) = _
      rw [hcall]
      rfl
    refine .of_quiet htop hbegin ((follows_runSubst (s := s.dropPageCall)
      { progSeq .program total plen npoll with pp := { (progSeq .program total plen npoll).pp with result := r } } txs
      .rest htop).bind fun _ t τ ⟨⟨y, hτ⟩, hpage⟩ => ?_)
    exact .here ⟨⟨y, hτ⟩, hdrop.trans hpage⟩

/-! ## PROG: ReadStatus and the poll loop -/

theorem setSr_setSr (s : State) (sr : Byte) : (s.setSr sr).setSr sr = s.setSr sr := by
  simp [State.setSr]

/-- The default ReadStatus from its transaction on (R204). -/
theorem follows_statusDefault {s : State} {total plen npoll : Nat} (htop : s.top = .run .prog) :
    Follows ((s.withSeq (progSeq .poll total plen npoll)).startTx .rdsr) (statusDefault s)
      fun sr t τ => (∃ y, τ = statusReturned sr (t.withSeq ((progSeq .poll total plen npoll).onTx y)))
        ∧ PageMove s t := by
  unfold statusDefault
  refine (follows_transaction progOp_transacts (progSeq .poll total plen npoll) (job := .rdsr) (by decide) htop rfl
    rfl).bind fun res t τ ⟨hreturned, hmove⟩ => ?_
  have hpage := hmove.pageMove
  have httop := hpage.top_eq.trans htop
  cases hreturned with
  | refused hlong h => trivial
  | completed _ y hjob hyw hyr h =>
    cases hcount : y.rcnt with
    | zero => trivial
    | succ r =>
      have hcopy : txCopy (t.withSeq ((progSeq .poll total plen npoll).onTx y))
          = .ok () ((t.setSr (t.inAt y.wcnt)).withSeq ((progSeq .poll total plen npoll).onTx y)) := by
        simp only [txCopy, hjob, hcount]
        rfl
      have hdone : opTick .prog ((t.setSr (t.inAt y.wcnt)).withSeq
          ((progSeq .poll total plen npoll).onTx { y with txs := .done }))
          = .ok () (statusReturned (t.inAt y.wcnt)
              (t.withSeq ((progSeq .poll total plen npoll).onTx { y with txs := .done }))) := by
        rw [opTick_txTick progOp_transacts (by simp [hjob])]
        simp only [txTick, txDone, hjob, statusReturned]
        exact congrArg (fun u => Run.ok () ({ u.withSeq ((progSeq .poll total plen (npoll + 1)).onTx
          { y with txs := .done }) with tx := TxSeq.rest, pp.pps := .test })) (setSr_setSr t (t.inAt y.wcnt))
      exact .after (ticks_copy httop h hcopy) (.of_quiet httop hdone (.here ⟨⟨_, rfl⟩, hpage⟩))

/-- ReadStatus, the default or a replaced one, from row PP_POLL on (R204, R210). -/
theorem follows_readStatus {s : State} {total plen npoll : Nat} (htop : s.top = .run .prog) :
    Follows (s.withSeq (progSeq .poll total plen npoll)) (readStatus s) fun sr t τ =>
      τ = (t.setSr sr).withSeq (progSeq .test total plen (npoll + 1)) ∧ PageMove s t := by
  have hdrop : PageMove s s.dropStatusCall := rfl
  unfold readStatus
  split
  · rename_i hcall
    have hbegin : opTick .prog (s.withSeq (progSeq .poll total plen npoll))
        = .ok () ((s.dropStatusCall.withSeq (progSeq .poll total plen npoll)).startTx .rdsr) := by
      change (match s.statusCall with | .default => _ | .custom txs r => _) = _
      rw [hcall]
      rfl
    exact .of_quiet htop hbegin ((follows_statusDefault (s := s.dropStatusCall) htop).imp
      fun _ _ _ ⟨⟨_, hτ⟩, hpage⟩ => ⟨hτ, hdrop.trans hpage⟩)
  · rename_i txs r hcall
    have hbegin : opTick .prog (s.withSeq (progSeq .poll total plen npoll))
        = .ok () (substNext (s.dropStatusCall.withSeq
            (Seq.todo { progSeq .poll total plen npoll with
              pp := { (progSeq .poll total plen npoll).pp with result := r } } txs .rest))) := by
      change (match s.statusCall with | .default => _ | .custom txs r => _) = _
      rw [hcall]
      rfl
    refine .of_quiet htop hbegin ((follows_runSubst (s := s.dropStatusCall)
      { progSeq .poll total plen npoll with pp := { (progSeq .poll total plen npoll).pp with result := r } } txs
      .rest htop).bind fun _ t τ ⟨⟨_, hτ⟩, hpage⟩ => ?_)
    exact .here ⟨hτ, hdrop.trans hpage⟩

theorem PageMove.setSr {s t : State} (h : PageMove s t) (sr : Byte) : PageMove s (t.setSr sr) := by
  unfold PageMove at h ⊢
  rw [h]
  rfl

/-- The phase of PROG after a poll (R205, R207). -/
theorem opTick_test {s : State} {total plen npoll : Nat} :
    opTick .prog (s.withSeq (progSeq .test total plen npoll))
      = if wipSet s.params s.sr = false then .ok () (s.withSeq (progSeq .advance total plen npoll))
        else if pollsOut s.params npoll then .ok () (s.withSeq (progSeq .timeout total plen npoll))
        else .ok () (s.withSeq (progSeq .poll total plen npoll)) := rfl

/-- The poll loop of a page, by induction over the polls it can make in a step (R205, R207, R209). -/
theorem follows_pollLoop {total plen : Nat} (fuel : Nat) {npoll : Nat} {s : State} (htop : s.top = .run .prog) :
    Follows (s.withSeq (progSeq .poll total plen npoll)) (pollLoop total plen fuel npoll s) fun code t τ =>
      (∃ n, code = codeOk ∧ τ = t.withSeq (progSeq .advance total plen n)
        ∨ code = codeTimeout ∧ τ = t.withSeq (progSeq .timeout total plen n)) ∧ PageMove s t := by
  induction fuel generalizing npoll s with
  | zero => exact Relation.ReflTransGen.refl
  | succ fuel ih =>
    unfold pollLoop
    refine (follows_readStatus htop).bind fun sr t τ ⟨hτ, hpage⟩ => ?_
    subst hτ
    have hpage' := hpage.setSr sr
    have httop : (t.setSr sr).top = .run .prog := hpage'.top_eq.trans htop
    have htest := opTick_test (s := t.setSr sr) (total := total) (plen := plen) (npoll := npoll + 1)
    split
    · rename_i hready
      exact .of_quiet httop (htest.trans (if_pos hready)) (.here ⟨⟨_, .inl ⟨rfl, rfl⟩⟩, hpage'⟩)
    · rename_i hbusy
      have hpoll := htest.trans (if_neg hbusy)
      split
      · rename_i hout
        exact .of_quiet httop (hpoll.trans (if_pos hout)) (.here ⟨⟨_, .inr ⟨rfl, rfl⟩⟩, hpage'⟩)
      · rename_i hmore
        have hagain := tick_opTick_ok (op := .prog) (σ := (t.setSr sr).withSeq (progSeq .test total plen (npoll + 1)))
          httop (hpoll.trans (if_neg hmore))
        split
        · exact .single hagain
        · exact .after (.single hagain) ((ih httop).imp fun _ _ _ h => ⟨h.1, hpage'.trans h.2⟩)

/-! ## PROG: the page loop -/

/-- PROG's phase before a page (R202, R210). -/
theorem opTick_nextPage (s : State) (total plen npoll : Nat) :
    opTick .prog (s.withSeq (progSeq .next total plen npoll))
      = if s.off < total then
          if min s.params.page (total - s.off) = 0 then .fault .parameters
          else .ok () (s.withSeq (progSeq .program total (min s.params.page (total - s.off)) npoll))
        else .ok () (s.withSeq (progSeq .ok total plen npoll)) := rfl

/-- The end of PROG once every page is done (R210). -/
theorem follows_pagesDone {s : State} {total plen npoll : Nat} (htop : s.top = .run .prog) (hdone : ¬ s.off < total) :
    Follows (s.withSeq (progSeq .next total plen npoll)) (.ok codeOk s) fun code t τ =>
      tick τ = .next (t.endOp code) :=
  .of_quiet htop ((opTick_nextPage s total plen npoll).trans (if_neg hdone)) (.here (tick_opTick_halt htop rfl))

/-- The page loop, by induction over the pages (R200, R202). -/
theorem follows_pageLoop {total : Nat} (fuel : Nat) {plen npoll : Nat} {s : State} (htop : s.top = .run .prog)
    (hfuel : total ≤ s.off + fuel) :
    Follows (s.withSeq (progSeq .next total plen npoll)) (pageLoop total fuel s) fun code t τ =>
      tick τ = .next (t.endOp code) := by
  induction fuel generalizing plen npoll s with
  | zero => exact follows_pagesDone htop (by omega)
  | succ fuel ih =>
    unfold pageLoop
    split
    · rename_i hmore
      have hnext := (opTick_nextPage s total plen npoll).trans (if_pos hmore)
      split
      · trivial
      · rename_i hsome
        refine .of_quiet htop (hnext.trans (if_neg hsome)) ((follows_programPage htop).bind
          fun r t τ ⟨⟨y, hτ⟩, hpage⟩ => ?_)
        subst hτ
        have httop := hpage.top_eq.trans htop
        unfold programReturned
        by_cases hr : r = 0
        · rw [if_pos hr, if_neg (not_not.mpr hr)]
          refine (follows_pollLoop (pollFuel t) httop).bind fun status u τ ⟨⟨n, hstatus⟩, hpage'⟩ => ?_
          have hutop := hpage'.top_eq.trans httop
          rcases hstatus with ⟨rfl, rfl⟩ | ⟨rfl, rfl⟩
          · have hadvance : opTick .prog (u.withSeq (progSeq .advance total (min s.params.page (total - s.off)) n))
                = .ok () ((u.setOff (u.off + u.params.page)).withSeq
                    (progSeq .next total (min s.params.page (total - s.off)) n)) := rfl
            have hoff : u.off = s.off := hpage'.off_eq.trans hpage.off_eq
            have hparams : u.params = s.params := hpage'.params_eq.trans hpage.params_eq
            have hless : total ≤ u.off + u.params.page + fuel := by
              rw [hoff, hparams]
              omega
            exact .of_quiet hutop hadvance (ih hutop hless)
          · exact .here (tick_opTick_halt (op := .prog) hutop rfl)
        · rw [if_neg hr, if_pos hr]
          exact .here (tick_opTick_halt (op := .prog) httop rfl)
    · rename_i hdone
      exact follows_pagesDone htop hdone

/-! ## The six operations -/

/-- Every operation, called from idle, reaches what it gives by phases from its acceptance on (R60, R131). -/
theorem exec_ticks {s t : State} (op : Op) (hidle : s.top = .idle) (h : exec op.instr s = .next t) :
    ∃ s0, startOp op s = .next s0 ∧ Ticks s0 t := by
  cases op with
  | init =>
    have h := (exec_init_idle hidle).symm.trans h
    exact ⟨_, rfl, (follows_runInit (s := s.accept .init) rfl).finish h⟩
  | xbit =>
    have h := (exec_xbit_idle hidle).symm.trans h
    exact ⟨_, rfl, (follows_runXbit (s := s.accept .xbit) rfl).finish h⟩
  | xbyte =>
    have h := (exec_xbyte_idle hidle).symm.trans h
    exact ⟨_, rfl, (follows_runXbyte (s := s.accept .xbyte) rfl).finish h⟩
  | exec =>
    have h := (exec_exec_idle hidle).symm.trans h
    exact ⟨_, rfl, (follows_runExec (s := s.accept .exec) rfl).finish h⟩
  | read =>
    have h := (exec_read_idle hidle).symm.trans h
    exact ⟨_, rfl, (follows_readLoop (s := s.accept .read) _ rfl rfl rfl (Nat.le_add_left _ _)).finish h⟩
  | prog =>
    rcases Nat.lt_or_ge hostSpaceSize s.progTotal with hdata | hdata
    · rw [show exec Op.prog.instr s = _ from exec_prog_tooLong hidle hdata] at h
      cases h
    · exact ⟨_, if_neg (Nat.not_lt.mpr hdata), (follows_pageLoop (s := progEntry (s.accept .prog)) s.progTotal rfl
        (Nat.le_add_left _ _)).finish (exec_prog_next hidle h)⟩

end Sys2Proof.Machine
end

section
/-!
SUPPORT. What an operation may change and keeps, from its acceptance on to wherever it is, and everything a step without
a reset can do, said once with what the host has issued (log 2). From them the register form of each operation agrees
with its call (30_encoding.md R130, R131).
-/
namespace Sys2Proof.Machine

/-! ## From acceptance on -/

/-- What the phases of an operation may change, and what they keep of the invariants; nothing of the host's side. -/
structure TickMove (s t : State) : Prop where
  only : t = { s with
    backendSel := t.backendSel, halfPeriod := t.halfPeriod, cs := t.cs, sck := t.sck, mosi := t.mosi, acc := t.acc
    cap := t.cap, outBuf := t.outBuf, inBuf := t.inBuf, result := t.result, pres := t.pres, sr := t.sr, off := t.off
    err := t.err, hr := t.hr, top := t.top, initph := t.initph, tx := t.tx, rd := t.rd, pp := t.pp, span := t.span
    trace := t.trace
    env := { s.env with
      dataIn := t.env.dataIn, pinFaults := t.env.pinFaults, pageCalls := t.env.pageCalls
      statusCalls := t.env.statusCalls } }
  cap_le : s.cap ≤ t.cap
  cap_range : t.cap = s.cap ∨ (s.params.floor ≤ t.cap ∧ t.cap ≤ s.params.bufMax)
  scratch : ScratchInv s → ScratchInv t
  hr_wf : memWf s.hr = true → memWf t.hr = true

theorem TickMove.refl (s : State) : TickMove s s := ⟨rfl, Nat.le_refl _, .inl rfl, id, id⟩

theorem TickMove.trans {s t u : State} (h : TickMove s t) (h' : TickMove t u) : TickMove s u where
  only := by rw [h'.only, h.only]
  cap_le := Nat.le_trans h.cap_le h'.cap_le
  cap_range := by
    have hparams : t.params = s.params := by rw [h.only]
    rcases h'.cap_range with e | e
    · rw [e]; exact h.cap_range
    · rw [hparams] at e; exact .inr e
  scratch := fun hs => h'.scratch (h.scratch hs)
  hr_wf := fun hw => h'.hr_wf (h.hr_wf hw)

theorem TickNext.move {s t : State} (h : TickNext s t) : TickMove s t := by
  obtain ⟨s0, u, hs0, ⟨evs, -, hphase⟩, ht⟩ := h
  have hlatch : TickMove s s0 := by
    rcases hs0 with rfl | ⟨-, rfl⟩
    · exact .refl s0
    · exact ⟨rfl, Nat.le_refl _, .inl rfl, id, id⟩
  have hrun : TickMove s u :=
    hlatch.trans ⟨by rw [hphase.only], hphase.cap_le, hphase.cap_range, hphase.scratch, hphase.hr_wf⟩
  refine hrun.trans ?_
  rcases ht with rfl | ⟨code, rfl, -⟩ | ⟨-, r, rfl⟩ | rfl | rfl | rfl
  · exact .refl t
  all_goals exact ⟨rfl, Nat.le_refl _, .inl rfl, id, id⟩

theorem tick_move {s t : State} (h : tick s = .next t) : TickMove s t := by
  rcases tick_next h with ⟨-, rfl⟩ | ⟨-, hnext⟩
  · exact .refl t
  · exact hnext.move

theorem startOp_move {op : Op} {s t : State} (h : startOp op s = .next t) : TickMove s t := by
  rw [startOp_next h]
  exact ⟨rfl, Nat.le_refl _, .inl rfl, id, id⟩

/-- What holds of an operation in a phase and is kept by every phase holds wherever the phases lead. -/
theorem Ticks.keeps {P : State → Prop} {s t : State} (h : Ticks s t) (hP : ∀ u v, P u → tick u = .next v → P v)
    (hs : P s) : P t := by
  induction h with
  | refl => exact hs
  | tail _ htick ih => exact hP _ _ ih htick

theorem Ticks.move {s t : State} (h : Ticks s t) : TickMove s t :=
  h.keeps (P := TickMove s) (fun _ _ hu htick => hu.trans (tick_move htick)) (.refl s)

theorem exec_move {s t : State} {op : Op} (hidle : s.top = .idle) (h : exec op.instr s = .next t) : TickMove s t := by
  obtain ⟨s0, hstart, hticks⟩ := exec_ticks op hidle h
  exact (startOp_move hstart).trans hticks.move

/-! ## The two forms of an operation -/

/-- While the host does nothing a phase is a step. -/
theorem Ticks.runsTo {s t : State} (h : Ticks s t) (hhost : s.env.host = []) : RunsTo s t := by
  induction h using Relation.ReflTransGen.head_induction_on with
  | refl => exact .refl t
  | head htick _ ih =>
    have hkeeps := congrArg (fun u => u.env.host) (tick_move htick).only
    exact .head ((step_noHost hhost).trans htick) (ih (hkeeps.trans hhost))

/-- The register form of an operation reaches what its call reaches (R130, R131). -/
theorem registerForm_agrees {s t : State} (op : Op) (hidle : s.top = .idle)
    (hhost : s.env.host = [.write 0x00 (encodeOp op)]) (h : exec op.instr (s.withHost []) = .next t) : RunsTo s t := by
  have hidle' : (s.withHost []).top = .idle := hidle
  obtain ⟨s0, hstart, hticks⟩ := exec_ticks op hidle' h
  have hstep : step s = .next s0 :=
    (step_writeCmd hhost).trans ((writeCmd_accepts hidle' (decodeOp_encodeOp op)).trans hstart)
  have hkeeps : s0.env.host = [] := congrArg (fun u => u.env.host) (startOp_move hstart).only
  exact .head hstep (hticks.runsTo hkeeps)

/-- Settles O40, by the register form of any operation. -/
theorem shortOperationsAgree : Obligations.ShortOperationsAgree := fun op _ _ _ hidle hhost h =>
  registerForm_agrees op hidle hhost h

/-- Settles O41, by the register form of any operation. -/
theorem execAgrees : Obligations.ExecAgrees := fun _ _ hidle hhost h => registerForm_agrees .exec hidle hhost h

/-- Settles O42, by the register form of any operation. -/
theorem readAgrees : Obligations.ReadAgrees := fun _ _ hidle hhost h => registerForm_agrees .read hidle hhost h

/-- Settles O43, by the register form of any operation. -/
theorem progAgrees : Obligations.ProgAgrees := fun _ _ hidle hhost h => registerForm_agrees .prog hidle hhost h

end Sys2Proof.Machine
end

section
/-!
SUPPORT. Everything a step can do, said once with what the host has issued (log 2), and the whole-machine rules that
follow for CAP and the byte spaces, the flags, the configuration and the registers.
-/
namespace Sys2Proof.Machine

/-! ## The cases of a step -/

/-- What the host's action does to the host's own state: its list, what it reads, and the free values it uses up. -/
def HostTurn (s u : State) : Prop :=
  u = { s with env := { s.env with host := u.env.host, hostRead := u.env.hostRead, fresh := u.env.fresh } }

/-- The state once the host's next action is off its list. -/
abbrev State.acted (s : State) : State := s.withHost s.env.host.tail

/-- The host's next action issues a command, as a call, a line or a write of CMD (log 2). -/
def CommandNext (s : State) : Prop :=
  (∃ w, s.env.host.head? = some (.call w)) ∨ (∃ w, s.env.host.head? = some (.write 0x00 w))
    ∨ ∃ wbytes r, s.env.host.head? = some (.frame wbytes r)

/-- Everything a step can do that is not a reset. -/
inductive StepCase (s t : State) : Prop where
  | turn (h : HostTurn s t)
  | phase (u : State) (hu : HostTurn s u) (h : tick u = .next t)
  | overrun (hbusy : s.top ≠ .idle) (hcommand : CommandNext s) (h : t = { s.acted with ovr := 1 })
  | illegal (hidle : s.top = .idle) (h : t = { s.acted with err := codeIllegalCommand })
  | operand (off : Nat) (v : Word) (hidle : s.top = .idle) (h : t = { s.acted with ops := writeOperand off v s.ops })
  | store (a : Nat) (b : Byte) (hidle : s.top = .idle) (h : t = { s.acted with hw := memWrite s.hw a b })
  | call (op : Op) (hidle : s.top = .idle) (hhead : s.env.host.head? = some (.call (encodeOp op)))
    (h : exec op.instr s.acted = .next t)
  | line (wbytes : List Byte) (r : Nat) (hidle : s.top = .idle) (hhost : s.env.host ≠ [])
    (h : exec .exec (stageExec wbytes r s.acted) = .next t)
  | start (op : Op) (hidle : s.top = .idle) (h : startOp op s.acted = .next t)

section
variable {s t : State} {rest : List HostAct}

theorem call_cases {w : Word} (hhost : s.env.host = .call w :: rest) (h : step s = .next t) : StepCase s t := by
  have hnext : s.acted = s.withHost rest := by rw [State.acted, hhost, List.tail_cons]
  by_cases hidle : s.top = .idle
  · have hidle' : s.acted.top = .idle := hidle
    rcases hdecode : decodeOp w with e | op
    · rw [step_call_illegal hhost hdecode, ← hnext, illegalCommand_idle hidle'] at h
      cases h
      exact .illegal hidle rfl
    · rw [step_call hhost (decodeCmd_of_decodeOp hdecode), ← hnext] at h
      rw [eq_encodeOp_of_decodeOp hdecode] at hhost
      exact .call op hidle (by rw [hhost, List.head?_cons]) h
  · rw [step_call_notIdle hidle hhost] at h
    cases h
    exact .overrun hidle (.inl ⟨w, by rw [hhost, List.head?_cons]⟩) (by rw [hnext]; rfl)

theorem frame_cases {wbytes : List Byte} {r : Nat} (hhost : s.env.host = .frame wbytes r :: rest)
    (h : step s = .next t) : StepCase s t := by
  have hnext : s.acted = s.withHost rest := by rw [State.acted, hhost, List.tail_cons]
  by_cases hidle : s.top = .idle
  · rw [step_line hhost, ← hnext] at h
    exact .line wbytes r hidle (by rw [hhost]; exact List.cons_ne_nil _ _) h
  · rw [step_frame_notIdle hidle hhost] at h
    cases h
    exact .overrun hidle (.inr (.inr ⟨wbytes, r, by rw [hhost, List.head?_cons]⟩)) (by rw [hnext]; rfl)

theorem writeCmd_cases {w : Word} (hhost : s.env.host = .write 0x00 w :: rest) (h : step s = .next t) :
    StepCase s t := by
  have hnext : s.acted = s.withHost rest := by rw [State.acted, hhost, List.tail_cons]
  by_cases hidle : s.top = .idle
  · have hidle' : s.acted.top = .idle := hidle
    rw [step_writeCmd hhost, ← hnext] at h
    rcases hdecode : decodeOp w with e | op
    · rw [writeCmd_illegal hidle' hdecode, illegalCommand_idle hidle'] at h
      cases h
      exact .illegal hidle rfl
    · rw [writeCmd_accepts hidle' hdecode] at h
      exact .start op hidle h
  · rw [step_writeCmd_notIdle hidle hhost] at h
    cases h
    exact .overrun hidle (.inr (.inl ⟨w, by rw [hhost, List.head?_cons]⟩)) (by rw [hnext]; rfl)

theorem write_cases {off v : Word} (hhost : s.env.host = .write off v :: rest) (h : step s = .next t) :
    StepCase s t := by
  have hnext : s.acted = s.withHost rest := by rw [State.acted, hhost, List.tail_cons]
  by_cases hcmd : off = 0x00
  · subst hcmd
    exact writeCmd_cases hhost h
  · have hoff : off.toNat ≠ 0x00 := fun he => hcmd (BitVec.eq_of_toNat_eq he)
    rw [step_write hhost, ← hnext] at h
    unfold hostWrite at h
    rw [if_neg hoff] at h
    split at h
    · cases h
    · split at h
      · rename_i hidle
        cases h
        exact .operand off.toNat v hidle rfl
      · cases h
        exact .turn rfl

theorem poll_cases (hhost : s.env.host = .poll :: rest) (h : step s = .next t) : StepCase s t := by
  have hpoll : hostPoll rest s = .next t := by
    rw [← h]
    simp only [step, hhost]
  unfold hostPoll at hpoll
  split at hpoll
  · exact .phase (s.hostGets s.statusWord) rfl hpoll
  · cases hpoll
    exact .turn rfl

theorem read_cases {off : Word} (hhost : s.env.host = .read off :: rest) (h : step s = .next t) : StepCase s t := by
  rw [step_read hhost] at h
  rcases hostReadReg_cases off (s.withHost rest) with ⟨-, e⟩ | ⟨-, -, -, e⟩ | ⟨-, -, e⟩ <;> rw [e] at h <;> cases h
  all_goals exact .turn rfl

theorem putHw_cases {a : Word} {b : Byte} (hhost : s.env.host = .putHw a b :: rest) (h : step s = .next t) :
    StepCase s t := by
  have hnext : s.acted = s.withHost rest := by rw [State.acted, hhost, List.tail_cons]
  rw [step_putHw hhost, ← hnext] at h
  unfold hostPutHw at h
  split at h
  · rename_i hidle
    cases h
    exact .store a.toNat b hidle rfl
  · cases h
    exact .turn rfl
  · cases h

theorem getHr_cases {a : Word} (hhost : s.env.host = .getHr a :: rest) (h : step s = .next t) : StepCase s t := by
  rw [step_getHr hhost] at h
  unfold hostGetHr at h
  split at h <;> cases h <;> exact .turn rfl

theorem step_cases (h : step s = .next t) (hreset : s.env.host.head? ≠ some .reset) : StepCase s t := by
  rcases hhost : s.env.host with _ | ⟨act, rest⟩
  · exact .phase s rfl ((step_noHost hhost).symm.trans h)
  · cases act with
    | wait =>
      refine .phase (s.withHost rest) rfl ?_
      rw [← h]
      simp only [step, hhost]
    | poll => exact poll_cases hhost h
    | call w => exact call_cases hhost h
    | frame wbytes r => exact frame_cases hhost h
    | write off v => exact write_cases hhost h
    | read off => exact read_cases hhost h
    | putHw a b => exact putHw_cases hhost h
    | getHr a => exact getHr_cases hhost h
    | reset => exact absurd (by rw [hhost, List.head?_cons]) hreset

/-- A step resets the block, or does one of the other things. -/
theorem step_reset_or (h : step s = .next t) : (∃ u : State, t = u.hardReset) ∨ StepCase s t := by
  by_cases hreset : s.env.host.head? = some .reset
  · obtain ⟨rest, hhost⟩ := List.head?_eq_some_iff.mp hreset
    rw [step_reset hhost] at h
    cases h
    exact .inl ⟨_, rfl⟩
  · exact .inr (step_cases h hreset)

end

/-! ## CAP and the byte spaces -/

/-- What a step keeps of CAP and of the byte spaces. -/
structure SpaceMove (s t : State) : Prop where
  params_eq : t.params = s.params
  cap_le : s.cap ≤ t.cap
  cap_range : t.cap = s.cap ∨ (s.params.floor ≤ t.cap ∧ t.cap ≤ s.params.bufMax)
  spaces : SpaceInv s → SpaceInv t

theorem SpaceMove.trans {s t u : State} (h : SpaceMove s t) (h' : SpaceMove t u) : SpaceMove s u where
  params_eq := h'.params_eq.trans h.params_eq
  cap_le := Nat.le_trans h.cap_le h'.cap_le
  cap_range := by
    rcases h'.cap_range with e | e
    · rw [e]; exact h.cap_range
    · rw [h.params_eq] at e; exact .inr e
  spaces := fun hs => h'.spaces (h.spaces hs)

theorem TickMove.spaceMove {s t : State} (h : TickMove s t) : SpaceMove s t where
  params_eq := by rw [h.only]
  cap_le := h.cap_le
  cap_range := h.cap_range
  spaces := fun ⟨hout, hin, hhw, hhr, houtCap, hinCap⟩ => by
    obtain ⟨hout', hin', houtCap', hinCap'⟩ := h.scratch ⟨hout, hin, houtCap, hinCap⟩
    exact ⟨hout', hin', by rw [h.only]; exact hhw, h.hr_wf hhr, houtCap', hinCap'⟩

/-- The host's part of a step: neither CAP nor a space of the block's own, and HW in canonical form. -/
theorem SpaceMove.of_host {s t : State} (h : HostMove s t) (hhw : memWf s.hw = true → memWf t.hw = true) :
    SpaceMove s t := by
  rw [h]
  exact ⟨rfl, Nat.le_refl _, .inl rfl, fun ⟨hout, hin, hw, hrest⟩ => ⟨hout, hin, hhw hw, hrest⟩⟩

theorem HostTurn.spaceMove {s t : State} (h : HostTurn s t) : SpaceMove s t := by
  rw [h]
  exact .of_host rfl id

theorem SpaceMove.stageExec {s : State} (hidle : s.top = .idle) (wbytes : List Byte) (r : Nat) :
    SpaceMove s (stageExec wbytes r s) := by
  rw [stageExec_idle hidle]
  exact .of_host rfl fun hw => memWriteRange_wf hw 0 wbytes

theorem StepCase.spaceMove {s t : State} (h : StepCase s t) : SpaceMove s t := by
  have acted : SpaceMove s s.acted := .of_host rfl id
  cases h with
  | turn h => exact h.spaceMove
  | phase u hu h => exact hu.spaceMove.trans (tick_move h).spaceMove
  | overrun hbusy hcommand h => exact h ▸ .of_host rfl id
  | illegal hidle h => exact h ▸ .of_host rfl id
  | operand off v hidle h => exact h ▸ .of_host rfl id
  | store a b hidle h => exact h ▸ .of_host rfl fun hw => memWrite_wf hw a b
  | call op hidle hhead h => exact acted.trans (exec_move (s := s.acted) hidle h).spaceMove
  | line wbytes r hidle hhost h =>
    exact (acted.trans (.stageExec (s := s.acted) hidle wbytes r)).trans
      (exec_move (op := .exec) (stageExec_top (s := s.acted) hidle wbytes r) h).spaceMove
  | start op hidle h => exact acted.trans (startOp_move h).spaceMove

theorem hardReset_spaceInv (s : State) : SpaceInv s.hardReset := by
  unfold SpaceInv
  refine ⟨rfl, rfl, rfl, rfl, ?_, ?_⟩ <;> exact fun _ hc => nomatch hc

/-- Settles O54: an operation keeps the spaces from its acceptance on, and the host writes HW by `memWrite`. -/
theorem stepKeepsSpaces : Obligations.StepKeepsSpaces := by
  intro s t hs h
  rcases step_reset_or h with ⟨u, rfl⟩ | hcase
  · exact hardReset_spaceInv u
  · exact hcase.spaceMove.spaces hs

/-- Settles O55: CAP changes by growth only, to a capacity between FLOOR and BUF_MAX. -/
theorem stepKeepsCapacity : Obligations.StepKeepsCapacity := by
  intro s t hs h
  rcases step_reset_or h with ⟨u, rfl⟩ | hcase
  · exact .inl rfl
  · have hmove := hcase.spaceMove
    unfold CapInv
    rw [hmove.params_eq]
    rcases hmove.cap_range with hcap | hcap
    · rw [hcap]
      exact hs
    · exact .inr hcap

end Sys2Proof.Machine
end

section
/-!
SUPPORT. What a step without a reset keeps of the flags, of ERR and RESULT, of the configuration and of the registers,
and the events it appends (10_state.md R42, R50, R56, R57, R66, R68, R71).
-/
namespace Sys2Proof.Machine

/-! ## What a phase keeps -/

/-- A phase that goes on keeps TOP, ERR and RESULT; otherwise the operation is over. -/
theorem TickNext.goesOn_or_over {s t : State} (h : TickNext s t) :
    (t.top = s.top ∧ t.err = s.err ∧ t.result = s.result) ∨ t.top = .idle ∨ t.top = .fatal := by
  obtain ⟨s0, u, hs0, ⟨evs, -, hphase⟩, ht⟩ := h
  rcases ht with rfl | ⟨code, rfl, -⟩ | ⟨-, r, rfl⟩ | rfl | rfl | rfl
  · rw [hphase.only]
    rcases hs0 with rfl | ⟨-, rfl⟩ <;> exact .inl ⟨rfl, rfl, rfl⟩
  · exact .inr (.inl rfl)
  · exact .inr (.inl rfl)
  all_goals exact .inr (.inr rfl)

theorem busyBit_of_over {t : State} (h : t.top = .idle ∨ t.top = .fatal) : t.busyBit = 0 := by
  rcases h with h | h <;> simp only [State.busyBit, h]

/-- An operation that is not `op` is not after a phase either. -/
theorem TickNext.top_ne {s t : State} (h : TickNext s t) {op : Op} (hop : s.top ≠ .run op) : t.top ≠ .run op := by
  rcases h.goesOn_or_over with ⟨htop, -⟩ | htop | htop <;> rw [htop]
  · exact hop
  all_goals exact nofun

/-- RESULT is written by XBIT and XBYTE only (R50). -/
theorem TickNext.result_eq {s t : State} (h : TickNext s t) (hxbit : s.top ≠ .run .xbit)
    (hxbyte : s.top ≠ .run .xbyte) : t.result = s.result := by
  obtain ⟨s0, u, hs0, ⟨evs, -, hphase⟩, ht⟩ := h
  have hu : u.result = s.result := by
    rw [hphase.only]
    rcases hs0 with rfl | ⟨-, rfl⟩ <;> rfl
  rcases ht with rfl | ⟨code, rfl, -⟩ | ⟨htop, -⟩ | rfl | rfl | rfl
  · exact hu
  · exact hu
  · exact absurd htop (not_or.mpr ⟨hxbit, hxbyte⟩)
  all_goals exact hu

theorem tick_result_eq {r : Byte} {u v : State} (hu : u.result = r ∧ u.top ≠ .run .xbit ∧ u.top ≠ .run .xbyte)
    (htick : tick u = .next v) : v.result = r ∧ v.top ≠ .run .xbit ∧ v.top ≠ .run .xbyte := by
  obtain ⟨hresult, hxbit, hxbyte⟩ := hu
  rcases tick_next htick with ⟨-, rfl⟩ | ⟨-, hnext⟩
  · exact ⟨hresult, hxbit, hxbyte⟩
  · exact ⟨(hnext.result_eq hxbit hxbyte).trans hresult, hnext.top_ne hxbit, hnext.top_ne hxbyte⟩

/-- The configuration is latched by INIT only (R68). -/
theorem TickNext.config_eq {s t : State} (h : TickNext s t) (hinit : s.top ≠ .run .init) :
    t.backendSel = s.backendSel ∧ t.halfPeriod = s.halfPeriod := by
  obtain ⟨s0, u, hs0, ⟨evs, -, hphase⟩, ht⟩ := h
  have hu : u.backendSel = s.backendSel ∧ u.halfPeriod = s.halfPeriod := by
    rw [hphase.only]
    rcases hs0 with rfl | ⟨htop, -⟩
    · exact ⟨rfl, rfl⟩
    · exact absurd htop hinit
  rcases ht with rfl | ⟨code, rfl, -⟩ | ⟨-, r, rfl⟩ | rfl | rfl | rfl <;> exact hu

/-- ERR gets a code of R240, a fatal one exactly in FATAL (R57). -/
theorem TickNext.errInv {s t : State} (h : TickNext s t) (hs : ErrInv s) : ErrInv t := by
  obtain ⟨s0, u, hs0, ⟨evs, -, hphase⟩, ht⟩ := h
  have hu : ErrInv u := by
    unfold ErrInv
    rw [hphase.only]
    rcases hs0 with rfl | ⟨-, rfl⟩ <;> exact hs
  have ended {v : State} {code : Byte} (hcode : code.toNat ≤ 8 ∧ code ≠ codeAllocationFailure ∧ code ≠ codeNoBackend
      ∧ code ≠ codeBackendFault) : ErrInv (v.endOp code) := by
    obtain ⟨hle, halloc, hnone, hfault⟩ := hcode
    exact ⟨hle, nofun, fun h => absurd h (not_or.mpr ⟨halloc, not_or.mpr ⟨hnone, hfault⟩⟩)⟩
  have stopped {v : State} {code : Byte} (hcode : code.toNat ≤ 8 ∧ (code = codeAllocationFailure ∨ code = codeNoBackend
      ∨ code = codeBackendFault)) : ErrInv (v.raiseFatal code) :=
    ⟨hcode.1, fun _ => hcode.2, fun _ => rfl⟩
  rcases ht with rfl | ⟨code, rfl, hcode⟩ | ⟨-, r, rfl⟩ | rfl | rfl | rfl
  · exact hu
  · rcases hcode with rfl | rfl | rfl | rfl | rfl <;> exact ended (by decide)
  · exact ended (by decide)
  all_goals exact stopped (by decide)

/-- INIT emits no DELAY (R230). -/
theorem initTick_events (s : State) :
    (initTick s).All (fun _ t => ∃ evs, t.trace = evs ++ s.trace ∧ ∀ d, Event.delay d ∉ evs)
      fun t => ∃ evs, t.trace = evs ++ s.trace ∧ ∀ d, Event.delay d ∉ evs := by
  unfold initTick
  split
  · split <;> exact ⟨[], rfl, nofun⟩
  · obtain ⟨pf, h | h | h⟩ := resolve_cases s <;> simp only [setCs, h, Run.bind_ok, Run.bind_halt, Run.All]
    · exact ⟨[.cs s.params.csDeassert], rfl, by simp⟩
    all_goals exact ⟨[], rfl, nofun⟩
  · obtain ⟨pf, h | h | h⟩ := resolve_cases s <;> simp only [setSck, h, Run.bind_ok, Run.bind_halt, Run.All]
    · exact ⟨[.sck 0], rfl, by simp⟩
    all_goals exact ⟨[], rfl, nofun⟩

/-- What a phase of an operation does wherever it leads, `tick` does. -/
theorem tick_of_opTick {op : Op} {s t : State} {P : State → Prop} (htop : s.top = .run op)
    (hall : (opTick op s).All (fun _ u => P u) P) (h : tick s = .next t) : P t := by
  simp only [tick, htop] at h
  split at h
  all_goals rename_i hrun
  · rw [hrun] at hall
    cases h
    exact hall
  · rw [hrun] at hall
    cases h
    exact hall
  · cases h

/-- The events of a phase: one at most, and a DELAY of the half period, INIT emitting none. -/
theorem tick_events {s t : State} (h : tick s = .next t) :
    ∃ evs, t.trace = evs ++ s.trace ∧ evs.length ≤ 1
      ∧ ∀ d, Event.delay d ∈ evs → d = s.halfPeriod ∧ s.top ≠ .run .init := by
  rcases tick_next h with ⟨-, rfl⟩ | ⟨-, s0, u, hs0, ⟨evs, hone, hphase⟩, ht⟩
  · exact ⟨[], rfl, Nat.zero_le 1, nofun⟩
  have htrace : t.trace = evs ++ s.trace := by
    have hu : u.trace = evs ++ s.trace := by
      rw [hphase.events]
      rcases hs0 with rfl | ⟨-, rfl⟩ <;> rfl
    rcases ht with rfl | ⟨code, rfl, -⟩ | ⟨-, r, rfl⟩ | rfl | rfl | rfl <;> exact hu
  refine ⟨evs, htrace, hone, fun d hd => ?_⟩
  by_cases hinit : s.top = .run .init
  · obtain ⟨evs', htrace', hnone⟩ := tick_of_opTick
      (P := fun t => ∃ evs, t.trace = evs ++ s.trace ∧ ∀ d, Event.delay d ∉ evs) hinit (initTick_events s) h
    rw [List.append_cancel_right (htrace.symm.trans htrace')] at hd
    exact absurd hd (hnone d)
  · rcases hs0 with rfl | ⟨htop, -⟩
    · exact ⟨hphase.delays d hd, hinit⟩
    · exact absurd htop hinit

/-- Where a transaction stops, CAP could not grow or covers it (R71, R172). -/
theorem transaction_halts (wbytes : List Byte) (r : Nat) (s : State) :
    (transaction wbytes r s).All (fun _ _ => True) fun t =>
      t.err = codeAllocationFailure ∨ max (wbytes.length + r) s.params.floor ≤ t.cap := by
  unfold transaction
  split
  · trivial
  · have hgrow : (grow (max (wbytes.length + r) s.params.floor) s).All
        (fun _ t => max (wbytes.length + r) s.params.floor ≤ t.cap)
        fun t => t.err = codeAllocationFailure ∨ max (wbytes.length + r) s.params.floor ≤ t.cap := by
      unfold grow
      split
      · split
        · exact .inl rfl
        · exact Nat.le_refl _
      · exact Nat.le_of_not_lt ‹_›
    refine hgrow.bind fun _ u hu => ?_
    have hcap : wbytes.length + r ≤ (fillScratch wbytes r u).cap := Nat.le_trans (Nat.le_max_left _ _) hu
    refine ((frameRun_all _ (fillScratch wbytes r u) hcap).imp (fun _ _ h => h) fun t ht => ?_).bind
      fun _ _ _ => trivial
    obtain ⟨v, hv, rfl | rfl | rfl⟩ := ht <;> exact .inr (Nat.le_trans hu hv.cap_le)

/-! ## The parts of a step -/

/-- The host's part of a step: HW, the operand registers, OVR, and ERR where an idle block finds a command illegal. -/
def HostPart (s u : State) : Prop := HostMove s u ∧ (u.err = s.err ∨ s.top = .idle ∧ u.err = codeIllegalCommand)

/-- What a step without a reset does: the host's part alone, a phase, or an operation, called and carried as far as the
call goes, or accepted in its register form (log 2). -/
inductive StepPart (s t : State) : Prop where
  | host (h : HostPart s t)
  | phase (u : State) (hu : HostTurn s u) (h : tick u = .next t)
  | operation (op : Op) (u s0 : State) (hu : HostMove s u) (herr : u.err = s.err) (hidle : s.top = .idle)
    (hstart : startOp op u = .next s0) (hticks : Ticks s0 t)
    (hissue : t = s0 ∨ s.env.host.head? = some (.call (encodeOp op)) ∨ op = .exec ∧ s.env.host ≠ [])

theorem HostTurn.hostMove {s u : State} (h : HostTurn s u) : HostMove s u := by
  rw [h]
  rfl

theorem StepCase.part {s t : State} (h : StepCase s t) : StepPart s t := by
  cases h with
  | turn h => exact .host ⟨h.hostMove, .inl (by rw [h])⟩
  | phase u hu h => exact .phase u hu h
  | overrun hbusy hcommand h => exact .host (h ▸ ⟨rfl, .inl rfl⟩)
  | illegal hidle h => exact .host (h ▸ ⟨rfl, .inr ⟨hidle, rfl⟩⟩)
  | operand off v hidle h => exact .host (h ▸ ⟨rfl, .inl rfl⟩)
  | store a b hidle h => exact .host (h ▸ ⟨rfl, .inl rfl⟩)
  | call op hidle hhead h =>
    obtain ⟨s0, hstart, hticks⟩ := exec_ticks (s := s.acted) op hidle h
    exact .operation op s.acted s0 rfl rfl hidle hstart hticks (.inr (.inl hhead))
  | line wbytes r hidle hhost h =>
    have hidle' : s.acted.top = .idle := hidle
    have hstage := stageExec_idle hidle' wbytes r
    obtain ⟨s0, hstart, hticks⟩ := exec_ticks .exec (stageExec_top hidle' wbytes r) h
    exact .operation .exec _ s0 (by rw [hstage]; rfl) (by rw [hstage]; rfl) hidle hstart hticks
      (.inr (.inr ⟨rfl, hhost⟩))
  | start op hidle h => exact .operation op s.acted t rfl rfl hidle h .refl (.inl rfl)

theorem tick_errInv {s t : State} (hs : ErrInv s) (h : tick s = .next t) : ErrInv t := by
  rcases tick_next h with ⟨-, rfl⟩ | ⟨-, hnext⟩
  · exact hs
  · exact hnext.errInv hs

theorem hardReset_errInv (s : State) : ErrInv s.hardReset := by
  have herr : s.hardReset.err = 0x00 := rfl
  have htop : s.hardReset.top = .idle := rfl
  unfold ErrInv
  rw [herr, htop]
  decide

theorem HostPart.errInv {s t : State} (h : HostPart s t) (hs : ErrInv s) : ErrInv t := by
  obtain ⟨hmove, herr⟩ := h
  have htop : t.top = s.top := by rw [hmove]
  unfold ErrInv
  rw [htop]
  rcases herr with herr | ⟨hidle, herr⟩ <;> rw [herr]
  · exact hs
  · rw [hidle]
    decide

theorem step_parts {s t : State} (h : step s = .next t) (hreset : s.env.host.head? ≠ some .reset) : StepPart s t :=
  (step_cases h hreset).part

/-! ## The events of a step -/

/-- The events since `s`, an operation accepted: each DELAY of the half period it had then, which only INIT changes. -/
def EventsSince (s t : State) : Prop :=
  (∃ evs, t.trace = evs ++ s.trace ∧ ∀ d, Event.delay d ∈ evs → d = s.halfPeriod)
    ∧ (t.busyBit = 1 → t.top = .run .init ∨ t.halfPeriod = s.halfPeriod)

theorem EventsSince.start (s : State) : EventsSince s s := ⟨⟨[], rfl, nofun⟩, fun _ => .inr rfl⟩

theorem EventsSince.tick {s u v : State} (h : EventsSince s u) (htick : tick u = .next v) : EventsSince s v := by
  obtain ⟨⟨evs, htrace, hdelays⟩, hhalf⟩ := h
  obtain ⟨evs', htrace', -, hdelays'⟩ := tick_events htick
  rcases tick_next htick with ⟨-, rfl⟩ | ⟨hbusy, hnext⟩
  · exact ⟨⟨evs, htrace, hdelays⟩, hhalf⟩
  refine ⟨⟨evs' ++ evs, by rw [htrace', htrace, List.append_assoc], fun d hd => ?_⟩, fun hbusy' => ?_⟩
  · rcases List.mem_append.mp hd with hd | hd
    · obtain ⟨hd, hinit⟩ := hdelays' d hd
      exact hd.trans ((hhalf hbusy).resolve_left hinit)
    · exact hdelays d hd
  · by_cases hinit : u.top = .run .init
    · rcases hnext.goesOn_or_over with ⟨htop, -⟩ | hover
      · exact .inl (htop.trans hinit)
      · exact absurd (hbusy'.symm.trans (busyBit_of_over hover)) (by decide)
    · exact .inr ((hnext.config_eq hinit).2.trans ((hhalf hbusy).resolve_left hinit))

/-! ## Statements -/

/-- Settles O53: a step without a reset moves CAP up only, and a transaction has grown CAP before it can do more than
fail to grow it. -/
theorem capacityNeverShrinks : Obligations.CapacityNeverShrinks := by
  refine ⟨fun s t h hreset => (step_cases h hreset).spaceMove.cap_le, fun s t wbytes r rbytes h => ?_,
    fun s t wbytes r h herr => ?_⟩
  · have hall := transaction_all wbytes r s
    rw [h] at hall
    obtain ⟨-, -, ⟨hrefused, -⟩ | ⟨-, -, -, hcap⟩⟩ := hall
    · have hcode : (0x00 : Byte) = codeInvalidLength := congrArg Prod.fst hrefused
      exact absurd hcode (by decide)
    · exact hcap
  · have hall := transaction_halts wbytes r s
    rw [h] at hall
    exact hall.resolve_left herr

/-- Settles O56: from the codes a phase can end with, and the illegal command of an idle block. -/
theorem stepKeepsErrorCode : Obligations.StepKeepsErrorCode := by
  intro s t hs h
  rcases step_reset_or h with ⟨u, rfl⟩ | hcase
  · exact hardReset_errInv u
  cases hcase.part with
  | host h => exact h.errInv hs
  | phase u hu h =>
    have hu' : ErrInv u := by rw [hu]; exact hs
    exact tick_errInv hu' h
  | operation op u s0 hu herr hidle hstart hticks hissue =>
    refine hticks.keeps (P := ErrInv) (fun _ _ => tick_errInv) ?_
    have hnot : ¬ s.top = .fatal := by rw [hidle]; exact nofun
    rw [startOp_next hstart]
    exact ⟨herr ▸ hs.1, nofun, fun h => absurd (hs.2.mpr (herr ▸ h)) hnot⟩

/-- Settles O46: ERR is written where an operation is over, and by an illegal command, which leaves the block idle. -/
theorem errHoldsWhileBusy : Obligations.ErrHoldsWhileBusy := by
  intro s t h hreset hbusy
  have kept {u v : State} (hu : u.busyBit = 1 → u.err = s.err) (htick : tick u = .next v) (hv : v.busyBit = 1) :
      v.err = s.err := by
    rcases tick_next htick with ⟨-, rfl⟩ | ⟨hbusy', hnext⟩
    · exact hu hv
    · rcases hnext.goesOn_or_over with ⟨-, herr, -⟩ | hover
      · exact herr.trans (hu hbusy')
      · exact absurd (hv.symm.trans (busyBit_of_over hover)) (by decide)
  cases step_parts h hreset with
  | host h =>
    obtain ⟨hmove, herr | ⟨hidle, -⟩⟩ := h
    · exact herr
    · rw [hmove] at hbusy
      exact absurd (hbusy.symm.trans (busyBit_of_over (.inl hidle))) (by decide)
  | phase u hu h => exact kept (fun _ => by rw [hu]) h hbusy
  | operation op u s0 hu herr hidle hstart hticks hissue =>
    refine hticks.keeps (P := fun v => v.busyBit = 1 → v.err = s.err) (fun _ _ hv htick => kept hv htick) (fun _ => ?_)
      hbusy
    rw [startOp_next hstart]
    exact herr

/-- Settles O47: of the operations a call carries on only XBIT and XBYTE write RESULT. -/
theorem resultOnlyByTransfers : Obligations.ResultOnlyByTransfers := by
  intro s t h hreset hchanged
  cases step_parts h hreset with
  | host h => exact absurd (by rw [h.1]) hchanged
  | phase u hu h =>
    by_contra hnot
    obtain ⟨-, hnot⟩ := not_or.mp hnot
    obtain ⟨hxbit, hxbyte⟩ := not_or.mp hnot
    exact hchanged (tick_result_eq (by rw [hu]; exact ⟨rfl, hxbit, hxbyte⟩) h).1
  | operation op u s0 hu herr hidle hstart hticks hissue =>
    have hs0 : s0.result = s.result := by rw [startOp_next hstart, hu]
    have htop : s0.top = .run op := by rw [startOp_next hstart]
    have hother (hxbit : op ≠ .xbit) (hxbyte : op ≠ .xbyte) : t.result = s.result := by
      refine (hticks.keeps (P := fun v => v.result = s.result ∧ v.top ≠ .run .xbit ∧ v.top ≠ .run .xbyte)
        (fun _ _ => tick_result_eq) ⟨hs0, ?_⟩).1
      rw [htop]
      exact ⟨fun h => hxbit (Top.run.inj h), fun h => hxbyte (Top.run.inj h)⟩
    rcases hissue with rfl | hhead | ⟨rfl, -⟩
    · exact absurd hs0 hchanged
    · by_cases hxbit : op = .xbit
      · subst hxbit
        exact .inl ⟨hidle, .inl hhead⟩
      by_cases hxbyte : op = .xbyte
      · subst hxbyte
        exact .inl ⟨hidle, .inr hhead⟩
      exact absurd (hother hxbit hxbyte) hchanged
    · exact absurd (hother nofun nofun) hchanged

/-- Settles O13: of the operations only INIT writes the configuration, and a call of INIT is its command word. -/
theorem configurationOnlyByInit : Obligations.ConfigurationOnlyByInit := by
  intro s t h hreset hrun hcall
  have kept {u v : State} (hu : (u.backendSel = s.backendSel ∧ u.halfPeriod = s.halfPeriod) ∧ u.top ≠ .run .init)
      (htick : tick u = .next v) :
      (v.backendSel = s.backendSel ∧ v.halfPeriod = s.halfPeriod) ∧ v.top ≠ .run .init := by
    rcases tick_next htick with ⟨-, rfl⟩ | ⟨-, hnext⟩
    · exact hu
    · obtain ⟨hsel, hhalf⟩ := hnext.config_eq hu.2
      exact ⟨⟨hsel.trans hu.1.1, hhalf.trans hu.1.2⟩, hnext.top_ne hu.2⟩
  cases step_parts h hreset with
  | host h =>
    rw [h.1]
    exact ⟨rfl, rfl⟩
  | phase u hu h => exact (kept (by rw [hu]; exact ⟨⟨rfl, rfl⟩, hrun⟩) h).1
  | operation op u s0 hu herr hidle hstart hticks hissue =>
    have hs0 : s0.backendSel = s.backendSel ∧ s0.halfPeriod = s.halfPeriod := by
      rw [startOp_next hstart, hu]
      exact ⟨rfl, rfl⟩
    have htop : s0.top = .run op := by rw [startOp_next hstart]
    have hother (hop : op ≠ .init) : t.backendSel = s.backendSel ∧ t.halfPeriod = s.halfPeriod := by
      refine (hticks.keeps (P := fun v => (v.backendSel = s.backendSel ∧ v.halfPeriod = s.halfPeriod)
        ∧ v.top ≠ .run .init) (fun _ _ => kept) ⟨hs0, ?_⟩).1
      rw [htop]
      exact fun h => hop (Top.run.inj h)
    rcases hissue with rfl | hhead | ⟨rfl, -⟩
    · exact hs0
    · refine hother fun hop => hcall ?_
      rw [hhead, hop]
      rfl
    · exact hother nofun

/-- Settles O60: a phase appends its event, and the half period changes in INIT only, which emits no DELAY. -/
theorem eventsOfAStep : Obligations.EventsOfAStep := by
  intro s t h hreset
  cases step_parts h hreset with
  | host h =>
    refine ⟨[], ?_, nofun, fun _ => Nat.zero_le 1⟩
    rw [h.1]
    rfl
  | phase u hu h =>
    obtain ⟨evs, htrace, hone, hdelays⟩ := tick_events h
    refine ⟨evs, ?_, fun d hd => ?_, fun _ => hone⟩
    · rw [htrace, hu]
    · rw [(hdelays d hd).1, hu]
  | operation op u s0 hu herr hidle hstart hticks hissue =>
    have hs0 : s0.trace = s.trace ∧ s0.halfPeriod = s.halfPeriod := by
      rw [startOp_next hstart, hu]
      exact ⟨rfl, rfl⟩
    rcases hissue with rfl | hissue
    · exact ⟨[], hs0.1, nofun, fun _ => Nat.zero_le 1⟩
    · have hhost : s.env.host ≠ [] := by
        rcases hissue with hhead | ⟨-, hhost⟩
        · exact fun hnil => by rw [hnil] at hhead; cases hhead
        · exact hhost
      obtain ⟨evs, htrace, hdelays⟩ := (hticks.keeps (fun _ _ => EventsSince.tick) (EventsSince.start s0)).1
      exact ⟨evs, hs0.1 ▸ htrace, hs0.2 ▸ hdelays, fun hnil => absurd hnil hhost⟩

/-- A step without a reset writes OVR only where it discards a command. -/
theorem StepCase.ovr {s t : State} (h : StepCase s t) : t.ovr = s.ovr ∨ t.ovr = 1 ∧ s.top ≠ .idle ∧ CommandNext s := by
  cases h with
  | turn h => exact .inl (by rw [h])
  | phase u hu h => exact .inl (by rw [(tick_move h).only, hu])
  | overrun hbusy hcommand h => exact .inr ⟨by rw [h], hbusy, hcommand⟩
  | illegal hidle h => exact .inl (by rw [h]; rfl)
  | operand off v hidle h => exact .inl (by rw [h]; rfl)
  | store a b hidle h => exact .inl (by rw [h]; rfl)
  | call op hidle hhead h => exact .inl (by rw [(exec_move (s := s.acted) hidle h).only]; rfl)
  | line wbytes r hidle hhost h =>
    have hidle' : s.acted.top = .idle := hidle
    exact .inl (by rw [(exec_move (op := .exec) (stageExec_top hidle' wbytes r) h).only, stageExec_idle hidle']; rfl)
  | start op hidle h => exact .inl (by rw [(startOp_move h).only]; rfl)

/-- A command issued in a state that is not idle is discarded, and OVR set (R56, R262). -/
theorem step_commandNext {s t : State} (hbusy : s.top ≠ .idle) (hcommand : CommandNext s) (h : step s = .next t) :
    t.ovr = 1 := by
  rcases hcommand with ⟨w, hhead⟩ | ⟨w, hhead⟩ | ⟨wbytes, r, hhead⟩ <;>
    obtain ⟨rest, hhost⟩ := List.head?_eq_some_iff.mp hhead
  · rw [step_call_notIdle hbusy hhost] at h
    cases h
    rfl
  · rw [step_writeCmd_notIdle hbusy hhost] at h
    cases h
    rfl
  · rw [step_frame_notIdle hbusy hhost] at h
    cases h
    rfl

/-- Settles O11: OVR changes only where a command is discarded, and every command is that is issued while not idle. -/
theorem overrunSticky : Obligations.OverrunSticky := by
  refine ⟨rfl, fun s t h hreset => ?_⟩
  have hovr := (step_cases h hreset).ovr
  refine ⟨fun hset => ?_, fun hchanged => ?_, fun hbusy hcommand => step_commandNext hbusy hcommand h⟩
  · rcases hovr with hkept | ⟨hset', -⟩
    · exact hkept.trans hset
    · exact hset'
  · obtain ⟨hset, hbusy, hcall | hwrite | hframe⟩ := hovr.resolve_left hchanged
    · exact ⟨hset, hbusy, .inl hcall⟩
    · exact ⟨hset, hbusy, .inr (.inr hwrite)⟩
    · exact ⟨hset, hbusy, .inr (.inl hframe)⟩

end Sys2Proof.Machine
end

section
/-!
SUPPORT. The register window: an operand register reads back what was written to it, and every register what the map
says of it (10_state.md R66, R67; 30_encoding.md R110; 93_implementation_defined.md U15).
-/
namespace Sys2Proof.Machine

/-! ## Operand registers -/

/-- The operand registers, with the bits each has (R66). -/
def OperandRegister (off mask : Word) : Prop :=
  (off = 0x08 ∧ mask = 0xFF) ∨ (off = 0x0C ∧ mask = 0xFFFFFFFF) ∨ (off = 0x10 ∧ mask = 0xFFFFFFFF)
    ∨ (off = 0x14 ∧ mask = 0xFFFFFFFF) ∨ (off = 0x18 ∧ mask = 0xFFFFFFFF) ∨ (off = 0x1C ∧ mask = 0xFFFFFFFF)
    ∨ (off = 0x20 ∧ mask = 0xFFFF) ∨ (off = 0x24 ∧ mask = 0xFF)

/-- Dropping the bits from `k` on. -/
theorem setWidth_setWidth_eq_and {k : Nat} (hk : k ≤ 32) (v : Word) :
    (v.setWidth k).setWidth 32 = v &&& BitVec.ofNat 32 (2 ^ k - 1) := by
  have hpow : 2 ^ k ≤ 2 ^ 32 := Nat.pow_le_pow_right (by decide) hk
  have hpos := Nat.two_pow_pos k
  refine BitVec.eq_of_toNat_eq ?_
  rw [BitVec.toNat_and, BitVec.toNat_ofNat, Nat.mod_eq_of_lt (by omega : 2 ^ k - 1 < 2 ^ 32),
    Nat.and_two_pow_sub_one_eq_mod, BitVec.toNat_setWidth, BitVec.toNat_setWidth,
    Nat.mod_eq_of_lt (Nat.lt_of_lt_of_le (Nat.mod_lt _ hpos) hpow)]

theorem and_allBits (v : Word) : v &&& 0xFFFFFFFF = v := BitVec.and_allOnes

theorem regValue_writeOperand_same {off mask : Word} (hoff : OperandRegister off mask) (v : Word) (s : State) :
    regValue off.toNat { s with ops := writeOperand off.toNat v s.ops } = v &&& mask := by
  rcases hoff with ⟨rfl, rfl⟩ | ⟨rfl, rfl⟩ | ⟨rfl, rfl⟩ | ⟨rfl, rfl⟩ | ⟨rfl, rfl⟩ | ⟨rfl, rfl⟩ | ⟨rfl, rfl⟩ | ⟨rfl, rfl⟩
  · exact setWidth_setWidth_eq_and (k := 8) (by decide) v
  · exact (and_allBits v).symm
  · exact (and_allBits v).symm
  · exact (and_allBits v).symm
  · exact (and_allBits v).symm
  · exact (and_allBits v).symm
  · exact setWidth_setWidth_eq_and (k := 16) (by decide) v
  · exact setWidth_setWidth_eq_and (k := 8) (by decide) v

/-- No register shows the host's list or the outside world. -/
theorem regValue_env (e : Env) (s : State) (a : Nat) : regValue a { s with env := e } = regValue a s := rfl

/-- No other register shows a write. -/
theorem regValue_writeOperand_other {off a : Nat} (h : a ≠ off) (v : Word) (s : State) :
    regValue a { s with ops := writeOperand off v s.ops } = regValue a s := by
  unfold writeOperand
  split <;> unfold regValue <;> split
  all_goals try rfl
  all_goals exact absurd rfl h

theorem hostReadReg_settled {s : State} {off : Word} (haligned : off.toNat % 4 = 0)
    (hsettled : s.busyBit = 0 ∨ unsettled off.toNat = false) :
    hostReadReg off s = .next (s.hostGets (regValue off.toNat s)) := by
  rcases hostReadReg_cases off s with ⟨hunaligned, -⟩ | ⟨-, hbusy, hunsettled, -⟩ | ⟨-, -, h⟩
  · exact absurd haligned hunaligned
  · rw [hbusy, hunsettled] at hsettled
    exact absurd hsettled (by decide)
  · exact h

theorem OperandRegister.aligned {off mask : Word} (h : OperandRegister off mask) :
    off.toNat % 4 = 0 ∧ off.toNat ≠ 0x00 := by
  rcases h with ⟨rfl, -⟩ | ⟨rfl, -⟩ | ⟨rfl, -⟩ | ⟨rfl, -⟩ | ⟨rfl, -⟩ | ⟨rfl, -⟩ | ⟨rfl, -⟩ | ⟨rfl, -⟩ <;> decide

theorem hostWrite_operand {s : State} {off mask : Word} (hidle : s.top = .idle) (hoff : OperandRegister off mask)
    (v : Word) : hostWrite off v s = .next { s with ops := writeOperand off.toNat v s.ops } := by
  obtain ⟨haligned, hcmd⟩ := hoff.aligned
  rw [hostWrite, if_neg (not_not.mpr haligned), if_neg hcmd, if_pos hidle]

/-- A write of an operand register while idle, read back. -/
theorem run_write_read {s : State} {v off mask : Word} (hidle : s.top = .idle) (hoff : OperandRegister off mask)
    (hhost : s.env.host = [.write off v, .read off]) :
    Host.Core.run core 2 s = .next
      ({ s with ops := writeOperand off.toNat v s.ops, env.host := [] }.hostGets (v &&& mask)) := by
  have hidle' : (s.withHost [.read off]).top = .idle := hidle
  have hwrite := (step_write hhost).trans (hostWrite_operand hidle' hoff v)
  have hsettled : ({ s with ops := writeOperand off.toNat v s.ops, env.host := [] } : State).busyBit = 0 :=
    busyBit_of_over (.inl hidle)
  have hread := hostReadReg_settled hoff.aligned.1 (.inl hsettled)
  rw [regValue_writeOperand_same hoff v { s with env.host := [] }] at hread
  rw [run_succ_of_step hwrite, run_succ_of_step ((step_read rfl).trans hread)]
  rfl

/-- The host writes an operand register only while idle, and the block none. -/
theorem StepCase.ops_eq {s t : State} (h : StepCase s t) (hbusy : s.top ≠ .idle) : t.ops = s.ops := by
  cases h with
  | turn h => rw [h]
  | phase u hu h => rw [(tick_move h).only, hu]
  | overrun _ hcommand h =>
    rw [h]
    rfl
  | illegal hidle h => exact absurd hidle hbusy
  | operand off v hidle h => exact absurd hidle hbusy
  | store a b hidle h => exact absurd hidle hbusy
  | call op hidle hhead h => exact absurd hidle hbusy
  | line wbytes r hidle hhost h => exact absurd hidle hbusy
  | start op hidle h => exact absurd hidle hbusy

/-- Settles O48: a write followed by the read of the same register, and the cases of a step while not idle. -/
theorem operandRegisters : Obligations.OperandRegisters := by
  refine ⟨?_, fun s v off mask hidle hoff hhost => ?_, fun s t hbusy hreset h => (step_cases h hreset).ops_eq hbusy⟩
  · rintro r rfl
    exact ⟨rfl, rfl, rfl, rfl, rfl, rfl, rfl, rfl⟩
  · refine ⟨_, run_write_read hidle hoff hhost, rfl, rfl, fun a ha => ?_⟩
    exact (regValue_env _ { s with ops := writeOperand off.toNat v s.ops } a).trans
      (regValue_writeOperand_other ha v s)

/-! ## The register map -/
/-- The fields of STATUS (R67). -/
theorem statusWord_fields (s : State) :
    s.statusWord.extractLsb' 0 1 = s.busyBit ∧ s.statusWord.extractLsb' 1 1 = s.fatalBit
      ∧ s.statusWord.extractLsb' 2 1 = s.ovr ∧ s.statusWord.extractLsb' 3 1 = s.initedBit
      ∧ s.statusWord.extractLsb' 4 4 = 0 ∧ s.statusWord.extractLsb' 8 8 = s.err
      ∧ s.statusWord.extractLsb' 16 16 = 0 := by
  have afterBusy {start len : Nat} (h : 1 ≤ start) : s.statusWord.extractLsb' start len
      = (0#16 ++ s.err ++ 0#4 ++ s.initedBit ++ s.ovr ++ s.fatalBit).extractLsb' (start - 1) len :=
    BitVec.extractLsb'_append_eq_of_le h
  have afterFlags {start len : Nat} (h : 4 ≤ start) : s.statusWord.extractLsb' start len
      = (0#16 ++ s.err ++ 0#4).extractLsb' (start - 1 - 1 - 1 - 1) len :=
    (afterBusy (by omega)).trans ((BitVec.extractLsb'_append_eq_of_le (by omega)).trans
      ((BitVec.extractLsb'_append_eq_of_le (by omega)).trans (BitVec.extractLsb'_append_eq_of_le (by omega))))
  refine ⟨BitVec.extractLsb'_append_eq_right, (afterBusy (by decide)).trans BitVec.extractLsb'_append_eq_right,
    (afterBusy (by decide)).trans ((BitVec.extractLsb'_append_eq_of_le (by decide)).trans
      BitVec.extractLsb'_append_eq_right),
    (afterBusy (by decide)).trans ((BitVec.extractLsb'_append_eq_of_le (by decide)).trans
      ((BitVec.extractLsb'_append_eq_of_le (by decide)).trans BitVec.extractLsb'_append_eq_right)),
    (afterFlags (by decide)).trans BitVec.extractLsb'_append_eq_right,
    (afterFlags (by decide)).trans ((BitVec.extractLsb'_append_eq_of_le (by decide)).trans
      BitVec.extractLsb'_append_eq_right),
    (afterFlags (by decide)).trans ((BitVec.extractLsb'_append_eq_of_le (by decide)).trans
      ((BitVec.extractLsb'_append_eq_of_le (by decide)).trans BitVec.extractLsb'_eq_self))⟩

theorem initedBit_eq_one_iff (s : State) : s.initedBit = 1 ↔ s.backendSel ∈ s.params.validBackends := by
  unfold State.initedBit
  split <;> simp [*]

theorem pinsWord_fields (p : Pins) :
    (pinsWord p).extractLsb' 0 1 = p.cs ∧ (pinsWord p).extractLsb' 1 1 = p.sck ∧ (pinsWord p).extractLsb' 2 1 = p.mosi
      ∧ (pinsWord p).extractLsb' 3 29 = 0 := by
  have afterCs {start len : Nat} (h : 1 ≤ start) : (pinsWord p).extractLsb' start len
      = (0#29 ++ p.mosi ++ p.sck).extractLsb' (start - 1) len :=
    BitVec.extractLsb'_append_eq_of_le h
  refine ⟨BitVec.extractLsb'_append_eq_right, (afterCs (by decide)).trans BitVec.extractLsb'_append_eq_right,
    (afterCs (by decide)).trans ((BitVec.extractLsb'_append_eq_of_le (by decide)).trans
      BitVec.extractLsb'_append_eq_right),
    (afterCs (by decide)).trans ((BitVec.extractLsb'_append_eq_of_le (by decide)).trans
      ((BitVec.extractLsb'_append_eq_of_le (by decide)).trans BitVec.extractLsb'_eq_self))⟩

/-- Reserved offsets read 0 (R67). -/
theorem regValue_reserved {off : Nat} (h : 0x40 ≤ off) (s : State) : regValue off s = 0 := by
  unfold regValue
  split
  case h_17 => rfl
  all_goals omega

theorem not_unsettled {off : Nat} (h : off < 0x28 ∨ off = 0x2C ∨ 0x40 ≤ off) : unsettled off = false := by
  unfold unsettled
  split
  case h_6 => rfl
  all_goals omega

/-- The registers of U15. -/
def UnsettledRegister (off : Word) : Prop := off = 0x28 ∨ off = 0x30 ∨ off = 0x34 ∨ off = 0x38 ∨ off = 0x3C

theorem UnsettledRegister.unsettled {off : Word} (h : UnsettledRegister off) : unsettled off.toNat = true := by
  rcases h with rfl | rfl | rfl | rfl | rfl <;> rfl

theorem hostReadReg_unsettled {s : State} {off : Word} (haligned : off.toNat % 4 = 0) (hbusy : s.busyBit = 1)
    (hoff : UnsettledRegister off) :
    hostReadReg off s = .next ({ s with env.fresh := s.env.fresh + 1 }.hostGets
      (regInOp off.toNat (Config.busyMoment s.env.fresh) s)) := by
  rcases hostReadReg_cases off s with ⟨hunaligned, -⟩ | ⟨-, -, -, h⟩ | ⟨-, hsettled, -⟩
  · exact absurd haligned hunaligned
  · exact h
  · rw [hbusy, hoff.unsettled] at hsettled
    exact absurd hsettled (by decide)

/-- While the host does nothing, the state some phases on is one the machine runs to. -/
theorem runsTo_ahead (n : Nat) {s : State} (hhost : s.env.host = []) : RunsTo s (s.ahead n) := by
  induction n generalizing s with
  | zero => exact .refl s
  | succ n ih =>
    unfold State.ahead
    split
    · rename_i t ht
      have hkeeps := congrArg (fun u => u.env.host) (tick_move ht).only
      exact .head ((step_noHost hhost).trans ht) (ih (hkeeps.trans hhost))
    · exact .refl s
    · exact .refl s

/-- RESULT is the same at every moment of an operation that is neither XBIT nor XBYTE (R50). -/
theorem ahead_result (n : Nat) {s : State} (hxbit : s.top ≠ .run .xbit) (hxbyte : s.top ≠ .run .xbyte) :
    (s.ahead n).result = s.result :=
  (ahead_keeps (P := fun u => u.result = s.result ∧ u.top ≠ .run .xbit ∧ u.top ≠ .run .xbyte)
    (fun _ _ hu htick => tick_result_eq hu htick) n s ⟨rfl, hxbit, hxbyte⟩).1

/-- Settles O50: a register that is settled shows what it holds, one of U15 a moment of the operation. -/
theorem registerMapReads : Obligations.RegisterMapReads := by
  intro s off rest hhost haligned
  refine ⟨fun hsettled => ?_, fun hbusy hoff => ?_⟩
  · have hsettled' : s.busyBit = 0 ∨ unsettled off.toNat = false :=
      hsettled.imp_right fun h => not_unsettled (h.imp_right (Or.imp_left fun h => congrArg BitVec.toNat h))
    have hread := hostReadReg_settled (s := s.withHost rest) haligned hsettled'
    obtain ⟨hb, hf, ho, hi, hz, he, hz'⟩ := statusWord_fields s
    refine ⟨_, (step_read hhost).trans hread, ?_⟩
    refine ⟨?_, ?_, ?_, ?_, ?_, ?_, ?_, ?_, ?_, ?_, ?_, ?_, ?_, ?_, ?_, ?_, fun h => regValue_reserved h _⟩ <;>
      rintro rfl
    case refine_2 => exact ⟨hb, hf, ho, hi ▸ initedBit_eq_one_iff s, hz, he, hz'⟩
    case refine_16 => exact pinsWord_fields s.pins
    all_goals rfl
  · have hread := hostReadReg_unsettled (s := s.withHost rest) haligned hbusy hoff
    refine ⟨_, (step_read hhost).trans hread, ?_, ?_⟩
    · rcases regInOp_cases off.toNat (Config.busyMoment s.env.fresh) (s.withHost rest) with hshown | ⟨n, hmoment⟩
      · exact .inl hshown
      · obtain ⟨k, hk⟩ := runsTo_ahead n (s := s.withHost []) rfl
        exact .inr ⟨k, _, hk, hmoment⟩
    · rintro rfl hxbit hxbyte
      rcases regInOp_cases 0x28 (Config.busyMoment s.env.fresh) (s.withHost rest) with hshown | ⟨n, hmoment⟩
      · exact List.mem_singleton.mp hshown
      · refine hmoment.trans (congrArg (BitVec.setWidth 32) (?_ : _ = s.result))
        exact ahead_result n (s := s.withHost []) hxbit hxbyte

end Sys2Proof.Machine
end

section
/-!
SUPPORT. The order of a transaction's phases (10_state.md R61).
-/
namespace Sys2Proof.Machine

/-! ## Primitives -/

/-- What a primitive of the pin driver does to the lines, where it does not stop the block. -/
theorem setCs_only (l : Bit) (s : State) :
    (setCs l s).All (fun _ t => t = { s with cs := l, trace := t.trace, env := t.env }) fun t => t.top = .fatal := by
  obtain ⟨pf, h | h | h⟩ := resolve_cases s <;> simp only [setCs, h, Run.bind_ok, Run.bind_halt, Run.All] <;> rfl

theorem setSck_only (l : Bit) (s : State) :
    (setSck l s).All (fun _ t => t = { s with sck := l, trace := t.trace, env := t.env }) fun t => t.top = .fatal := by
  obtain ⟨pf, h | h | h⟩ := resolve_cases s <;> simp only [setSck, h, Run.bind_ok, Run.bind_halt, Run.All] <;> rfl

theorem setMosi_only (l : Bit) (s : State) :
    (setMosi l s).All (fun _ t => t = { s with mosi := l, trace := t.trace, env := t.env })
      fun t => t.top = .fatal := by
  obtain ⟨pf, h | h | h⟩ := resolve_cases s <;> simp only [setMosi, h, Run.bind_ok, Run.bind_halt, Run.All] <;> rfl

theorem getMiso_only (s : State) :
    (getMiso s).All (fun _ t => t = { s with trace := t.trace, env := t.env }) fun t => t.top = .fatal := by
  obtain ⟨pf, h | h | h⟩ := resolve_cases s <;> simp only [getMiso, h, Run.bind_ok, Run.bind_halt, Run.All] <;> rfl

theorem grow_only (req : Nat) (s : State) :
    (grow req s).All (fun _ t => t = { s with cap := t.cap, outBuf := t.outBuf, inBuf := t.inBuf, span := t.span })
      fun t => t.top = .fatal := by
  unfold grow
  split
  · split <;> rfl
  · rfl

/-! ## The order of a transaction's phases -/

/-- The phase after `s` is the next of R61, another of the bytes, or the tail of a transaction without bytes. -/
def PhaseInOrder (s t : State) : Prop :=
  t.tx.txs = s.tx.txs.after ∨ (s.tx.txs = .bytes ∧ t.tx.txs = .bytes)
    ∨ (s.tx.txs = .assert ∧ s.tx.wcnt + s.tx.rcnt = 0 ∧ t.tx.txs = .tailWait1)

theorem nextByte_txs (s : State) :
    (nextByte s).tx.txs = if s.tx.pos < s.tx.wcnt + s.tx.rcnt then .bytes else .tailWait1 := by
  unfold nextByte
  split <;> rfl

theorem txTick_inOrder {s : State} (hdone : s.tx.txs ≠ .done)
    (hcheck : s.tx.txs = .check → txWriteLen s + txReadLen s ≤ s.params.ceiling) :
    (txTick s).All (fun _ t => PhaseInOrder s t) fun _ => True := by
  have next {t : State} (h : t.tx.txs = s.tx.txs.after) : PhaseInOrder s t := .inl h
  unfold txTick
  split
  all_goals rename_i hphase
  · rw [if_neg (Nat.not_lt.mpr (hcheck hphase))]
    exact next (by rw [hphase]; rfl)
  · exact (Run.All.anywhere _).bind fun _ t _ => next (by rw [hphase]; rfl)
  · split
    · exact next (by rw [hphase]; rfl)
    · trivial
  · split
    · refine ((setCs_only _ s).imp (fun _ _ h => h) fun _ _ => trivial).bind fun _ t ht => ?_
      have htxs : (nextByte { t with tx.pos := 0 }).tx.txs
          = if 0 < s.tx.wcnt + s.tx.rcnt then .bytes else .tailWait1 := by
        rw [nextByte_txs, ht]
      by_cases hsome : 0 < s.tx.wcnt + s.tx.rcnt
      · exact next (by rw [htxs, if_pos hsome, hphase]; rfl)
      · exact .inr (.inr ⟨hphase, Nat.eq_zero_of_not_pos hsome, by rw [htxs, if_neg hsome]⟩)
    · trivial
  · split
    · refine ((byteTick_all _ s).imp (fun _ _ h => h.2) fun _ _ => trivial).bind fun ended t ht => ?_
      split
      · have htxs := nextByte_txs { storeIn t.tx.pos t.acc t with tx.pos := t.tx.pos + 1 }
        split at htxs
        · exact .inr (.inl ⟨hphase, htxs⟩)
        · exact next (by rw [htxs, hphase]; rfl)
      · exact .inr (.inl ⟨hphase, by rw [ht]; exact hphase⟩)
    · trivial
  · exact next (by rw [hphase]; rfl)
  · exact (Run.All.anywhere _).bind fun _ t _ => next (by rw [hphase]; rfl)
  · exact next (by rw [hphase]; rfl)
  · split
    · exact (Run.All.anywhere _).bind fun _ t _ => next (by rw [hphase]; rfl)
    · trivial
  · exact absurd hphase hdone

/-- A phase of a transaction as one of its operation, from what it does where it goes on. -/
theorem tick_transaction {s t : State} {op : Op} {P : State → Prop} (hop : TransactionOp op) (htop : s.top = .run op)
    (hjob : s.tx.job ≠ .none) (hall : (txTick s).All (fun _ u => P u) fun _ => True) (h : tick s = .next t)
    (hgoesOn : t.top = s.top) : P t := by
  have stopped {u : State} (hstops : PhaseStops s u) : u.top ≠ s.top := by
    rw [htop]
    rcases hstops with ⟨v, code, -, rfl, -⟩ | ⟨v, -, rfl | rfl | rfl⟩ <;> exact nofun
  have hphase : (opTick op s).All (fun _ u => u.top = s.top → P u) fun u => u.top = s.top → P u := by
    rw [opTick_txTick hop hjob]
    exact ((txTick_all s).and hall).imp (fun _ _ hu _ => hu.2) fun _ hu hsame => absurd hsame (stopped hu.1)
  exact tick_of_opTick htop hphase h hgoesOn

/-- Settles O38: a step without a host action is a phase, and while the operation goes on one of its transaction. -/
theorem transactionPhasesInOrder : Obligations.TransactionPhasesInOrder := by
  intro s t hhost hrun hjob hdone hcheck h hgoesOn
  obtain ⟨op, hop, htop⟩ : ∃ op, TransactionOp op ∧ s.top = .run op := by
    rcases hrun with h | h | h
    · exact ⟨_, .inl rfl, h⟩
    · exact ⟨_, .inr (.inl rfl), h⟩
    · exact ⟨_, .inr (.inr rfl), h⟩
  exact tick_transaction hop htop hjob (txTick_inOrder hdone hcheck) ((step_noHost hhost).symm.trans h) hgoesOn

end Sys2Proof.Machine
end

section
/-!
SUPPORT. The lines in every phase: the clock is high exactly between the two edges of a bit cell, and chip-select
asserted exactly between its assertion and deassertion in a frame (10_state.md R72, R73).
-/
namespace Sys2Proof.Machine

/-! ## What the lines are to be -/

/-- The clock's level before a phase of a bit cell (R62, R72). -/
def cellLevel (ph : BitPhase) : Bit := if ph == .sample || ph == .wait2 || ph == .fall then 1 else 0

/-- The clock and chip-select are at rest. -/
def LinesRest (s : State) : Prop := s.sck = 0 ∧ s.cs = s.params.csDeassert

/-- The lines in a bit cell outside a frame. -/
def LinesInCell (s : State) : Prop := s.sck = cellLevel s.tx.bitph ∧ s.cs = s.params.csDeassert

/-- The lines in a transaction (R61). -/
def LinesInTx (s : State) : Prop :=
  (s.sck = if s.tx.txs = .bytes then cellLevel s.tx.bitph else 0)
    ∧ (s.cs = if s.tx.txs = .bytes ∨ s.tx.txs = .tailWait1 ∨ s.tx.txs = .deassert then s.params.csAssert
        else s.params.csDeassert)

theorem lineInv_iff_rest {s : State} (h : s.top = .idle ∨ s.top = .run .init) : LineInv s ↔ LinesRest s := by
  rcases h with h | h <;> simp [LineInv, LinesRest, clockHigh, frameOpen, bitInProgress, inPhase, h]

theorem lineInv_iff_inCell {s : State} (h : s.top = .run .xbit ∨ s.top = .run .xbyte) : LineInv s ↔ LinesInCell s := by
  rcases h with h | h <;> simp [LineInv, LinesInCell, cellLevel, clockHigh, frameOpen, bitInProgress, inPhase, h]

theorem lineInv_iff_between {s : State} (h : s.top = .run .read ∨ s.top = .run .prog) (hjob : s.tx.job = .none) :
    LineInv s ↔ LinesRest s := by
  rcases h with h | h <;> simp [LineInv, LinesRest, clockHigh, frameOpen, bitInProgress, inPhase, h, hjob]

theorem inPhase_eq {s : State} {op : Op} (hop : TransactionOp op) (h : s.top = .run op)
    (hjob : op = .exec ∨ s.tx.job ≠ .none) (ph : TxPhase) : inPhase s ph = (s.tx.txs == ph) := by
  rcases hop with rfl | rfl | rfl
  · simp only [inPhase, h]
  · simp only [inPhase, h, bne_iff_ne.mpr (hjob.resolve_left nofun), Bool.true_and]
  · simp only [inPhase, h, bne_iff_ne.mpr (hjob.resolve_left nofun), Bool.true_and]

theorem lineInv_iff_inTx {s : State} {op : Op} (hop : TransactionOp op) (h : s.top = .run op)
    (hjob : op = .exec ∨ s.tx.job ≠ .none) : LineInv s ↔ LinesInTx s := by
  have hnotFatal : s.top ≠ .fatal := by
    rw [h]
    exact nofun
  have hbit : bitInProgress s = (s.tx.txs == .bytes) := by
    rw [← inPhase_eq hop h hjob]
    rcases hop with rfl | rfl | rfl <;> simp [bitInProgress, h]
  have hclock : (if clockHigh s then 1 else 0) = if s.tx.txs = .bytes then cellLevel s.tx.bitph else (0 : Bit) := by
    rw [clockHigh, hbit]
    by_cases hbytes : s.tx.txs = .bytes <;> simp [hbytes, cellLevel]
  have hframe : frameOpen s = true ↔ s.tx.txs = .bytes ∨ s.tx.txs = .tailWait1 ∨ s.tx.txs = .deassert := by
    simp [frameOpen, inPhase_eq hop h hjob, or_assoc]
  simp only [LineInv, LinesInTx, hnotFatal, false_or, hclock, hframe]

/-- The lines of a transaction in its first phase are at rest, and so are those of an operation between two. -/
theorem lineInv_of_check {s : State} {op : Op} (hop : TransactionOp op) (h : s.top = .run op)
    (hcheck : s.tx.txs = .check) (hrest : LinesRest s) : LineInv s := by
  by_cases hjob : op = .exec ∨ s.tx.job ≠ .none
  · refine (lineInv_iff_inTx hop h hjob).mpr ?_
    simp only [LinesInTx, hcheck]
    exact hrest
  · obtain ⟨hexec, hnone⟩ := not_or.mp hjob
    have hrun : s.top = .run .read ∨ s.top = .run .prog := by
      rcases hop with rfl | rfl | rfl
      · exact absurd rfl hexec
      · exact .inl h
      · exact .inr h
    exact (lineInv_iff_between hrun (not_not.mp hnone)).mpr hrest

/-! ## Bits and bytes -/

/-- Everything a phase of a bit cell does to the lines (R62, R72). -/
theorem bitTick_lines (o : Bit) {s : State} (h : s.sck = cellLevel s.tx.bitph) :
    (bitTick o s).All
      (fun ended t => t.sck = cellLevel t.tx.bitph ∧ (ended = true → t.tx.bitph = .drive) ∧ t.cs = s.cs
        ∧ t.params = s.params ∧ t.top = s.top) fun t => t.top = .fatal := by
  unfold bitTick
  split
  all_goals rename_i hph
  · refine (setMosi_only o s).bind fun _ t ht => ?_
    rw [ht]
    exact ⟨by rw [h, hph]; rfl, nofun, rfl, rfl, rfl⟩
  · exact ⟨by rw [hph] at h; exact h, nofun, rfl, rfl, rfl⟩
  · refine (setSck_only 1 s).bind fun _ t ht => ?_
    rw [ht]
    exact ⟨rfl, nofun, rfl, rfl, rfl⟩
  · refine (getMiso_only s).bind fun b t ht => ?_
    rw [ht]
    exact ⟨by rw [hph] at h; exact h, nofun, rfl, rfl, rfl⟩
  · exact ⟨by rw [hph] at h; exact h, nofun, rfl, rfl, rfl⟩
  · refine (setSck_only 0 s).bind fun _ t ht => ?_
    rw [ht]
    exact ⟨rfl, fun _ => rfl, rfl, rfl, rfl⟩

/-- Everything a phase of a byte does to the lines. -/
theorem byteTick_lines (v : Byte) {s : State} (h : s.sck = cellLevel s.tx.bitph) :
    (byteTick v s).All
      (fun ended t => t.sck = cellLevel t.tx.bitph ∧ (ended = true → t.tx.bitph = .drive) ∧ t.cs = s.cs
        ∧ t.params = s.params ∧ t.top = s.top) fun t => t.top = .fatal := by
  refine (bitTick_lines _ h).bind fun ended t ⟨hsck, hend, hkept⟩ => ?_
  split
  · rename_i hcell
    exact ⟨hsck, fun _ => hend hcell, hkept⟩
  · exact ⟨hsck, nofun, hkept⟩

/-! ## Transactions -/

/-- The operation goes on between two transactions, or at the first phase of the next, the lines as they were. -/
structure Between (s t : State) : Prop where
  check : t.tx.txs = .check
  sck : t.sck = s.sck
  cs : t.cs = s.cs
  params : t.params = s.params
  top : t.top = s.top

theorem Between.programReturned (r : Word) (s : State) : Between s (programReturned r s) := by
  unfold Machine.programReturned
  split <;> exact ⟨rfl, rfl, rfl, rfl, rfl⟩

theorem Between.substNext (s : State) : Between s (substNext s) := by
  unfold Machine.substNext
  split
  · split
    · exact ⟨rfl, rfl, rfl, rfl, rfl⟩
    · obtain ⟨hcheck, hsck, hcs, hparams, htop⟩ := Between.programReturned s.pp.result { s with pp.result := 0 }
      exact ⟨hcheck, hsck, hcs, hparams, htop⟩
  · exact ⟨rfl, rfl, rfl, rfl, rfl⟩

theorem Between.substEnded (s : State) : Between s (substEnded s) := by
  obtain ⟨hcheck, hsck, hcs, hparams, htop⟩ := Between.substNext { s with pp.todo := s.pp.todo.tail }
  exact ⟨hcheck, hsck, hcs, hparams, htop⟩

/-- What a phase of a transaction leaves, the lines of `s` as they are to be: those of its next phase, or the lines at
rest between two transactions. -/
def TxLines (s t : State) : Prop :=
  t.top = s.top ∧ (LinesInTx t ∧ t.tx.job = s.tx.job ∨ LinesRest t ∧ t.tx.txs = .check)

theorem Between.txLines {s t : State} (h : Between s t) (hrest : LinesRest s) : TxLines s t := by
  refine ⟨h.top, .inr ⟨?_, h.check⟩⟩
  unfold LinesRest
  rw [h.sck, h.cs, h.params]
  exact hrest

theorem nextByte_lines {s : State} (hsck : s.sck = 0) (hcs : s.cs = s.params.csAssert) :
    LinesInTx (nextByte s) ∧ (nextByte s).top = s.top ∧ (nextByte s).tx.job = s.tx.job := by
  unfold nextByte
  split <;> exact ⟨⟨hsck, hcs⟩, rfl, rfl⟩

theorem lineInv_endOp {s : State} (h : LinesRest s) (code : Byte) : LineInv (s.endOp code) :=
  (lineInv_iff_rest (.inl rfl)).mpr h

theorem txRefused_lines {s : State} (h : LinesRest s) : (txRefused s).All (fun _ t => TxLines s t) LineInv := by
  unfold txRefused
  split
  · exact Between.txLines ⟨rfl, rfl, rfl, rfl, rfl⟩ h
  · exact lineInv_endOp h _
  · exact lineInv_endOp h _
  · exact (Between.programReturned _ s).txLines h
  · exact (Between.programReturned _ s).txLines h
  · trivial
  · exact (Between.substEnded s).txLines h

theorem txDone_lines {s : State} (h : LinesRest s) : (txDone s).All (fun _ t => TxLines s t) LineInv := by
  unfold txDone
  split
  · exact Between.txLines ⟨rfl, rfl, rfl, rfl, rfl⟩ h
  · exact lineInv_endOp h _
  · exact Between.txLines ⟨rfl, rfl, rfl, rfl, rfl⟩ h
  · exact Between.txLines ⟨rfl, rfl, rfl, rfl, rfl⟩ h
  · exact (Between.programReturned _ s).txLines h
  · exact Between.txLines ⟨rfl, rfl, rfl, rfl, rfl⟩ h
  · exact (Between.substEnded s).txLines h

theorem txCopy_lines (s : State) :
    (txCopy s).All (fun _ t => t = { s with sr := t.sr, span := t.span, hr := t.hr }) LineInv := by
  unfold txCopy
  split
  case h_6 => split <;> trivial
  all_goals rfl

/-- Everything a phase of a transaction does to the lines (R61, R72, R73). -/
theorem txTick_lines {s : State} (h : LinesInTx s) : (txTick s).All (fun _ t => TxLines s t) LineInv := by
  have stopped {α : Type} {r : Run α} {P : α → State → Prop} (hr : r.All P fun t => t.top = .fatal) : r.All P LineInv :=
    hr.imp (fun _ _ h => h) fun _ h => .inl h
  have rest (hphase : ¬ (s.tx.txs = .bytes ∨ s.tx.txs = .tailWait1 ∨ s.tx.txs = .deassert)) : LinesRest s := by
    obtain ⟨hbytes, -⟩ := not_or.mp hphase
    rw [LinesInTx, if_neg hbytes, if_neg hphase] at h
    exact h
  unfold txTick
  split
  all_goals rename_i hphase
  · have hrest := rest (by simp [hphase])
    split
    · exact txRefused_lines hrest
    · exact ⟨rfl, .inl ⟨hrest, rfl⟩⟩
  · have hrest := rest (by simp [hphase])
    refine (stopped (grow_only _ s)).bind fun _ t ht => ?_
    rw [ht]
    exact ⟨rfl, .inl ⟨hrest, rfl⟩⟩
  · have hrest := rest (by simp [hphase])
    split
    · exact ⟨rfl, .inl ⟨hrest, rfl⟩⟩
    · trivial
  · have hrest := rest (by simp [hphase])
    split
    · refine (stopped (setCs_only _ s)).bind fun _ t ht => ?_
      have hsck : t.sck = 0 := by rw [ht]; exact hrest.1
      have hcs : t.cs = t.params.csAssert := by rw [ht]
      obtain ⟨hlines, htop, hjob⟩ := nextByte_lines (s := { t with tx.pos := 0 }) hsck hcs
      exact ⟨htop.trans (by rw [ht]), .inl ⟨hlines, hjob.trans (by rw [ht])⟩⟩
    · trivial
  · have hsck : s.sck = cellLevel s.tx.bitph := h.1.trans (if_pos hphase)
    have hcs : s.cs = s.params.csAssert := h.2.trans (if_pos (.inl hphase))
    split
    · have hbyte := ((stopped (byteTick_lines s.tx.outb hsck)).and (byteTick_all s.tx.outb s)).imp
        (fun _ _ h => h) fun _ h => h.1
      refine hbyte.bind fun ended t ⟨⟨hsck', hend, hcs', hparams, htop⟩, _, htx⟩ => ?_
      have hassert : t.cs = t.params.csAssert := by rw [hcs', hparams, hcs]
      have hjob : t.tx.job = s.tx.job := by rw [htx]
      split
      · rename_i hended
        have hlow : t.sck = 0 := by rw [hsck', hend hended]; rfl
        obtain ⟨hlines, htop', hjob'⟩ :=
          nextByte_lines (s := { storeIn t.tx.pos t.acc t with tx.pos := t.tx.pos + 1 }) hlow hassert
        exact ⟨htop'.trans htop, .inl ⟨hlines, hjob'.trans hjob⟩⟩
      · have hbytes : t.tx.txs = .bytes := by rw [htx]; exact hphase
        exact ⟨htop, .inl ⟨⟨hsck'.trans (if_pos hbytes).symm, hassert.trans (if_pos (.inl hbytes)).symm⟩, hjob⟩⟩
    · trivial
  · simp only [LinesInTx, hphase] at h
    exact ⟨rfl, .inl ⟨h, rfl⟩⟩
  · simp only [LinesInTx, hphase] at h
    refine (stopped (setCs_only _ s)).bind fun _ t ht => ?_
    rw [ht]
    exact ⟨rfl, .inl ⟨⟨h.1, rfl⟩, rfl⟩⟩
  · exact ⟨rfl, .inl ⟨rest (by simp [hphase]), rfl⟩⟩
  · have hrest := rest (by simp [hphase])
    split
    · refine (txCopy_lines s).bind fun _ t ht => ?_
      rw [ht]
      exact ⟨rfl, .inl ⟨hrest, rfl⟩⟩
    · trivial
  · exact txDone_lines (rest (by simp [hphase]))

/-! ## Operations -/

theorem initTick_lines {s : State} (htop : s.top = .run .init) (h : LineInv s) :
    (initTick s).All (fun _ t => LineInv t) LineInv := by
  have hrest := (lineInv_iff_rest (.inr htop)).mp h
  unfold initTick
  split
  · split
    · exact lineInv_endOp (s := initLatch s) hrest _
    · exact (lineInv_iff_rest (.inr htop)).mpr hrest
  · refine ((setCs_only _ s).imp (fun _ _ h => h) fun _ h => .inl h).bind fun _ t ht => ?_
    have htop' : t.top = .run .init := by rw [ht]; exact htop
    have hrest' : LinesRest t := by rw [ht]; exact ⟨hrest.1, rfl⟩
    exact (lineInv_iff_rest (s := { t with initph := .clock }) (.inr htop')).mpr hrest'
  · refine ((setSck_only 0 s).imp (fun _ _ h => h) fun _ h => .inl h).bind fun _ t ht => ?_
    have hrest' : LinesRest t := by rw [ht]; exact ⟨rfl, hrest.2⟩
    exact lineInv_endOp hrest' codeOk

/-- The lines after a phase of a cell or byte outside a frame, and at its end. -/
theorem lineInv_cell {s t : State} (htop : s.top = .run .xbit ∨ s.top = .run .xbyte) (h : LinesInCell s)
    (hsck : t.sck = cellLevel t.tx.bitph) (hcs : t.cs = s.cs) (hparams : t.params = s.params) (htop' : t.top = s.top) :
    LineInv t :=
  (lineInv_iff_inCell (htop' ▸ htop)).mpr ⟨hsck, by rw [hcs, hparams]; exact h.2⟩

theorem linesRest_cell {s t : State} (h : LinesInCell s) (hsck : t.sck = cellLevel t.tx.bitph)
    (hdrive : t.tx.bitph = .drive) (hcs : t.cs = s.cs) (hparams : t.params = s.params) : LinesRest t :=
  ⟨by rw [hsck, hdrive]; rfl, by rw [hcs, hparams]; exact h.2⟩

theorem xbitTick_lines {s : State} (htop : s.top = .run .xbit) (h : LineInv s) :
    (xbitTick s).All (fun _ t => LineInv t) LineInv := by
  have hcell := (lineInv_iff_inCell (.inl htop)).mp h
  refine ((bitTick_lines _ hcell.1).imp (fun _ _ h => h) fun _ h => .inl h).bind
    fun ended t ⟨hsck, hend, hcs, hparams, htop'⟩ => ?_
  split
  · rename_i hended
    exact lineInv_endOp (s := { t with result := _ }) (linesRest_cell hcell hsck (hend hended) hcs hparams)
      codeOk
  · exact lineInv_cell (.inl htop) hcell hsck hcs hparams htop'

theorem xbyteTick_lines {s : State} (htop : s.top = .run .xbyte) (h : LineInv s) :
    (xbyteTick s).All (fun _ t => LineInv t) LineInv := by
  have hcell := (lineInv_iff_inCell (.inr htop)).mp h
  refine ((byteTick_lines _ hcell.1).imp (fun _ _ h => h) fun _ h => .inl h).bind
    fun ended t ⟨hsck, hend, hcs, hparams, htop'⟩ => ?_
  split
  · rename_i hended
    exact lineInv_endOp (s := { t with result := _ }) (linesRest_cell hcell hsck (hend hended) hcs hparams)
      codeOk
  · exact lineInv_cell (.inr htop) hcell hsck hcs hparams htop'

theorem txTick_lineInv {s : State} {op : Op} (hop : TransactionOp op) (htop : s.top = .run op)
    (hjob : op = .exec ∨ s.tx.job ≠ .none) (h : LineInv s) : (txTick s).All (fun _ t => LineInv t) LineInv := by
  refine (txTick_lines ((lineInv_iff_inTx hop htop hjob).mp h)).imp (fun _ t ht => ?_) fun _ h => h
  obtain ⟨htop', ⟨hlines, hjob'⟩ | ⟨hrest, hcheck⟩⟩ := ht
  · exact (lineInv_iff_inTx hop (htop'.trans htop) (hjob' ▸ hjob)).mpr hlines
  · exact lineInv_of_check hop (htop'.trans htop) hcheck hrest

theorem Between.lineInv {s t : State} {op : Op} (h : Between s t) (hop : TransactionOp op) (htop : s.top = .run op)
    (hrest : LinesRest s) : LineInv t :=
  lineInv_of_check hop (h.top.trans htop) h.check (by
    unfold LinesRest
    rw [h.sck, h.cs, h.params]
    exact hrest)

/-- READ between two chunks. -/
theorem readTick_lines {s : State} (hrest : LinesRest s) : (readTick s).All (fun _ t => Between s t) LineInv := by
  unfold readTick
  split
  · split
    · trivial
    · exact ⟨rfl, rfl, rfl, rfl, rfl⟩
  · exact lineInv_endOp hrest _

/-- PROG between two transactions. -/
theorem ppTick_lines {s : State} (hrest : LinesRest s) : (ppTick s).All (fun _ t => Between s t) LineInv := by
  have substNext {u : State} (hsck : u.sck = s.sck) (hcs : u.cs = s.cs) (hparams : u.params = s.params)
      (htop : u.top = s.top) : Between s (substNext u) := by
    obtain ⟨hcheck', hsck', hcs', hparams', htop'⟩ := Between.substNext u
    exact ⟨hcheck', hsck'.trans hsck, hcs'.trans hcs, hparams'.trans hparams, htop'.trans htop⟩
  unfold ppTick
  split
  · split
    · split
      · trivial
      · exact ⟨rfl, rfl, rfl, rfl, rfl⟩
    · exact ⟨rfl, rfl, rfl, rfl, rfl⟩
  · split
    · exact ⟨rfl, rfl, rfl, rfl, rfl⟩
    · exact substNext rfl rfl rfl rfl
  · split
    · exact ⟨rfl, rfl, rfl, rfl, rfl⟩
    · exact substNext rfl rfl rfl rfl
  · split
    · exact ⟨rfl, rfl, rfl, rfl, rfl⟩
    · split <;> exact ⟨rfl, rfl, rfl, rfl, rfl⟩
  · exact ⟨rfl, rfl, rfl, rfl, rfl⟩
  · exact lineInv_endOp hrest _
  · exact lineInv_endOp hrest _
  · exact lineInv_endOp hrest _

theorem opTick_lineInv {s : State} {op : Op} (htop : s.top = .run op) (h : LineInv s) :
    (opTick op s).All (fun _ t => LineInv t) LineInv := by
  cases op with
  | init => exact initTick_lines htop h
  | xbit => exact xbitTick_lines htop h
  | xbyte => exact xbyteTick_lines htop h
  | exec => exact txTick_lineInv execOp_transacts htop (.inl rfl) h
  | read =>
    change (if s.tx.job = .none then readTick s else txTick s).All _ _
    split
    · rename_i hjob
      exact (readTick_lines ((lineInv_iff_between (.inl htop) hjob).mp h)).imp
        (fun _ _ ht => ht.lineInv readOp_transacts htop ((lineInv_iff_between (.inl htop) hjob).mp h)) fun _ h => h
    · exact txTick_lineInv readOp_transacts htop (.inr ‹_›) h
  | prog =>
    change (if s.tx.job = .none then ppTick s else txTick s).All _ _
    split
    · rename_i hjob
      exact (ppTick_lines ((lineInv_iff_between (.inr htop) hjob).mp h)).imp
        (fun _ _ ht => ht.lineInv progOp_transacts htop ((lineInv_iff_between (.inr htop) hjob).mp h)) fun _ h => h
    · exact txTick_lineInv progOp_transacts htop (.inr ‹_›) h

theorem tick_lineInv {s t : State} (hs : LineInv s) (h : tick s = .next t) : LineInv t := by
  rcases tick_next h with ⟨-, rfl⟩ | ⟨hbusy, -⟩
  · exact hs
  · obtain ⟨op, htop⟩ := run_of_busyBit hbusy
    exact tick_of_opTick htop (opTick_lineInv htop hs) h

/-- An operation is accepted with the lines at rest, and begins outside a bit cell and a frame (R60). -/
theorem startOp_lineInv {op : Op} {s t : State} (hrest : LinesRest s) (h : startOp op s = .next t) : LineInv t := by
  have htop : t.top = .run op := by rw [startOp_next h]
  have hrest' : LinesRest t := by
    rw [startOp_next h]
    exact hrest
  have hfirst : t.tx.txs = .check ∧ t.tx.bitph = .drive := by
    cases op with
    | prog =>
      simp only [startOp] at h
      split at h
      · cases h
      · cases h
        exact ⟨rfl, rfl⟩
    | init => cases h; exact ⟨rfl, rfl⟩
    | xbit => cases h; exact ⟨rfl, rfl⟩
    | xbyte => cases h; exact ⟨rfl, rfl⟩
    | exec => cases h; exact ⟨rfl, rfl⟩
    | read => cases h; exact ⟨rfl, rfl⟩
  have inCell : LinesInCell t := ⟨by rw [hrest'.1, hfirst.2]; rfl, hrest'.2⟩
  cases op with
  | init => exact (lineInv_iff_rest (.inr htop)).mpr hrest'
  | xbit => exact (lineInv_iff_inCell (.inl htop)).mpr inCell
  | xbyte => exact (lineInv_iff_inCell (.inr htop)).mpr inCell
  | exec => exact lineInv_of_check execOp_transacts htop hfirst.1 hrest'
  | read => exact lineInv_of_check readOp_transacts htop hfirst.1 hrest'
  | prog => exact lineInv_of_check progOp_transacts htop hfirst.1 hrest'

/-- Settles O57: the host moves no line, and from an operation's acceptance on every phase keeps them. -/
theorem stepKeepsLines : Obligations.StepKeepsLines := by
  intro s t hs h
  rcases step_reset_or h with ⟨u, rfl⟩ | hcase
  · exact .inr ⟨rfl, rfl⟩
  cases hcase.part with
  | host h =>
    rw [h.1]
    exact hs
  | phase u hu h =>
    have hu' : LineInv u := by rw [hu]; exact hs
    exact tick_lineInv hu' h
  | operation op u s0 hu herr hidle hstart hticks hissue =>
    have hrest : LinesRest u := by
      rw [hu]
      exact (lineInv_iff_rest (.inl hidle)).mp hs
    exact hticks.keeps (P := LineInv) (fun _ _ => tick_lineInv) (startOp_lineInv hrest hstart)

end Sys2Proof.Machine
end
